-- ==== Sys2Proof/Word.lean ====
section
/-! DEFINITION. The word types of the bridge block: u8, u16 and u32 (00_scope.md R9). An address is a plain
`Nat`: it is a parameter or a parameter plus a constant offset, and no rule wraps one. -/

namespace Sys2Proof

/-- `u8` (R9). -/
abbrev Byte := BitVec 8

/-- `u16` (R9): `command`, `status`, `IDLE_CMD`. -/
abbrev Half := BitVec 16

/-- `u32` (R9): the trigger word, signatures, payload words, clock rates, ids. -/
abbrev Word := BitVec 32

end Sys2Proof
end

