-- ==== Sys2Proof/Config.lean ====
section
/-! DEFINITION. What one platform fixes (00_scope.md R7 and R8) and the free values. The source gives no
number for the parameters of R7, so a machine carries its parameter set as plain data (`State.params`), and a
statement about every state is a statement about every parameter set and every setting of the switches. -/

namespace Sys2Proof

/-- Which words are clock requests (R8, R123, `90_conflicts.md` C1). -/
inductive ClkGate where
  | noneOf28_29_30
  | notBit30
  deriving DecidableEq, Repr

/-- What the block's write of TRIG does (R8, R34). -/
inductive TrigAckMode where
  | w1c
  | clearAll
  deriving DecidableEq, Repr

/-- What the host's write of TRIG does (R8, R62). -/
inductive TrigRaiseMode where
  | or
  | replace
  deriving DecidableEq, Repr

/-- How the signature constants are laid out (R8, R29). -/
inductive SigLayout where
  | acpi
  | bytes
  deriving DecidableEq, Repr

/-- The parameters of R7 and the switches of R8. -/
structure Params where
  /-- `CH0_BASE`. -/
  ch0Base : Nat
  /-- `CH1_BASE`. -/
  ch1Base : Nat
  /-- `TRIG_ADDR`. -/
  trigAddr : Nat
  /-- `PERF_ADDR`. -/
  perfAddr : Nat
  /-- `ADDR_WIDTH`, in bits. -/
  addrWidth : Nat
  /-- `TRIG_IRQ_ID`. -/
  trigIrqId : Word
  /-- `PRIO_HIGHEST_SECURE`; its width is the controller's, so it is a plain number. -/
  prioHighestSecure : Nat
  /-- `PD1`, `PD2`, `PD3`. -/
  pd1 : Word
  pd2 : Word
  pd3 : Word
  /-- `PD_WAIT1`, `PD_WAIT2`, `PD_WAIT3`. -/
  pdWait1 : Bool
  pdWait2 : Bool
  pdWait3 : Bool
  /-- `CLK_ID`. -/
  clkId : Word
  /-- `IDLE_CMD`. -/
  idleCmd : Half
  /-- `CLK_GATE`. -/
  clkGate : ClkGate
  /-- `TRIG_ACK_MODE`. -/
  trigAckMode : TrigAckMode
  /-- `TRIG_RAISE_MODE`. -/
  trigRaiseMode : TrigRaiseMode
  /-- `SIG_LAYOUT`. -/
  sigLayout : SigLayout
  deriving DecidableEq, Repr

/-- The regions `[a, a+n)` and `[b, b+m)` share no address (R7, R68). -/
abbrev disjointRegions (a n b m : Nat) : Prop := a + n ≤ b ∨ b + m ≤ a

/-- The constraints of R7: 4-byte alignment, the four regions pairwise disjoint, an address width of at least
32. That every region lies inside the address space is DEDUCED from R60 (assumption 3). -/
abbrev Params.Admissible (p : Params) : Prop :=
  p.ch0Base % 4 = 0 ∧ p.ch1Base % 4 = 0 ∧ p.trigAddr % 4 = 0 ∧ p.perfAddr % 4 = 0
    ∧ disjointRegions p.ch0Base 16 p.ch1Base 16
    ∧ disjointRegions p.ch0Base 16 p.trigAddr 4
    ∧ disjointRegions p.ch0Base 16 p.perfAddr 4
    ∧ disjointRegions p.ch1Base 16 p.trigAddr 4
    ∧ disjointRegions p.ch1Base 16 p.perfAddr 4
    ∧ disjointRegions p.trigAddr 4 p.perfAddr 4
    ∧ 32 ≤ p.addrWidth
    ∧ p.ch0Base + 16 ≤ 2 ^ p.addrWidth ∧ p.ch1Base + 16 ≤ 2 ^ p.addrWidth
    ∧ p.trigAddr + 4 ≤ 2 ^ p.addrWidth ∧ p.perfAddr + 4 ≤ 2 ^ p.addrWidth

/-- The check `step` makes before it runs with a parameter set (R64, R212). -/
def Params.wf (p : Params) : Bool := decide p.Admissible

/-- DESIGN CHOICE (assumption 2): the parameter set of `State.reset`. The switches are at the defaults of R8;
the numbers are one set that meets the constraints of R7, and stand for no platform. -/
def Params.default : Params where
  ch0Base := 0x1000
  ch1Base := 0x1010
  trigAddr := 0x2000
  perfAddr := 0x2004
  addrWidth := 32
  trigIrqId := 0x21#32
  prioHighestSecure := 0
  pd1 := 1#32
  pd2 := 2#32
  pd3 := 3#32
  pdWait1 := true
  pdWait2 := true
  pdWait3 := true
  clkId := 3#32
  idleCmd := 0xFFFF#16
  clkGate := .noneOf28_29_30
  trigAckMode := .w1c
  trigRaiseMode := .or
  sigLayout := .acpi

/-- FREE VALUE (assumption 6): the `n`-th word the environment draws where no word is waiting in `State.env`
(a PERF read, R35; the value of a call's answer, R170), and the draw of R144 after a failed `GET_CLOCK`. -/
opaque Config.freeWord : Nat → Word

/-- FREE VALUE (assumption 6): the `n`-th success bit the co-processor draws where no answer is waiting in
`State.env` (R170). -/
opaque Config.freeOk : Nat → Bool

end Sys2Proof
end

