-- ==== Sys2Proof/Machine/Operands.lean ====
section
/-! DEFINITION. Every operand form and every constant offset the spec gives: the numeric literals (kept as
named constants, `93_implementation_defined.md` §3), the record layout, the signatures, the operands of PWM and
clock requests, and the delivered-counter arithmetic. -/

namespace Sys2Proof.Machine

/-- The two channels (R27). -/
inductive Chan where
  | ch0
  | ch1
  deriving DecidableEq, Repr

/-- The fields of a Channel Record as the block accesses them, each with one access of its own width
(R28, R65): the payload is two u32 words, `reference_counter` and `delivered_counter` on Channel 0 (R32). -/
inductive Field where
  | signature
  | command
  | status
  | payload0
  | payload1
  deriving DecidableEq, Repr

/-- The flag bits of the trigger word (R90). -/
def bitCnt : Nat := 28
def bitFan : Nat := 29
def bitPwm : Nat := 30

/-- The clamp range of a clock request, in MHz (R96). -/
def mhzMin : Nat := 600
def mhzMax : Nat := 2200

/-- Hz per MHz (R97). -/
def hzPerMhz : Nat := 1000000

/-- Hz per hundred-MHz unit (R145). -/
def hzPerHundredMhz : Nat := 100000000

/-- The divisor of the delivered counter (R145). -/
def deliveredDivisor : Nat := 15

/-- The idle status word (R31, R93): bit 0 set, bits 15:1 zero. -/
def idleStatus : Half := 0x0001#16

/-- The size of a Channel Record in bytes (R28). -/
def recordBytes : Nat := 16

/-- The byte offset of a field in its record (R28). -/
def fieldOffset : Field → Nat
  | .signature => 0
  | .command => 4
  | .status => 6
  | .payload0 => 8
  | .payload1 => 12

/-- The width of a field's access in bytes (R65). -/
def fieldBytes : Field → Nat
  | .signature => 4
  | .command => 2
  | .status => 2
  | .payload0 => 4
  | .payload1 => 4

/-- The base address of a channel's record (R27). -/
def chanBase (p : Params) : Chan → Nat
  | .ch0 => p.ch0Base
  | .ch1 => p.ch1Base

/-- The address of a field (R140): base plus constant offset. -/
def fieldAddr (p : Params) (c : Chan) (f : Field) : Nat := chanBase p c + fieldOffset f

/-- `SIG0` and `SIG1` (R29), under either layout. -/
def sigOf : SigLayout → Chan → Word
  | .acpi, .ch0 => 0x50434300#32
  | .acpi, .ch1 => 0x50434301#32
  | .bytes, .ch0 => 0x00434350#32
  | .bytes, .ch1 => 0x01434350#32

/-- The PWM duty `V[7:0]` (R95, R124). -/
def dutyOf (v : Word) : Byte := v.setWidth 8

/-- The argument of `SET_PWM`: the duty zero-extended to 32 bits (R95, R174). -/
def dutyArg (duty : Byte) : Word := duty.setWidth 32

/-- `clamp(V, 600, 2200)`, the whole word read as unsigned (R96, R125). -/
def clampMhz (v : Word) : Word := BitVec.ofNat 32 (min (max v.toNat mhzMin) mhzMax)

/-- The argument of `SET_CLOCK` in Hz, computed in u32 (R97). -/
def hzOf (mhz : Word) : Word := mhz * BitVec.ofNat 32 hzPerMhz

/-- `q = c div 100_000_000` (R145 item 1). -/
def hundredMhz (c : Word) : Nat := c.toNat / hzPerHundredMhz

/-- The delivered counter (R145): reduce the clock rate, multiply exactly, divide by 15, keep the low 32 bits.
The order of the operations is the rule's (R254). -/
def delivered (r c : Word) : Word := BitVec.ofNat 32 (r.toNat * hundredMhz c / deliveredDivisor)

/-- Little-endian byte `i` of a value (R63). -/
def leByte (v i : Nat) : Byte := BitVec.ofNat 8 (v / 256 ^ i)

end Sys2Proof.Machine
end

