-- ==== Sys2Proof/Syntax.lean ====
section
/-! DEFINITION. The operations of the bridge block, one constructor per row of spec/opcode_table.json
(00_scope.md R2). A trigger word is a SET of trigger classes (30_encoding.md R91), so one word may decode to
several of the first four. -/

namespace Sys2Proof

/-- One row of the opcode table. -/
inductive Instr where
  /-- `TRIG.CNT` (R121): counter-channel request, bit 28 of the trigger word. -/
  | trigCnt
  /-- `TRIG.FAN` (R122): fan-channel request, bit 29. -/
  | trigFan
  /-- `TRIG.PWM` (R124): fan-speed-set request, bit 30, with the duty `V[7:0]`. -/
  | trigPwm (duty : Byte)
  /-- `TRIG.CLK` (R125): clock request; the operand is the whole trigger word `V[31:0]`. -/
  | trigClk (freqMhz : Word)
  /-- `CMD.READ` (R144, R146): Channel 0 command `0x0000`. -/
  | cmdRead
  /-- `CMD.WRITE` (R148): Channel 0 command `0x0001`. -/
  | cmdWrite
  /-- `CMD.OTHER` (R147): every other Channel 0 command. -/
  | cmdOther (c : Half)
  /-- `RPC.GET_BOARD_REV` (R177). -/
  | rpcGetBoardRev
  /-- `RPC.GET_CLOCK` (R172); its clock id is the parameter `CLK_ID`. -/
  | rpcGetClock
  /-- `RPC.GET_MAX_CLOCK` (R176); its clock id is the parameter `CLK_ID`. -/
  | rpcGetMaxClock
  /-- `RPC.SET_CLOCK` (R173); its clock id is the parameter `CLK_ID`. -/
  | rpcSetClock (hz : Word)
  /-- `RPC.GET_PWM` (R175). -/
  | rpcGetPwm
  /-- `RPC.SET_PWM` (R174). -/
  | rpcSetPwm (duty : Word)
  /-- `RPC.SET_POWER` (R178). -/
  | rpcSetPower (domain : Word) (on wait : Bool)
  deriving DecidableEq, Repr

end Sys2Proof
end

