-- ==== Sys2Proof/WellFormed.lean ====
section
/-! DEFINITION. Which operands an operation may carry: the encodings of 30_encoding.md for the trigger and command
classes, the argument ranges of 42_rpc_requests.md for the requests. -/

namespace Sys2Proof

/-- The mask of `TRIG.CLK` under a gate (R98): bits 30:28, or bit 30 alone. -/
def clkMask : ClkGate → Word
  | .noneOf28_29_30 => 0x70000000#32
  | .notBit30 => 0x40000000#32

/-- Whether an instruction's operands are ones the encoding or the request's rule admits. -/
def Instr.wf (p : Params) : Instr → Bool
  | .trigCnt => true
  | .trigFan => true
  | .trigPwm _ => true
  | .trigClk v => decide (v &&& clkMask p.clkGate = 0#32)
  | .cmdRead => true
  | .cmdWrite => true
  | .cmdOther c => decide (c ≠ 0x0000#16) && decide (c ≠ 0x0001#16)
  | .rpcGetBoardRev => true
  | .rpcGetClock => true
  | .rpcGetMaxClock => true
  | .rpcSetClock hz =>
      decide (Machine.mhzMin * Machine.hzPerMhz ≤ hz.toNat) && decide (hz.toNat ≤ Machine.mhzMax * Machine.hzPerMhz)
  | .rpcGetPwm => true
  | .rpcSetPwm duty => decide (duty.toNat ≤ 255)
  | .rpcSetPower d _ w =>
      decide ((d, w) = (p.pd1, p.pdWait1)) || decide ((d, w) = (p.pd2, p.pdWait2)) || decide ((d, w) = (p.pd3, p.pdWait3))

end Sys2Proof
end

