-- ==== Sys2Proof/Decode.lean ====
section
/-! DEFINITION. The decoder, total on any bytes, and after it the encoder, both from the tables of 30_encoding.md
(R98, R99). A trigger word is four bytes and decodes to the classes it matches, in service order (R126); a command
word is two bytes and decodes to one class (R99). No word of either format is illegal (R101); any other number of
bytes is rejected by name (R103). The co-processor requests have no encoding in the spec (R6, R100). -/

namespace Sys2Proof

/-- Why bytes decode to nothing: they are neither one trigger word nor one command word (R103). -/
inductive DecodeReject where
  | badLength (n : Nat)
  deriving DecidableEq, Repr

/-- Match and mask of the three flag classes (R98). -/
def cntMatch : Word := 0x10000000#32
def cntMask : Word := 0x10000000#32
def fanMatch : Word := 0x20000000#32
def fanMask : Word := 0x20000000#32
def pwmMatch : Word := 0x40000000#32
def pwmMask : Word := 0x40000000#32
def clkMatch : Word := 0x00000000#32

/-- The classes a trigger word matches, each tested on its own (R91, R98), in the service order of R126. -/
def decodeTrigger (g : ClkGate) (v : Word) : List Instr :=
  (if v &&& cntMask = cntMatch then [.trigCnt] else [])
    ++ (if v &&& fanMask = fanMatch then [.trigFan] else [])
    ++ (if v &&& pwmMask = pwmMatch then [.trigPwm (Machine.dutyOf v)] else [])
    ++ (if v &&& clkMask g = clkMatch then [.trigClk v] else [])

/-- The class of a command word (R92, R99). -/
def decodeCommand (c : Half) : Instr :=
  if c = 0x0000#16 then .cmdRead else if c = 0x0001#16 then .cmdWrite else .cmdOther c

/-- The little-endian value of a list of bytes (R63). -/
def leValue : List Byte → Nat
  | [] => 0
  | b :: bs => b.toNat + 256 * leValue bs

/-- The decoder: four bytes are a trigger word, two bytes a command word, anything else is rejected. -/
def decode (g : ClkGate) (bs : List Byte) : Except DecodeReject (List Instr) :=
  if bs.length = 4 then .ok (decodeTrigger g (BitVec.ofNat 32 (leValue bs)))
  else if bs.length = 2 then .ok [decodeCommand (BitVec.ofNat 16 (leValue bs))]
  else .error (.badLength bs.length)

/-- The `n` little-endian bytes of a value (R63). -/
def leBytes : Nat → Nat → List Byte
  | 0, _ => []
  | n + 1, v => BitVec.ofNat 8 v :: leBytes n (v / 256)

/-- The instruction the decoder reads from a word of the opcode table, under the default gate (R8): for a trigger
word, which may match several classes, the one serviced first. -/
def decodeTableWord (nbits w : Nat) : Option Instr :=
  match decode Params.default.clkGate (leBytes (nbits / 8) w) with
  | .ok (i :: _) => some i
  | .ok [] => none
  | .error _ => none

/-- The trigger word that requests exactly one class (R98, R104): flag bit and operand. -/
def encodeTrigger : Instr → Word
  | .trigCnt => cntMatch
  | .trigFan => fanMatch
  | .trigPwm d => pwmMatch ||| d.setWidth 32
  | .trigClk v => v
  | _ => 0#32

/-- The trigger word of several classes at once: their words OR-ed together (R91). -/
def encodeClasses : List Instr → Word
  | [] => 0#32
  | i :: is => encodeTrigger i ||| encodeClasses is

/-- The word of an instruction and its width in bits; the requests have none in the spec (R6). -/
def encode : Instr → Option (Nat × Nat)
  | .trigCnt => some (32, (encodeTrigger .trigCnt).toNat)
  | .trigFan => some (32, (encodeTrigger .trigFan).toNat)
  | .trigPwm d => some (32, (encodeTrigger (.trigPwm d)).toNat)
  | .trigClk v => some (32, (encodeTrigger (.trigClk v)).toNat)
  | .cmdRead => some (16, 0x0000)
  | .cmdWrite => some (16, 0x0001)
  | .cmdOther c => some (16, c.toNat)
  | .rpcGetBoardRev => none
  | .rpcGetClock => none
  | .rpcGetMaxClock => none
  | .rpcSetClock _ => none
  | .rpcGetPwm => none
  | .rpcSetPwm _ => none
  | .rpcSetPower _ _ _ => none

end Sys2Proof
end

