-- ==== Sys2Proof/Machine/State.lean ====
section
/-! DEFINITION. Everything the spec gives the machine, as plain data: the sequencer position, the latches of one
invocation, the two Channel Records (as bytes of memory), TRIG, the interrupt configuration, the controller's
active state, the co-processor state R247 lists, the model-only `violation` and `trace`, and the environment's
pending inputs. The machine's parameters travel with it (`params`), and no step changes them. -/

namespace Sys2Proof.Machine

/-- The startup step index `sstep` (R26, R240). -/
inductive SStep where
  | s1 | s2 | s3 | s4 | s5 | s6 | s7
  deriving DecidableEq, Repr

/-- The sequencer step index `step` (R26, R191). -/
inductive HStep where
  | h1 | h2 | h3 | h4 | h5 | h6 | h7 | h8 | h9 | h10
  deriving DecidableEq, Repr

/-- `phase` (R25), with the step index that is defined in it (R26): `sstep` only in UNINIT, `step` only in
HANDLING. -/
inductive Phase where
  | uninit (sstep : SStep)
  | idle
  | handling (step : HStep)
  deriving DecidableEq, Repr

/-- The names of the latches of R23, for the fault that reads one with no value (R10). -/
inductive Latch where
  | id | v | cnt | fan | pwm | clk | duty | mhz | cmd0 | r | c | d
  deriving DecidableEq, Repr

/-- The internal latches of one handler invocation (R23). `none` is the spec's own "no value" (R10). -/
structure Latches where
  id : Option Word := none
  v : Option Word := none
  cnt : Option Bool := none
  fan : Option Bool := none
  pwm : Option Bool := none
  clk : Option Bool := none
  duty : Option Byte := none
  mhz : Option Word := none
  cmd0 : Option Half := none
  r : Option Word := none
  c : Option Word := none
  d : Option Word := none
  deriving DecidableEq, Repr

/-- `irq.group` (R36). -/
inductive IrqGroup where
  | secure
  | nonSecure
  deriving DecidableEq, Repr

/-- `irq.trigger` (R36). -/
inductive IrqTrigger where
  | level
  | edge
  deriving DecidableEq, Repr

/-- `irq.route` (R36). -/
inductive IrqRoute where
  | allCores
  | other
  deriving DecidableEq, Repr

/-- `irq.handler` (R36): this block's handler, or none. -/
inductive IrqHandler where
  | bridge
  | none
  deriving DecidableEq, Repr

/-- The interrupt configuration the block writes at S2 (R36). -/
structure IrqConfig where
  id : Word
  group : IrqGroup
  trigger : IrqTrigger
  priority : Nat
  route : IrqRoute
  handler : IrqHandler
  deriving DecidableEq, Repr

/-- A co-processor request with its arguments (R100). -/
inductive RpcOp where
  | getBoardRev
  | getClock (clk : Word)
  | getMaxClock (clk : Word)
  | setClock (clk hz : Word)
  | getPwm
  | setPwm (duty : Word)
  | setPower (domain : Word) (on wait : Bool)
  deriving DecidableEq, Repr

/-- The co-processor's answer `(ok, val)` to one call (R170). -/
structure RpcAnswer where
  ok : Bool
  val : Word
  deriving DecidableEq, Repr

/-- A log event: its kind and its fields, no text (R211). `EV_DIAG` has the three shapes of R244, R177, R176. -/
inductive LogEvent where
  | protoCnt (cmd : Half) (signature : Word) (status : Half) (payload : BitVec 64)
  | fanHandshake (signature : Word) (command status : Half) (payload : BitVec 64)
  | diag (boardRev clock maxClock : Word) (ok1 ok2 ok3 : Bool)
  | diagBoardRev (boardRev : Word) (ok : Bool)
  | diagMaxClock (maxClock : Word) (ok : Bool)
  deriving DecidableEq, Repr

/-- One event of the block's history (R40). -/
inductive Event where
  | memRead (addr bytes value : Nat)
  | memWrite (addr bytes value : Nat)
  | rpc (op : RpcOp) (answer : RpcAnswer)
  | gicAck (id : Word)
  | gicEoi (id : Word)
  | log (e : LogEvent)
  deriving DecidableEq, Repr

/-- A naturally aligned place inside a 16-byte record that one host access covers. -/
inductive RecSlot where
  | byte (i : Fin 16)
  | half (i : Fin 8)
  | word (i : Fin 4)
  deriving DecidableEq, Repr

/-- One action of the host agent (R20, R104): an access to a Channel Record, a raise of TRIG (R62), a read of
TRIG (R67), a write of PERF, which has no modelled effect (R35). DESIGN CHOICE (assumption 7): R220 leaves open whether
the host can reach PERF, and the model gives the host no PERF read. -/
inductive HostAction where
  | readRec (ch : Chan) (slot : RecSlot)
  | writeRec (ch : Chan) (slot : RecSlot) (value : Word)
  | raise (v : Word)
  | readTrig
  | writePerf (v : Word)
  deriving DecidableEq, Repr

/-- What one host read returned: address, width in bytes, value (R72). -/
structure HostRead where
  addr : Nat
  bytes : Nat
  value : Nat
  deriving DecidableEq, Repr

/-- The environment's pending inputs (R20, R21). `turns` is the interleaving of R70: its `k`-th entry holds the
host's actions between the block's last transition and its next `k`-th one. The other three are the answers waiting
for the block's next PERF reads, co-processor calls and acknowledges. -/
structure Env where
  turns : List (List HostAction) := []
  perf : List Word := []
  rpc : List RpcAnswer := []
  acks : List Word := []
  deriving DecidableEq, Repr

/-- The co-processor state that R247 lists: the PWM duty and the power domains PD1 to PD3. -/
structure CopState where
  pwm : Word
  pd1On : Bool
  pd2On : Bool
  pd3On : Bool
  deriving DecidableEq, Repr

/-- The machine. -/
structure State where
  /-- The parameter set (R7, R8). -/
  params : Params
  /-- `phase`, `step` and `sstep` (R25, R26). -/
  phase : Phase
  /-- The latches `x[*]` (R23). -/
  x : Latches
  /-- The bytes of the two Channel Records (R27, R28), in the canonical form of `Memory.wf`. -/
  mem : List Host.Cell
  /-- TRIG (R34). -/
  trig : Word
  /-- The interrupt configuration (R36). -/
  irq : IrqConfig
  /-- Whether the trigger line is active in the interrupt controller (R215). -/
  irqActive : Bool
  /-- The co-processor state (R247). -/
  cop : CopState
  /-- The sticky model-only flag (R39). -/
  violation : Bool
  /-- The block's event history, oldest first (R40). -/
  trace : List Event
  /-- MODEL'S OWN: what the host's reads returned, oldest first (R72). -/
  hostReads : List HostRead
  /-- MODEL'S OWN: the environment's pending inputs. -/
  env : Env
  /-- MODEL'S OWN: the number of free values drawn so far. -/
  draws : Nat
  deriving DecidableEq, Repr

/-- Why a step stops with a fault. -/
inductive Fault where
  /-- R10, R212 `LatchUnset`: a sequencer step reads a latch that has no value. Raised by steps H3, H4, H5, H6,
  H7 and H9 only. Safe: the spec says no rule performs such a read. -/
  | latchUnset (l : Latch)
  deriving DecidableEq, Repr

/-- Why a step has no meaning. -/
inductive Refusal where
  /-- An instruction with no meaning yet; raised by no arm of `exec` in this model. Safe. -/
  | notModelled (mnemonic : String)
  /-- R64, R212 `Refused(param)`: the parameter set breaks a constraint of R7. Raised by `step`. Safe. -/
  | badParams
  /-- R192, R212: the acknowledge returned an id other than `TRIG_IRQ_ID`. Raised by step H1. Safe. -/
  | foreignAck (id : Word)
  deriving DecidableEq, Repr

def State.setParams (s : State) (p : Params) : State := { s with params := p }
def State.setPhase (s : State) (p : Phase) : State := { s with phase := p }
def State.setX (s : State) (x : Latches) : State := { s with x := x }
def State.setMem (s : State) (m : List Host.Cell) : State := { s with mem := m }
def State.setTrig (s : State) (v : Word) : State := { s with trig := v }
def State.setIrq (s : State) (q : IrqConfig) : State := { s with irq := q }
def State.setIrqActive (s : State) (b : Bool) : State := { s with irqActive := b }
def State.setCop (s : State) (c : CopState) : State := { s with cop := c }
def State.setViolation (s : State) (b : Bool) : State := { s with violation := b }
def State.setTrace (s : State) (t : List Event) : State := { s with trace := t }
def State.setHostReads (s : State) (r : List HostRead) : State := { s with hostReads := r }
def State.setEnv (s : State) (e : Env) : State := { s with env := e }
def State.setDraws (s : State) (n : Nat) : State := { s with draws := n }

/-- Power-on (R41): what the spec fixes is fixed here, and everything it leaves unspecified (the record bytes,
TRIG, the interrupt configuration, the co-processor state, the environment) is an argument. -/
def State.powerOn (p : Params) (m : List Host.Cell) (trig : Word) (irq : IrqConfig) (cop : CopState) (env : Env) :
    State where
  params := p
  phase := .uninit .s1
  x := {}
  mem := m
  trig := trig
  irq := irq
  irqActive := false
  cop := cop
  violation := false
  trace := []
  hostReads := []
  env := env
  draws := 0

/-- DESIGN CHOICE (assumption 1): the interrupt configuration of `State.reset`. -/
def IrqConfig.blank : IrqConfig where
  id := 0
  group := .nonSecure
  trigger := .edge
  priority := 0
  route := .other
  handler := .none

/-- The machine right after reset: the member of the power-on family (R41) whose unspecified values are the ones
assumption 1 names, with no environment input waiting. -/
def State.reset : State :=
  State.powerOn Params.default [] 0 IrqConfig.blank ⟨0, false, false, false⟩ {}

end Sys2Proof.Machine
end

