-- ==== Sys2Proof/Machine/Flags.lean ====
section
/-! DEFINITION. Every flag computation the spec gives (R38): the four request flags, and the derived signals of
the trigger line. -/

namespace Sys2Proof.Machine

/-- `cnt`: bit 28 of the trigger word (R121). -/
def flagCnt (v : Word) : Bool := v.getLsbD bitCnt

/-- `fan`: bit 29 (R122). -/
def flagFan (v : Word) : Bool := v.getLsbD bitFan

/-- `pwm`: bit 30 (R123). -/
def flagPwm (v : Word) : Bool := v.getLsbD bitPwm

/-- `clk`: the clock gate (R123). -/
def flagClk : ClkGate → Word → Bool
  | .noneOf28_29_30, v => !flagPwm v && !flagFan v && !flagCnt v
  | .notBit30, v => !flagPwm v

/-- The level of the trigger line, derived and not stored (R37): `TRIG != 0`. -/
def lineLevel (s : State) : Bool := decide (s.trig ≠ 0)

/-- The line is pending while it is asserted and not active (R215). -/
def linePending (s : State) : Bool := lineLevel s && !s.irqActive

/-- Bit 0 of a status word: last command complete, channel idle (R31, R93). -/
def statusIdle (st : Half) : Bool := st.getLsbD 0

/-- The configuration R36 and R242 give the trigger line. -/
def triggerLineConfig (p : Params) : IrqConfig where
  id := p.trigIrqId
  group := .secure
  trigger := .level
  priority := p.prioHighestSecure
  route := .allCores
  handler := .bridge

/-- Whether the trigger line has been configured (R190, R242). -/
def lineConfigured (s : State) : Bool := decide (s.irq = triggerLineConfig s.params)

end Sys2Proof.Machine
end

