-- ==== Sys2Proof/Machine/Memory.lean ====
section
/-! DEFINITION. Byte memory in one canonical form, and little-endian accesses over it (20_memory.md R63). The only
memory of the machine is the 32 bytes of the two Channel Records (R60); TRIG and PERF are registers, reached by
operations of their own. -/

namespace Sys2Proof.Machine

/-- DESIGN CHOICE (assumption 1): what a byte that nothing has written reads as. -/
def unlistedByte : Byte := 0

/-- Read one byte. -/
def readByte : List Host.Cell → Nat → Byte
  | [], _ => unlistedByte
  | (k, c) :: t, a => if k = a then c else readByte t a

/-- Write one byte, keeping the canonical form. -/
def writeByte : List Host.Cell → Nat → Byte → List Host.Cell
  | [], a, b => if b = unlistedByte then [] else [(a, b)]
  | (k, c) :: t, a, b =>
      if k < a then (k, c) :: writeByte t a b
      else if k = a then (if b = unlistedByte then t else (a, b) :: t)
      else (if b = unlistedByte then (k, c) :: t else (a, b) :: (k, c) :: t)

/-- The canonical form: addresses strictly rising, no entry equal to what an unlisted address reads as. -/
def memoryWf : List Host.Cell → Bool
  | [] => true
  | [(_, c)] => decide (c ≠ unlistedByte)
  | (k, c) :: (l, d) :: t => decide (c ≠ unlistedByte) && decide (k < l) && memoryWf ((l, d) :: t)

/-- `MemRead(a, n)` on memory: the little-endian value of `n` bytes (R63). -/
def readLE (m : List Host.Cell) (a : Nat) : Nat → Nat
  | 0 => 0
  | n + 1 => readLE m a n + (readByte m (a + n)).toNat * 256 ^ n

/-- `MemWrite(a, n, v)` on memory: byte `i` of `v` goes to `a + i` (R63). -/
def writeLE (m : List Host.Cell) (a : Nat) : Nat → Nat → List Host.Cell
  | 0, _ => m
  | n + 1, v => writeByte (writeLE m a n v) (a + n) (leByte v n)

end Sys2Proof.Machine
end

