-- ==== Sys2Proof/Machine/Ops.lean ====
section
/-! DEFINITION. The named operations every meaning is built from: the host's turn, the block's transactions
(record fields, TRIG, PERF, co-processor calls, acknowledge, end of interrupt), and interrupt entry and return.
Each transaction of the block is one atomic transition, and the host may act between any two of them (R66, R70,
R196): every transaction begins with one host turn. -/

namespace Sys2Proof.Machine

/-! ### The host agent -/

/-- The byte offset of a slot in its record. -/
def slotOffset : RecSlot → Nat
  | .byte i => i.val
  | .half i => 2 * i.val
  | .word i => 4 * i.val

/-- The width of a slot in bytes. -/
def slotBytes : RecSlot → Nat
  | .byte _ => 1
  | .half _ => 2
  | .word _ => 4

/-- Whether every byte of a slot belongs to the `command` field, the only field the host may write (R33). -/
def slotInCommand (sl : RecSlot) : Bool :=
  decide (fieldOffset .command ≤ slotOffset sl)
    && decide (slotOffset sl + slotBytes sl ≤ fieldOffset .command + fieldBytes .command)

/-- The contract violations of R213: a raise during HANDLING, a write to a field that is not `command`, any access
during UNINIT. -/
def violates (ph : Phase) (a : HostAction) : Bool :=
  match ph with
  | .uninit _ => true
  | .idle =>
      match a with
      | .writeRec _ sl _ => !slotInCommand sl
      | .readRec _ _ => false
      | .raise _ => false
      | .readTrig => false
      | .writePerf _ => false
  | .handling _ =>
      match a with
      | .writeRec _ sl _ => !slotInCommand sl
      | .raise _ => true
      | .readRec _ _ => false
      | .readTrig => false
      | .writePerf _ => false

/-- The host's write of TRIG (R62). -/
def raisedTrig : TrigRaiseMode → Word → Word → Word
  | .or, t, v => t ||| v
  | .replace, _, v => v

/-- What a host action does, its violation apart. -/
def hostEffect (a : HostAction) (s : State) : State :=
  match a with
  | .readRec ch sl =>
      s.setHostReads (s.hostReads ++
        [⟨chanBase s.params ch + slotOffset sl, slotBytes sl,
          readLE s.mem (chanBase s.params ch + slotOffset sl) (slotBytes sl)⟩])
  | .writeRec ch sl v =>
      s.setMem (writeLE s.mem (chanBase s.params ch + slotOffset sl) (slotBytes sl) v.toNat)
  | .raise v => s.setTrig (raisedTrig s.params.trigRaiseMode s.trig v)
  | .readTrig => s.setHostReads (s.hostReads ++ [⟨s.params.trigAddr, 4, s.trig.toNat⟩])
  | .writePerf _ => s

/-- One host action: it takes effect whether or not it breaks the contract, and a breach sets the sticky flag
(R213, R220). -/
def hostAct (a : HostAction) (s : State) : State :=
  hostEffect a (s.setViolation (s.violation || violates s.phase a))

/-- A sequence of host actions. -/
def hostBatch : List HostAction → State → State
  | [], s => s
  | a :: as, s => hostBatch as (hostAct a s)

/-- The host's turn before a transition of the block: the next entry of the interleaving, if one is left. -/
def hostTurn (s : State) : State :=
  match s.env.turns with
  | [] => s
  | b :: bs => hostBatch b (s.setEnv { s.env with turns := bs })

/-- `HOST.CMD ch, v` (R104). -/
def hostCommand (ch : Chan) (v : Half) : HostAction := .writeRec ch (.half 2) (v.setWidth 32)

/-- `HOST.READ ch` (R104). DESIGN CHOICE (assumption 7): the spec does not say which accesses a host read of a record
makes or in which order, and this one reads signature, command, status and the two payload words, each by one access of
its own width. Any other list of host reads is a turn of the host too. -/
def hostReadRecord (ch : Chan) : List HostAction :=
  [.readRec ch (.word 0), .readRec ch (.half 2), .readRec ch (.half 3), .readRec ch (.word 2), .readRec ch (.word 3)]

/-! ### Transactions of the block -/

/-- Append an event to the block's history (R40). -/
def emit (e : Event) (s : State) : State := s.setTrace (s.trace ++ [e])

/-- The value a record field holds now. -/
def fieldValue (c : Chan) (f : Field) (s : State) : Nat :=
  readLE s.mem (fieldAddr s.params c f) (fieldBytes f)

/-- Read a record field with one access of its own width (R65, R140). -/
def readField (c : Chan) (f : Field) (s : State) : State × Nat :=
  let s1 := hostTurn s
  let v := fieldValue c f s1
  (emit (.memRead (fieldAddr s1.params c f) (fieldBytes f) v) s1, v)

/-- Write a record field with one access of its own width (R65, R140). -/
def writeField (c : Chan) (f : Field) (v : Nat) (s : State) : State :=
  let s1 := hostTurn s
  emit (.memWrite (fieldAddr s1.params c f) (fieldBytes f) v)
    (s1.setMem (writeLE s1.mem (fieldAddr s1.params c f) (fieldBytes f) v))

/-- Read TRIG; no side effect (R34, R67). -/
def readTrig (s : State) : State × Word :=
  let s1 := hostTurn s
  (emit (.memRead s1.params.trigAddr 4 s1.trig.toNat) s1, s1.trig)

/-- TRIG after the block writes `v` (R34). -/
def ackedTrig : TrigAckMode → Word → Word → Word
  | .w1c, t, v => t &&& ~~~v
  | .clearAll, _, _ => 0

/-- Write TRIG: acknowledge and clear (R34, R194). -/
def writeTrig (v : Word) (s : State) : State :=
  let s1 := hostTurn s
  emit (.memWrite s1.params.trigAddr 4 v.toNat) (s1.setTrig (ackedTrig s1.params.trigAckMode s1.trig v))

/-- The value the next PERF read returns: the waiting input, or a free value (R35). -/
def perfValue (s : State) : Word :=
  match s.env.perf with
  | v :: _ => v
  | [] => Config.freeWord s.draws

/-- Take the next PERF input off the environment, or count a free value as drawn. -/
def perfConsume (s : State) : State :=
  match s.env.perf with
  | _ :: vs => s.setEnv { s.env with perf := vs }
  | [] => s.setDraws (s.draws + 1)

/-- Read PERF: a draw per read (R35, R222). -/
def readPerf (s : State) : State × Word :=
  let s1 := hostTurn s
  (emit (.memRead s1.params.perfAddr 4 (perfValue s1).toNat) (perfConsume s1), perfValue s1)

/-- The co-processor's answer to the next call: the waiting input, or free values (R170). -/
def rpcAnswer (s : State) : RpcAnswer :=
  match s.env.rpc with
  | a :: _ => a
  | [] => ⟨Config.freeOk s.draws, Config.freeWord s.draws⟩

/-- Take the next answer off the environment, or count a free value as drawn. -/
def rpcConsume (s : State) : State :=
  match s.env.rpc with
  | _ :: as => s.setEnv { s.env with rpc := as }
  | [] => s.setDraws (s.draws + 1)

/-- The co-processor state after an accepted request (R247): a successful `SET_PWM` sets the duty, a successful
`SET_POWER` sets the domain it names; a failed call changes nothing. -/
def copAfter (p : Params) (op : RpcOp) (ok : Bool) (c : CopState) : CopState :=
  match op with
  | .setPwm d => if ok then { c with pwm := d } else c
  | .setPower d on _ =>
      if ok then
        { c with
          pd1On := if d = p.pd1 then on else c.pd1On
          pd2On := if d = p.pd2 then on else c.pd2On
          pd3On := if d = p.pd3 then on else c.pd3On }
      else c
  | .getBoardRev => c
  | .getClock _ => c
  | .getMaxClock _ => c
  | .setClock _ _ => c
  | .getPwm => c

/-- `Rpc(op, args) -> (ok, val)`: one blocking call, one transaction (R170). The answer goes to `trace` (R171). -/
def rpcCall (op : RpcOp) (s : State) : State × RpcAnswer :=
  let s1 := hostTurn s
  let a := rpcAnswer s1
  (emit (.rpc op a) ((rpcConsume s1).setCop (copAfter s1.params op a.ok s1.cop)), a)

/-- `x[c]` from an answer of `GET_CLOCK`: its value, or a draw if the call failed (R144). -/
def latchClock (a : RpcAnswer) (s : State) : State :=
  if a.ok then s.setX { s.x with c := some a.val }
  else (s.setX { s.x with c := some (Config.freeWord s.draws) }).setDraws (s.draws + 1)

/-- The id the next acknowledge returns: the waiting input, or the trigger line's own (R192). -/
def ackId (s : State) : Word :=
  match s.env.acks with
  | i :: _ => i
  | [] => s.params.trigIrqId

/-- Take the next acknowledge id off the environment. -/
def ackConsume (s : State) : State :=
  s.setEnv { s.env with acks := s.env.acks.tail }

/-- `GicAck() -> id`: the interrupt becomes active (R192, R215). -/
def gicAck (s : State) : State × Word :=
  let s1 := hostTurn s
  (emit (.gicAck (ackId s1)) ((ackConsume s1).setIrqActive true), ackId s1)

/-- `GicEoi(id)`: the active state of `id` ends (R200, R215). -/
def gicEoi (id : Word) (s : State) : State :=
  let s1 := hostTurn s
  emit (.gicEoi id) (s1.setIrqActive (s1.irqActive && decide (id ≠ s1.params.trigIrqId)))

/-! ### Interrupt entry and return -/

/-- Whether the controller may deliver the trigger interrupt (R190). -/
def deliverable (s : State) : Bool :=
  decide (s.phase = .idle) && lineLevel s && lineConfigured s

/-- Interrupt entry, "H0" (R190, R218): control goes to step H1, and nothing is saved. -/
def enterHandler (s : State) : State := s.setPhase (.handling .h1)

/-- Return from the interrupt, H10 (R201, R219): every latch returns to "no value" and the phase to IDLE. -/
def returnFromHandler (s : State) : State := (s.setX {}).setPhase .idle

/-! ### Sequencing -/

/-- Go on with `f` if the outcome is a next state. -/
def andThen (o : Host.Outcome State Fault Refusal) (f : State → Host.Outcome State Fault Refusal) :
    Host.Outcome State Fault Refusal :=
  match o with
  | .next s => f s
  | .fault r => .fault r
  | .refused r => .refused r

/-- Read a latch: a latch with no value is the fault `LatchUnset` (R10). -/
def withLatch {α : Type} (l : Latch) (v : Option α) (f : α → Host.Outcome State Fault Refusal) :
    Host.Outcome State Fault Refusal :=
  match v with
  | some a => f a
  | none => .fault (.latchUnset l)

end Sys2Proof.Machine
end

