-- ==== Sys2Proof/Machine/Channel.lean ====
section
/-! DEFINITION. The channel controller and responder (41_channel_responder.md): the two resets, the three command
classes of Channel 0, the fan service of Channel 1 and the final reset. -/

namespace Sys2Proof.Machine

/-- `ResetIdle(n)` (R141): signature, then status; `command` and `payload` are not written. -/
def resetIdle (c : Chan) (s : State) : State :=
  writeField c .status idleStatus.toNat (writeField c .signature (sigOf s.params.sigLayout c).toNat s)

/-- `ResetIdleCmd(n)` (R142): signature, `command <- IDLE_CMD`, then status. -/
def resetIdleCmd (c : Chan) (s : State) : State :=
  writeField c .status idleStatus.toNat
    (writeField c .command s.params.idleCmd.toNat
      (writeField c .signature (sigOf s.params.sigLayout c).toNat s))

/-- `CNT.READ` part 1 (R144): sample PERF into `x[r]`, get the clock into `x[c]`, compute `x[d]` from the two. -/
def cntSample (s : State) : State :=
  let (s1, r) := readPerf s
  let s2 := s1.setX { s1.x with r := some r }
  let (s3, a) := rpcCall (.getClock s2.params.clkId) s2
  let s4 := latchClock a s3
  s4.setX { s4.x with d := s4.x.c.map (delivered r) }

/-- `CNT.READ` part 2 (R146): the two payload words, then `ResetIdleCmd(0)`. -/
def cntRespond (r d : Word) (s : State) : State :=
  resetIdleCmd .ch0 (writeField .ch0 .payload1 d.toNat (writeField .ch0 .payload0 r.toNat s))

/-- `CMD.READ` (R144, then R146). -/
def execCmdRead (s : State) : Host.Outcome State Fault Refusal :=
  let s1 := cntSample s
  withLatch .r s1.x.r fun r => withLatch .d s1.x.d fun d => .next (cntRespond r d s1)

/-- `CNT.ERR` (R147): read signature, status and payload, log them with the command, then `ResetIdle(0)`. -/
def cntError (cmd : Half) (s : State) : State :=
  let r1 := readField .ch0 .signature s
  let r2 := readField .ch0 .status r1.1
  let r3 := readField .ch0 .payload0 r2.1
  let r4 := readField .ch0 .payload1 r3.1
  resetIdle .ch0
    (emit (.log (.protoCnt cmd (BitVec.ofNat 32 r1.2) (BitVec.ofNat 16 r2.2)
      ((BitVec.ofNat 32 r3.2 ++ BitVec.ofNat 32 r4.2 : BitVec 64)))) r4.1)

/-- `CMD.WRITE` (R148): the error path with command 1. -/
def execCmdWrite (s : State) : Host.Outcome State Fault Refusal := .next (cntError 0x0001#16 s)

/-- `CMD.OTHER` (R147): the error path with the command as read. -/
def execCmdOther (c : Half) (s : State) : Host.Outcome State Fault Refusal := .next (cntError c s)

/-- `FAN.SVC` (R149): read every field of Channel 1, log it as a handshake, then `ResetIdle(1)`. -/
def fanService (s : State) : State :=
  let r1 := readField .ch1 .signature s
  let r2 := readField .ch1 .command r1.1
  let r3 := readField .ch1 .status r2.1
  let r4 := readField .ch1 .payload0 r3.1
  let r5 := readField .ch1 .payload1 r4.1
  resetIdle .ch1
    (emit (.log (.fanHandshake (BitVec.ofNat 32 r1.2) (BitVec.ofNat 16 r2.2) (BitVec.ofNat 16 r3.2)
      ((BitVec.ofNat 32 r4.2 ++ BitVec.ofNat 32 r5.2 : BitVec 64)))) r5.1)

/-- `RESET.BOTH` (R150): Channel 0, then Channel 1. -/
def resetBoth (s : State) : State := resetIdle .ch1 (resetIdle .ch0 s)

end Sys2Proof.Machine
end

