-- ==== Sys2Proof/Machine/Rpc.lean ====
section
/-! DEFINITION. The co-processor requests (42_rpc_requests.md). Each is one call whose answer is recorded in
`trace`; a failure is ignored and nothing is retried (R171). -/

namespace Sys2Proof.Machine

/-- `GET_BOARD_REV` (R177): the call, then its `EV_DIAG` event. -/
def execRpcGetBoardRev (s : State) : Host.Outcome State Fault Refusal :=
  let (s1, a) := rpcCall .getBoardRev s
  .next (emit (.log (.diagBoardRev a.val a.ok)) s1)

/-- `GET_CLOCK` (R172): the call. During an invocation its value, or a draw if it failed, is latched in `x[c]`
(R144); startup writes no latch (R24). -/
def execRpcGetClock (s : State) : Host.Outcome State Fault Refusal :=
  let (s1, a) := rpcCall (.getClock s.params.clkId) s
  match s.phase with
  | .handling _ => .next (latchClock a s1)
  | .idle => .next s1
  | .uninit _ => .next s1

/-- `GET_MAX_CLOCK` (R176): the call, then its `EV_DIAG` event. -/
def execRpcGetMaxClock (s : State) : Host.Outcome State Fault Refusal :=
  let (s1, a) := rpcCall (.getMaxClock s.params.clkId) s
  .next (emit (.log (.diagMaxClock a.val a.ok)) s1)

/-- `SET_CLOCK(hz)` (R173). -/
def execRpcSetClock (hz : Word) (s : State) : Host.Outcome State Fault Refusal :=
  .next (rpcCall (.setClock s.params.clkId hz) s).1

/-- `GET_PWM` (R175): in the interface, issued by no flow of the block. -/
def execRpcGetPwm (s : State) : Host.Outcome State Fault Refusal :=
  .next (rpcCall .getPwm s).1

/-- `SET_PWM(duty)` (R174). -/
def execRpcSetPwm (duty : Word) (s : State) : Host.Outcome State Fault Refusal :=
  .next (rpcCall (.setPwm duty) s).1

/-- `SET_POWER(domain, on, wait)` (R178). -/
def execRpcSetPower (domain : Word) (on wait : Bool) (s : State) : Host.Outcome State Fault Refusal :=
  .next (rpcCall (.setPower domain on wait) s).1

end Sys2Proof.Machine
end

