-- ==== Sys2Proof/Machine/Trigger.lean ====
section
/-! DEFINITION. The trigger decoder's classes (40_trigger_decoder.md). Each meaning writes the request latches its
rule names; none accesses memory, calls the co-processor or fails (R120). -/

namespace Sys2Proof.Machine

/-- The Pending Request before any class has been found (R195): no flag set; `duty` and `mhz` are latched for
every word (R124, R125). -/
def openRequest (v : Word) (s : State) : State :=
  s.setX { s.x with
    cnt := some false
    fan := some false
    pwm := some false
    clk := some false
    duty := some (dutyOf v)
    mhz := some (clampMhz v) }

/-- `TRIG.CNT` (R121): the word was decoded with bit 28 set, so `cnt` is 1. -/
def execTrigCnt (s : State) : Host.Outcome State Fault Refusal :=
  .next (s.setX { s.x with cnt := some true })

/-- `TRIG.FAN` (R122): `fan` is 1. -/
def execTrigFan (s : State) : Host.Outcome State Fault Refusal :=
  .next (s.setX { s.x with fan := some true })

/-- `TRIG.PWM` (R123, R124): `pwm` is 1, and the duty is latched. -/
def execTrigPwm (duty : Byte) (s : State) : Host.Outcome State Fault Refusal :=
  .next (s.setX { s.x with pwm := some true, duty := some duty })

/-- `TRIG.CLK` (R123, R125): `clk` is 1, and the clamped value is latched. -/
def execTrigClk (freqMhz : Word) (s : State) : Host.Outcome State Fault Refusal :=
  .next (s.setX { s.x with clk := some true, mhz := some (clampMhz freqMhz) })

end Sys2Proof.Machine
end

