-- ==== Sys2Proof/Machine/Dispatch.lean ====
section
/-! DEFINITION. One arm per constructor of `Instr`: one row of spec/opcode_table.json, one meaning. -/

namespace Sys2Proof.Machine

def exec (i : Instr) (s : State) : Host.Outcome State Fault Refusal :=
  match i with
  | .trigCnt => Sys2Proof.Machine.execTrigCnt s
  | .trigFan => Sys2Proof.Machine.execTrigFan s
  | .trigPwm duty => Sys2Proof.Machine.execTrigPwm duty s
  | .trigClk freqMhz => Sys2Proof.Machine.execTrigClk freqMhz s
  | .cmdRead => Sys2Proof.Machine.execCmdRead s
  | .cmdWrite => Sys2Proof.Machine.execCmdWrite s
  | .cmdOther c => Sys2Proof.Machine.execCmdOther c s
  | .rpcGetBoardRev => Sys2Proof.Machine.execRpcGetBoardRev s
  | .rpcGetClock => Sys2Proof.Machine.execRpcGetClock s
  | .rpcGetMaxClock => Sys2Proof.Machine.execRpcGetMaxClock s
  | .rpcSetClock hz => Sys2Proof.Machine.execRpcSetClock hz s
  | .rpcGetPwm => Sys2Proof.Machine.execRpcGetPwm s
  | .rpcSetPwm duty => Sys2Proof.Machine.execRpcSetPwm duty s
  | .rpcSetPower domain on wait => Sys2Proof.Machine.execRpcSetPower domain on wait s

end Sys2Proof.Machine
end

