-- ==== Sys2Proof/Machine/Sequencer.lean ====
section
/-! DEFINITION. The interrupt acknowledge and end-of-interrupt sequencer (43_dispatch_sequencer.md), one definition
per step, and the startup sequence (70_reset_and_hazards.md). A step that makes no transaction still takes one host
turn, so the host may act between any two steps (R70). -/

namespace Sys2Proof.Machine

/-- Run the decoded classes of a trigger word one after another, in the decoder's order. -/
def execAll : List Instr → State → Host.Outcome State Fault Refusal
  | [], s => .next s
  | i :: is, s => andThen (exec i s) (execAll is)

/-- H1, acknowledge (R192): any id but `TRIG_IRQ_ID` is refused. -/
def stepH1 (s : State) : Host.Outcome State Fault Refusal :=
  let (s1, id) := gicAck s
  if id = s.params.trigIrqId then .next ((s1.setX { s1.x with id := some id }).setPhase (.handling .h2))
  else .refused (.foreignAck id)

/-- H2, read the trigger (R193). -/
def stepH2 (s : State) : Host.Outcome State Fault Refusal :=
  let (s1, v) := readTrig s
  .next ((s1.setX { s1.x with v := some v }).setPhase (.handling .h3))

/-- H3, write back the trigger (R194). -/
def stepH3 (s : State) : Host.Outcome State Fault Refusal :=
  withLatch .v s.x.v fun v => .next ((writeTrig v s).setPhase (.handling .h4))

/-- H4, decode (R195): the classes of `x[V]`, each run by `exec`. -/
def stepH4 (s : State) : Host.Outcome State Fault Refusal :=
  withLatch .v s.x.v fun v =>
    andThen (execAll (decodeTrigger s.params.clkGate v) (openRequest v (hostTurn s))) fun s1 =>
      .next (s1.setPhase (.handling .h5))

/-- `CNT.SVC` (R143): read `command` once, decode it, run its class by `exec`. -/
def cntService (s : State) : Host.Outcome State Fault Refusal :=
  let (s1, cmd) := readField .ch0 .command s
  exec (decodeCommand (BitVec.ofNat 16 cmd)) (s1.setX { s1.x with cmd0 := some (BitVec.ofNat 16 cmd) })

/-- H5, counter-channel service (R196). -/
def stepH5 (s : State) : Host.Outcome State Fault Refusal :=
  withLatch .cnt s.x.cnt fun cnt =>
    andThen (if cnt then cntService s else .next (hostTurn s)) fun s1 => .next (s1.setPhase (.handling .h6))

/-- H6, fan-channel service (R197). -/
def stepH6 (s : State) : Host.Outcome State Fault Refusal :=
  withLatch .fan s.x.fan fun fan =>
    .next ((if fan then fanService s else hostTurn s).setPhase (.handling .h7))

/-- The request of H7 (R198): `SET_PWM` if `pwm`, else `SET_CLOCK` if `clk`, else none. -/
def stepH7 (s : State) : Host.Outcome State Fault Refusal :=
  withLatch .pwm s.x.pwm fun pwm =>
    andThen
      (if pwm then withLatch .duty s.x.duty fun duty => exec (.rpcSetPwm (dutyArg duty)) s
       else withLatch .clk s.x.clk fun clk =>
        if clk then withLatch .mhz s.x.mhz fun mhz => exec (.rpcSetClock (hzOf mhz)) s
        else .next (hostTurn s))
      fun s1 => .next (s1.setPhase (.handling .h8))

/-- H8, reset both channels (R199). -/
def stepH8 (s : State) : Host.Outcome State Fault Refusal :=
  .next ((resetBoth s).setPhase (.handling .h9))

/-- H9, end of interrupt (R200). -/
def stepH9 (s : State) : Host.Outcome State Fault Refusal :=
  withLatch .id s.x.id fun id => .next ((gicEoi id s).setPhase (.handling .h10))

/-- H10, return (R201). -/
def stepH10 (s : State) : Host.Outcome State Fault Refusal :=
  .next (returnFromHandler (hostTurn s))

/-- The next step of an invocation (R191). -/
def handlerStep (h : HStep) (s : State) : Host.Outcome State Fault Refusal :=
  match h with
  | .h1 => stepH1 s
  | .h2 => stepH2 s
  | .h3 => stepH3 s
  | .h4 => stepH4 s
  | .h5 => stepH5 s
  | .h6 => stepH6 s
  | .h7 => stepH7 s
  | .h8 => stepH8 s
  | .h9 => stepH9 s
  | .h10 => stepH10 s

/-- IDLE (R190, R226): after the host's turn the controller delivers if it may; otherwise the block waits. -/
def idleStep (s : State) : Host.Outcome State Fault Refusal :=
  let s1 := hostTurn s
  if deliverable s1 then .next (enterHandler s1) else .next s1

/-- S1, initialize the interrupt controller (R241): one opaque step that always completes. -/
def stepS1 (s : State) : Host.Outcome State Fault Refusal :=
  .next ((hostTurn s).setPhase (.uninit .s2))

/-- S2, register and configure the trigger line (R242). -/
def stepS2 (s : State) : Host.Outcome State Fault Refusal :=
  .next (((hostTurn s).setIrq (triggerLineConfig s.params)).setPhase (.uninit .s3))

/-- S3, enable three power domains (R243). -/
def stepS3 (s : State) : Host.Outcome State Fault Refusal :=
  andThen
    (execAll
      [.rpcSetPower s.params.pd1 true s.params.pdWait1,
       .rpcSetPower s.params.pd2 true s.params.pdWait2,
       .rpcSetPower s.params.pd3 true s.params.pdWait3] s)
    fun s1 => .next (s1.setPhase (.uninit .s4))

/-- S4, diagnostics (R244): three calls and one `EV_DIAG` event. -/
def stepS4 (s : State) : Host.Outcome State Fault Refusal :=
  let (s1, a1) := rpcCall .getBoardRev s
  let (s2, a2) := rpcCall (.getClock s.params.clkId) s1
  let (s3, a3) := rpcCall (.getMaxClock s.params.clkId) s2
  .next ((emit (.log (.diag a1.val a2.val a3.val a1.ok a2.ok a3.ok)) s3).setPhase (.uninit .s5))

/-- S5, fan off (R245). -/
def stepS5 (s : State) : Host.Outcome State Fault Refusal :=
  andThen (exec (.rpcSetPwm 0) s) fun s1 => .next (s1.setPhase (.uninit .s6))

/-- S6, prime both channels (R246). -/
def stepS6 (s : State) : Host.Outcome State Fault Refusal :=
  .next ((resetBoth s).setPhase (.uninit .s7))

/-- S7, go idle (R246). -/
def stepS7 (s : State) : Host.Outcome State Fault Refusal :=
  .next ((hostTurn s).setPhase .idle)

/-- The next step of the startup sequence (R240). -/
def startupStep (k : SStep) (s : State) : Host.Outcome State Fault Refusal :=
  match k with
  | .s1 => stepS1 s
  | .s2 => stepS2 s
  | .s3 => stepS3 s
  | .s4 => stepS4 s
  | .s5 => stepS5 s
  | .s6 => stepS6 s
  | .s7 => stepS7 s

/-- One step of a machine whose parameters are admissible. -/
def agentStep (s : State) : Host.Outcome State Fault Refusal :=
  match s.phase with
  | .uninit k => startupStep k s
  | .idle => idleStep s
  | .handling h => handlerStep h s

/-- Put a trigger word where H4 decodes it. -/
def placeTrigger (s : State) (w : Nat) : State :=
  (s.setX { id := some s.params.trigIrqId, v := some (BitVec.ofNat 32 w) }).setPhase (.handling .h4)

/-- Put a command word where H5 reads and decodes it, with a counter request pending. -/
def placeCommand (s : State) (w : Nat) : State :=
  ((s.setX { id := some s.params.trigIrqId, v := some cntMatch,
             cnt := some true, fan := some false, pwm := some false, clk := some false,
             duty := some (dutyOf cntMatch), mhz := some (clampMhz cntMatch) }).setMem
      (writeLE s.mem (fieldAddr s.params .ch0 .command) (fieldBytes .command) w)).setPhase (.handling .h5)

/-- Let the next transition of the block happen with no host action before it. -/
def quietTurn (s : State) : State := s.setEnv { s.env with turns := [] :: s.env.turns }

end Sys2Proof.Machine
end

