-- ==== Sys2Proof/Machine/Step.lean ====
section
/-! DEFINITION. One step of the machine: one sequencer or startup step of the block, one delivery, or one wait in
IDLE, with the host's turns of `State.env` interleaved before every transaction. A parameter set that breaks R7 is
refused (R64, R212). -/

namespace Sys2Proof.Machine

def step (s : State) : Host.Outcome State Fault Refusal :=
  if s.params.wf then agentStep s else .refused .badParams

/-- `s` with a table word where the next step decodes it: a 32-bit trigger word in `x[V]` with step H4 next
(its word has left TRIG at H3, R127), a 16-bit command word in Channel 0's record with step H5 next (R143). -/
def State.withFetchWord (s : State) (nbits w : Nat) : State :=
  if nbits = 32 then quietTurn (placeTrigger s w)
  else if nbits = 16 then quietTurn (placeCommand s w)
  else s

end Sys2Proof.Machine
end

