-- ==== Sys2Proof/Safety.lean ====
section
/-! DEFINITION. The predicates that statements about the machine are written in: what a record looks like when it
is idle, what the latches hold at each step, the invariant of every reachable state, and the classification of the
block's events. -/

namespace Sys2Proof.Machine

/-- A record holds its own idle signature and the idle status (R151). -/
def recordStamped (c : Chan) (s : State) : Prop :=
  fieldValue c .signature s = (sigOf s.params.sigLayout c).toNat ∧ fieldValue c .status s = 1

/-- Both records are stamped. -/
def recordsStamped (s : State) : Prop := recordStamped .ch0 s ∧ recordStamped .ch1 s

/-- The latches of the Pending Request hold what R121 to R125 compute from the trigger word. -/
def requestLatched (g : ClkGate) (x : Latches) : Prop :=
  ∃ v, x.v = some v ∧ x.cnt = some (flagCnt v) ∧ x.fan = some (flagFan v) ∧ x.pwm = some (flagPwm v)
    ∧ x.clk = some (flagClk g v) ∧ x.duty = some (dutyOf v) ∧ x.mhz = some (clampMhz v)

/-- Which latches hold a value before each step (R23): none outside an invocation and at H1, the id from H2 on,
the trigger word from H3 on, the Pending Request from H5 on. -/
def latchesFit (s : State) : Prop :=
  match s.phase with
  | .uninit _ => s.x = {}
  | .idle => s.x = {}
  | .handling h =>
    match h with
    | .h1 => s.x = {}
    | .h2 => s.x = { id := some s.params.trigIrqId }
    | .h3 => ∃ v, s.x = { id := some s.params.trigIrqId, v := some v }
    | .h4 => ∃ v, s.x = { id := some s.params.trigIrqId, v := some v }
    | .h5 => s.x.id = some s.params.trigIrqId ∧ requestLatched s.params.clkGate s.x
    | .h6 => s.x.id = some s.params.trigIrqId ∧ requestLatched s.params.clkGate s.x
    | .h7 => s.x.id = some s.params.trigIrqId ∧ requestLatched s.params.clkGate s.x
    | .h8 => s.x.id = some s.params.trigIrqId ∧ requestLatched s.params.clkGate s.x
    | .h9 => s.x.id = some s.params.trigIrqId ∧ requestLatched s.params.clkGate s.x
    | .h10 => s.x.id = some s.params.trigIrqId ∧ requestLatched s.params.clkGate s.x

/-- TRIG while the host keeps its contract: raised until the block reads it, equal to the latched word until the
write-back, and clear from then to the return (R102, R127, R193, R194). -/
def trigFits (s : State) : Prop :=
  match s.phase with
  | .uninit _ => True
  | .idle => True
  | .handling h =>
    match h with
    | .h1 => s.trig ≠ 0
    | .h2 => s.trig ≠ 0
    | .h3 => s.trig ≠ 0 ∧ s.x.v = some s.trig
    | .h4 => s.trig = 0
    | .h5 => s.trig = 0
    | .h6 => s.trig = 0
    | .h7 => s.trig = 0
    | .h8 => s.trig = 0
    | .h9 => s.trig = 0
    | .h10 => s.trig = 0

/-- The startup steps before the trigger line is configured (R242). -/
def beforeConfiguration : Phase → Bool
  | .uninit .s1 => true
  | .uninit .s2 => true
  | .uninit .s3 => false
  | .uninit .s4 => false
  | .uninit .s5 => false
  | .uninit .s6 => false
  | .uninit .s7 => false
  | .idle => false
  | .handling _ => false

/-- The startup steps before both channels are primed (R246). -/
def beforePriming : Phase → Bool
  | .uninit .s1 => true
  | .uninit .s2 => true
  | .uninit .s3 => true
  | .uninit .s4 => true
  | .uninit .s5 => true
  | .uninit .s6 => true
  | .uninit .s7 => false
  | .idle => false
  | .handling _ => false

/-- The line is active from the acknowledge (H1) to the end of interrupt (H9) (R215). -/
def activeIn : Phase → Bool
  | .uninit _ => false
  | .idle => false
  | .handling .h1 => false
  | .handling .h2 => true
  | .handling .h3 => true
  | .handling .h4 => true
  | .handling .h5 => true
  | .handling .h6 => true
  | .handling .h7 => true
  | .handling .h8 => true
  | .handling .h9 => true
  | .handling .h10 => false

/-- The invariant of the machine. -/
structure Inv (s : State) : Prop where
  /-- The parameter set is admissible (R7). -/
  params : s.params.wf = true
  /-- Memory is in its canonical form. -/
  memory : memoryWf s.mem = true
  /-- The latches a step reads hold a value (R10, R23). -/
  latches : latchesFit s
  /-- The interrupt configuration is R36's from S3 on. -/
  configured : beforeConfiguration s.phase = false → s.irq = triggerLineConfig s.params
  /-- The controller's active state follows the sequencer (R215). -/
  active : s.irqActive = activeIn s.phase
  /-- While the host keeps its contract, both records stay stamped once startup has primed them (R151). -/
  stamped : s.violation = false → beforePriming s.phase = false → recordsStamped s
  /-- While the host keeps its contract, TRIG follows the acknowledge sequence (R102, R127). -/
  trig : s.violation = false → trigFits s

/-- `n` host turns and nothing else: what the host alone would have made of the state. -/
def hostTurns : Nat → State → State
  | 0, s => s
  | n + 1, s => hostTurns n (hostTurn s)

/-- No host action is scheduled before the block's next `n` transactions. -/
def hostSilent (n : Nat) (s : State) : Prop := ∀ b ∈ s.env.turns.take n, b = []

/-- An address inside a channel's record. -/
def inRecord (p : Params) (c : Chan) (a : Nat) : Prop := chanBase p c ≤ a ∧ a < chanBase p c + recordBytes

/-- An address inside a record field. -/
def inField (p : Params) (c : Chan) (f : Field) (a : Nat) : Prop :=
  fieldAddr p c f ≤ a ∧ a < fieldAddr p c f + fieldBytes f

/-- What no transaction of an operation changes: parameters, position, interrupt configuration, active state. -/
structure ControlKept (s t : State) : Prop where
  params : t.params = s.params
  phase : t.phase = s.phase
  irq : t.irq = s.irq
  irqActive : t.irqActive = s.irqActive

/-- What the host's `n` turns alone decide in an operation of `n` transactions that leaves TRIG alone. -/
structure HostDecides (n : Nat) (s t : State) : Prop where
  trig : t.trig = (hostTurns n s).trig
  violation : t.violation = (hostTurns n s).violation
  turns : t.env.turns = s.env.turns.drop n

/-- The next step of an invocation (R191). -/
def nextStep : HStep → Phase
  | .h1 => .handling .h2
  | .h2 => .handling .h3
  | .h3 => .handling .h4
  | .h4 => .handling .h5
  | .h5 => .handling .h6
  | .h6 => .handling .h7
  | .h7 => .handling .h8
  | .h8 => .handling .h9
  | .h9 => .handling .h10
  | .h10 => .idle

/-- The next step of the startup sequence (R240). -/
def nextStartup : SStep → Phase
  | .s1 => .uninit .s2
  | .s2 => .uninit .s3
  | .s3 => .uninit .s4
  | .s4 => .uninit .s5
  | .s5 => .uninit .s6
  | .s6 => .uninit .s7
  | .s7 => .idle

/-- The request of a call event. -/
def eventRpc : Event → Option RpcOp
  | .rpc op _ => some op
  | .memRead _ _ _ => none
  | .memWrite _ _ _ => none
  | .gicAck _ => none
  | .gicEoi _ => none
  | .log _ => none

/-- The requests of a history, in order. -/
def requestsOf (l : List Event) : List RpcOp := l.filterMap eventRpc

/-- A bus access inside `[a, a+n)`. -/
def accessIn (a n : Nat) : Event → Bool
  | .memRead b _ _ => decide (a ≤ b) && decide (b < a + n)
  | .memWrite b _ _ => decide (a ≤ b) && decide (b < a + n)
  | .rpc _ _ => false
  | .gicAck _ => false
  | .gicEoi _ => false
  | .log _ => false

/-- An access to either Channel Record. -/
def recordAccess (p : Params) (e : Event) : Bool := accessIn p.ch0Base 16 e || accessIn p.ch1Base 16 e

/-- An access to TRIG. -/
def trigAccess (p : Params) (e : Event) : Bool := accessIn p.trigAddr 4 e

/-- An access to PERF. -/
def perfAccess (p : Params) (e : Event) : Bool := accessIn p.perfAddr 4 e

def isRpc (e : Event) : Bool := (eventRpc e).isSome

/-- `Stuck` (R212): no agent can step. The block waits in IDLE, the controller has nothing to deliver and the host
has nothing scheduled. It is no stop of the machine: `step` leaves such a state as it is (assumption 10). -/
def stuck (s : State) : Bool := decide (s.phase = .idle) && !deliverable s && decide (s.env.turns = [])

end Sys2Proof.Machine
end

