-- ==== Sys2Proof/Certificates/Slice0/Obligations.lean ====
section
/-! DEFINITION. The statements for the provers, from the numbered rules of spec/. The host's schedule is data of the
state, so a statement about every state is a statement about every interleaving (20_memory.md R70); where a value
could also be overwritten by the host, the statement takes the spec's own premise that the host kept its contract
(`violation = false` at the end, 10_state.md R39) or says that no host action was scheduled (`hostSilent`). -/

open Sys2Proof Sys2Proof.Machine

/-! ### Reset and startup -/

/-- Power-on fixes the control state and leaves every record byte, TRIG, PERF and the interrupt configuration free
(10_state.md, the spec's own decision D37); the model's reset state is one power-on state (assumption 1). -/
def Obligations.PowerOnLeavesHardwareUnspecified : Prop :=
  (∀ p m v q c e,
    (State.powerOn p m v q c e).phase = .uninit .s1 ∧ (State.powerOn p m v q c e).x = {}
      ∧ (State.powerOn p m v q c e).violation = false ∧ (State.powerOn p m v q c e).trace = []
      ∧ (State.powerOn p m v q c e).mem = m ∧ (State.powerOn p m v q c e).trig = v
      ∧ (State.powerOn p m v q c e).irq = q
      ∧ ∀ d rest, e.perf = d :: rest → (readPerf (State.powerOn p m v q c e)).2 = d)
  ∧ ∃ p m v q c e, State.reset = State.powerOn p m v q c e

/-- Seven steps from any power-on state end the startup (10_state.md, 70_reset_and_hazards.md): IDLE, the line
configured, the seven requests sent in order whatever their answers, both records stamped, and `command`, `payload` and
TRIG as they were at power-on. The order of the requests is the spec's own decision D21 and D33, the kept `command` and
payload are its decision D22, and the kept TRIG its decision D36. -/
def Obligations.StartupEndsIdleWithBothChannelsPrimed : Prop :=
  ∀ p m v q c e, p.wf = true → memoryWf m = true →
    ∃ t, Sys2Proof.core.run 7 (State.powerOn p m v q c e) = .next t
      ∧ t.phase = .idle ∧ t.x = {} ∧ t.irq = triggerLineConfig p
      ∧ requestsOf t.trace =
          [.setPower p.pd1 true p.pdWait1, .setPower p.pd2 true p.pdWait2, .setPower p.pd3 true p.pdWait3,
           .getBoardRev, .getClock p.clkId, .getMaxClock p.clkId, .setPwm 0]
      ∧ (t.violation = false →
          recordsStamped t ∧ t.trig = v
            ∧ ∀ ch, ∀ f ∈ [Field.command, Field.payload0, Field.payload1],
                fieldValue ch f t = fieldValue ch f (State.powerOn p m v q c e))

/-- S1 is one opaque step that always completes, the spec's own decision D38, and S2 configures the trigger line and
changes nothing else (70_reset_and_hazards.md). -/
def Obligations.StartupInitializesAndConfiguresController : Prop :=
  (∀ s : State, s.params.wf = true → s.phase = .uninit .s1 → step s = .next ((hostTurn s).setPhase (.uninit .s2)))
  ∧ ∀ s : State, s.params.wf = true → s.phase = .uninit .s2 →
    ∃ t, step s = .next t
      ∧ t.irq.id = s.params.trigIrqId ∧ t.irq.group = .secure ∧ t.irq.trigger = .level
      ∧ t.irq.priority = s.params.prioHighestSecure ∧ t.irq.route = .allCores ∧ t.irq.handler = .bridge
      ∧ t = ((hostTurn s).setIrq t.irq).setPhase (.uninit .s3)

/-- R36: the configuration fields are written once, at S2, with these values, and never changed afterwards. -/
def Obligations.InterruptConfigurationWrittenOnlyAtS2 : Prop :=
  ∀ s t : State, step s = .next t →
    (s.phase ≠ .uninit .s2 → t.irq = s.irq)
      ∧ (s.phase = .uninit .s2 →
          t.irq.id = s.params.trigIrqId ∧ t.irq.group = .secure ∧ t.irq.trigger = .level
            ∧ t.irq.priority = s.params.prioHighestSecure ∧ t.irq.route = .allCores ∧ t.irq.handler = .bridge)

/-- S3 sends the three power requests in order and goes on whatever they answer; memory, TRIG and the contract flag are
what the host's three turns leave, and latches and interrupt state stay (70_reset_and_hazards.md; the order is the
spec's own decision D21). -/
def Obligations.StartupEnablesThreePowerDomains : Prop :=
  ∀ s : State, s.params.wf = true → s.phase = .uninit .s3 →
    ∃ t a1 a2 a3, step s = .next t ∧ t.phase = .uninit .s4
      ∧ t.trace = s.trace ++
          [.rpc (.setPower s.params.pd1 true s.params.pdWait1) a1,
           .rpc (.setPower s.params.pd2 true s.params.pdWait2) a2,
           .rpc (.setPower s.params.pd3 true s.params.pdWait3) a3]
      ∧ t.x = s.x ∧ t.irq = s.irq ∧ t.irqActive = s.irqActive ∧ t.cop.pwm = s.cop.pwm
      ∧ t.mem = (hostTurns 3 s).mem ∧ t.hostReads = (hostTurns 3 s).hostReads ∧ HostDecides 3 s t

/-- S4 makes the three diagnostic queries in order, logs their answers in one event, and writes no other state than
the trace (70_reset_and_hazards.md; the order is the spec's own decision D33, the one event is assumption 9). -/
def Obligations.StartupQueriesDiagnostics : Prop :=
  ∀ s : State, s.params.wf = true → s.phase = .uninit .s4 →
    ∃ t a1 a2 a3, step s = .next t ∧ t.phase = .uninit .s5
      ∧ t.trace = s.trace ++
          [.rpc .getBoardRev a1, .rpc (.getClock s.params.clkId) a2, .rpc (.getMaxClock s.params.clkId) a3,
           .log (.diag a1.val a2.val a3.val a1.ok a2.ok a3.ok)]
      ∧ t.x = s.x ∧ t.irq = s.irq ∧ t.irqActive = s.irqActive ∧ t.cop = s.cop
      ∧ t.mem = (hostTurns 3 s).mem ∧ t.hostReads = (hostTurns 3 s).hostReads ∧ HostDecides 3 s t

/-- R245: S5 issues `SET_PWM(0)` and goes on whatever the call answers. -/
def Obligations.StartupTurnsFanOff : Prop :=
  ∀ s : State, s.params.wf = true → s.phase = .uninit .s5 →
    ∃ t, step s = .next t ∧ t.phase = .uninit .s6
      ∧ t.trace = s.trace ++ [.rpc (.setPwm 0) (rpcAnswer s)]
      ∧ t.x = s.x ∧ t.irq = s.irq ∧ t.irqActive = s.irqActive
      ∧ t.mem = (hostTurn s).mem ∧ t.hostReads = (hostTurn s).hostReads ∧ HostDecides 1 s t

/-! ### The sequencer -/

/-- R191: the steps of an invocation run in the one fixed order, each once; startup steps likewise; and a step whose
condition is false only advances. -/
def Obligations.StepsFollowTheFixedOrder : Prop :=
  (∀ s t : State, step s = .next t →
    (∀ h, s.phase = .handling h → t.phase = nextStep h)
      ∧ (∀ k, s.phase = .uninit k → t.phase = nextStartup k)
      ∧ (s.phase = .idle → t.phase = .idle ∨ t.phase = .handling .h1))
  ∧ (∀ s : State, s.params.wf = true → s.phase = .handling .h5 → s.x.cnt = some false →
      step s = .next ((hostTurn s).setPhase (.handling .h6)))
  ∧ (∀ s : State, s.params.wf = true → s.phase = .handling .h6 → s.x.fan = some false →
      step s = .next ((hostTurn s).setPhase (.handling .h7)))
  ∧ (∀ s : State, s.params.wf = true → s.phase = .handling .h7 → s.x.pwm = some false → s.x.clk = some false →
      step s = .next ((hostTurn s).setPhase (.handling .h8)))

/-- Delivery happens exactly in IDLE with the line asserted and configured, changes phase and step only, and is not
enabled in any other phase; with the line not asserted, or not configured, IDLE waits (43_dispatch_sequencer.md). The
model's choices here: an enabled delivery comes in the very next step (assumption 17, the spec's own decision D34), a
waiting step answers next with what the host's turn leaves (assumption 10), and the line counts as configured when all
six fields hold the values of the configuration (assumption 16). -/
def Obligations.DeliveryEntersHandlerAtH1 : Prop :=
  (∀ s : State, s.params.wf = true → s.phase = .idle →
    ((hostTurn s).trig ≠ 0 ∧ s.irq = triggerLineConfig s.params →
        step s = .next ((hostTurn s).setPhase (.handling .h1)))
      ∧ ((hostTurn s).trig = 0 → step s = .next (hostTurn s))
      ∧ (s.irq ≠ triggerLineConfig s.params → step s = .next (hostTurn s)))
  ∧ ∀ s : State, s.phase ≠ .idle → deliverable s = false

/-- H1 latches the acknowledged id and makes the interrupt active; an id other than `TRIG_IRQ_ID` is refused
(43_dispatch_sequencer.md, the spec's own decision D15). -/
def Obligations.AcknowledgeLatchesTheLineId : Prop :=
  ∀ s : State, s.params.wf = true → s.phase = .handling .h1 →
    (ackId s = s.params.trigIrqId →
      ∃ t, step s = .next t ∧ t.x = { s.x with id := some s.params.trigIrqId } ∧ t.irqActive = true
        ∧ t.phase = .handling .h2 ∧ t.trace = s.trace ++ [.gicAck s.params.trigIrqId]
        ∧ t.mem = (hostTurn s).mem ∧ t.trig = (hostTurn s).trig)
    ∧ (ackId s ≠ s.params.trigIrqId → step s = .refused (.foreignAck (ackId s)))

/-- R193: H2 reads TRIG once, with no side effect; the word is nonzero unless the host broke its contract. -/
def Obligations.TriggerReadLatchesTheWord : Prop :=
  ∀ s : State, s.params.wf = true → s.phase = .handling .h2 →
    ∃ t, step s = .next t ∧ t.x = { s.x with v := some (hostTurn s).trig } ∧ t.phase = .handling .h3
      ∧ t.trace = s.trace ++ [.memRead s.params.trigAddr 4 (hostTurn s).trig.toNat]
      ∧ t.trig = (hostTurn s).trig ∧ t.mem = (hostTurn s).mem
      ∧ (Inv s → t.violation = false → t.trig ≠ 0)

/-- R194: H3 writes the latched word back; W1C clears exactly its bits, so a bit raised meanwhile survives and keeps
the line asserted; CLEAR_ALL clears the register and loses such a bit; a raise in that window breaks the contract. -/
def Obligations.TriggerWriteBackClearsTheWord : Prop :=
  ∀ (s : State) v, s.params.wf = true → s.phase = .handling .h3 → s.x.v = some v →
    ∃ t, step s = .next t ∧ t.phase = .handling .h4
      ∧ t.trace = s.trace ++ [.memWrite s.params.trigAddr 4 v.toNat]
      ∧ (s.params.trigAckMode = .w1c →
          (∀ i, i < 32 → t.trig.getLsbD i = ((hostTurn s).trig.getLsbD i && !v.getLsbD i))
            ∧ ((∃ i, (hostTurn s).trig.getLsbD i = true ∧ v.getLsbD i = false) → lineLevel t = true))
      ∧ (s.params.trigAckMode = .clearAll → t.trig = 0 ∧ lineLevel t = false)
      ∧ (∀ w, violates s.phase (.raise w) = true)
      ∧ t.x = s.x ∧ t.mem = (hostTurn s).mem

/-- H4 fills the Pending Request from `x[V]` alone, under either gate, and does nothing else (43_dispatch_sequencer.md,
40_trigger_decoder.md; the unsigned reading of the clock value is the spec's own decision D11). -/
def Obligations.DecodeFillsThePendingRequest : Prop :=
  ∀ (s : State) v, s.params.wf = true → s.phase = .handling .h4 → s.x.v = some v →
    step s = .next (((hostTurn s).setX { s.x with
        cnt := some (v.getLsbD 28)
        fan := some (v.getLsbD 29)
        pwm := some (v.getLsbD 30)
        clk := some (match s.params.clkGate with
          | .noneOf28_29_30 => !v.getLsbD 30 && !v.getLsbD 29 && !v.getLsbD 28
          | .notBit30 => !v.getLsbD 30)
        duty := some (v.setWidth 8)
        mhz := some (BitVec.ofNat 32 (min (max v.toNat 600) 2200)) }).setPhase (.handling .h5))

/-- A step runs the decoded instruction (43_dispatch_sequencer.md, 41_channel_responder.md). H4 runs `exec` of each class of the trigger word, in order, on
the opened request; on a word of one class that is `exec` of it. H5 reads `command` once, latches it and runs `exec`
of its class. H7 runs `exec` of the request it selects. Each then advances the step. That the classes run on a request
opened with every flag 0 and with duty and mhz latched (`openRequest`) is the model's choice, assumption 14. A table word placed by
`withFetchWord` (the model's own, assumption 11) is the very next instruction. -/
def Obligations.StepRunsTheDecodedInstruction : Prop :=
  (∀ (s : State) v is, s.params.wf = true → s.phase = .handling .h4 → s.x.v = some v →
    decodeTrigger s.params.clkGate v = is →
    step s = andThen (execAll is (openRequest v (hostTurn s))) fun t => .next (t.setPhase (.handling .h5)))
  ∧ (∀ (s : State) v i, s.params.wf = true → s.phase = .handling .h4 → s.x.v = some v →
    decodeTrigger s.params.clkGate v = [i] →
    step s = andThen (exec i (openRequest v (hostTurn s))) fun t => .next (t.setPhase (.handling .h5)))
  ∧ (∀ s : State, s.params.wf = true → s.phase = .handling .h5 → s.x.cnt = some true →
    step s =
      andThen
        (exec (decodeCommand (BitVec.ofNat 16 (fieldValue .ch0 .command (hostTurn s))))
          (emit (.memRead (s.params.ch0Base + 4) 2 (fieldValue .ch0 .command (hostTurn s)))
            ((hostTurn s).setX
              { s.x with cmd0 := some (BitVec.ofNat 16 (fieldValue .ch0 .command (hostTurn s))) })))
        fun t => .next (t.setPhase (.handling .h6)))
  ∧ (∀ (s : State) d, s.params.wf = true → s.phase = .handling .h7 → s.x.pwm = some true → s.x.duty = some d →
    step s = andThen (exec (.rpcSetPwm (d.setWidth 32)) s) fun t => .next (t.setPhase (.handling .h8)))
  ∧ (∀ (s : State) m, s.params.wf = true → s.phase = .handling .h7 → s.x.pwm = some false → s.x.clk = some true →
    s.x.mhz = some m →
    step s = andThen (exec (.rpcSetClock (m * 1000000#32)) s) fun t => .next (t.setPhase (.handling .h8)))
  ∧ (∀ (s : State) w i, s.params.wf = true → decodeTrigger s.params.clkGate (BitVec.ofNat 32 w) = [i] →
    step (s.withFetchWord 32 w)
      = andThen (exec i (openRequest (BitVec.ofNat 32 w) (hostTurn (s.withFetchWord 32 w))))
          fun t => .next (t.setPhase (.handling .h5)))
  ∧ (∀ (s : State) w, s.params.wf = true → memoryWf s.mem = true → w < 65536 →
    ∃ u : State, u.x.cmd0 = some (BitVec.ofNat 16 w) ∧ u.params = s.params ∧ u.env = s.env
      ∧ u.trace = s.trace ++ [.memRead (s.params.ch0Base + 4) 2 w]
      ∧ step (s.withFetchWord 16 w)
          = andThen (exec (decodeCommand (BitVec.ofNat 16 w)) u) fun t => .next (t.setPhase (.handling .h6)))

/-- With `fan` set, H6 reads the five fields of Channel 1, logs them, and resets the channel; it calls no co-processor
operation and writes only signature and status of Channel 1 (41_channel_responder.md; which fields are read and the
order of the writes are the spec's own decisions D28 and D16). -/
def Obligations.FanServiceLogsAndResetsChannelOne : Prop :=
  ∀ s : State, s.params.wf = true → memoryWf s.mem = true → s.phase = .handling .h6 → s.x.fan = some true →
    ∃ t sg cm st p0 p1, step s = .next t ∧ t.phase = .handling .h7
      ∧ t.trace = s.trace ++
          [.memRead s.params.ch1Base 4 sg, .memRead (s.params.ch1Base + 4) 2 cm,
           .memRead (s.params.ch1Base + 6) 2 st, .memRead (s.params.ch1Base + 8) 4 p0,
           .memRead (s.params.ch1Base + 12) 4 p1,
           .log (.fanHandshake (BitVec.ofNat 32 sg) (BitVec.ofNat 16 cm) (BitVec.ofNat 16 st)
             (BitVec.ofNat 32 p0 ++ BitVec.ofNat 32 p1 : BitVec 64)),
           .memWrite s.params.ch1Base 4 (sigOf s.params.sigLayout .ch1).toNat,
           .memWrite (s.params.ch1Base + 6) 2 1]
      ∧ (t.violation = false →
          sg = fieldValue .ch1 .signature s ∧ st = fieldValue .ch1 .status s
            ∧ p0 = fieldValue .ch1 .payload0 s ∧ p1 = fieldValue .ch1 .payload1 s ∧ recordStamped .ch1 t)
      ∧ (hostSilent 7 s → cm = fieldValue .ch1 .command s ∧ recordStamped .ch1 t)
      ∧ (∀ a, ¬ inField s.params .ch1 .signature a → ¬ inField s.params .ch1 .status a →
          readByte t.mem a = readByte (hostTurns 7 s).mem a)
      ∧ t.x = s.x ∧ t.cop = s.cop ∧ HostDecides 7 s t

/-- R198: H7 issues `SET_PWM(zext_32(duty))` if `pwm`, else `SET_CLOCK(mhz * 1_000_000)` if `clk`, else nothing;
the result is ignored. With the request latched from a word under the default gate, it issues no call when bit 30 is
clear and bit 28 or 29 is set. -/
def Obligations.RequestStepIssuesPwmOrClock : Prop :=
  (∀ (s : State) pwm clk d m, s.params.wf = true → s.phase = .handling .h7 →
    s.x.pwm = some pwm → s.x.clk = some clk → s.x.duty = some d → s.x.mhz = some m →
    ∃ t, step s = .next t ∧ t.phase = .handling .h8 ∧ t.x = s.x
      ∧ t.trace = s.trace ++
          (if pwm then [.rpc (.setPwm (d.setWidth 32)) (rpcAnswer s)]
           else if clk then [.rpc (.setClock s.params.clkId (m * 1000000#32)) (rpcAnswer s)]
           else [])
      ∧ t.mem = (hostTurn s).mem ∧ t.trig = (hostTurn s).trig)
  ∧ ∀ (s : State) v, s.params.wf = true → s.phase = .handling .h7 → s.x.v = some v →
    requestLatched .noneOf28_29_30 s.x → v.getLsbD 30 = false → (v.getLsbD 28 = true ∨ v.getLsbD 29 = true) →
    ∃ t, step s = .next t ∧ t.phase = .handling .h8 ∧ t.trace = s.trace

/-- H8 resets Channel 0 and then Channel 1, writing signature and status of each and nothing else, whatever the flags;
an earlier host write to signature or status is overwritten (41_channel_responder.md; the order is the spec's own
decision D16). -/
def Obligations.FinalResetStampsBothChannels : Prop :=
  ∀ s : State, s.params.wf = true → memoryWf s.mem = true → s.phase = .handling .h8 →
    ∃ t, step s = .next t ∧ t.phase = .handling .h9
      ∧ t.trace = s.trace ++
          [.memWrite s.params.ch0Base 4 (sigOf s.params.sigLayout .ch0).toNat, .memWrite (s.params.ch0Base + 6) 2 1,
           .memWrite s.params.ch1Base 4 (sigOf s.params.sigLayout .ch1).toNat, .memWrite (s.params.ch1Base + 6) 2 1]
      ∧ (t.violation = false → recordsStamped t)
      ∧ (hostSilent 4 s → recordsStamped t)
      ∧ (∀ a, (∀ c, ¬ inField s.params c .signature a ∧ ¬ inField s.params c .status a) →
          readByte t.mem a = readByte (hostTurns 4 s).mem a)
      ∧ t.x = s.x ∧ t.cop = s.cop ∧ HostDecides 4 s t

/-- R200: H9 signals end of interrupt for the acknowledged id, and its active state ends; if TRIG is nonzero the
level line is pending again; the one step left after it makes no access, so every record write came before it. -/
def Obligations.EndOfInterruptNamesTheAcknowledgedId : Prop :=
  ∀ s : State, s.params.wf = true → s.phase = .handling .h9 → s.x.id = some s.params.trigIrqId →
    ∃ t, step s = .next t ∧ t.phase = .handling .h10 ∧ t.irqActive = false
      ∧ t.trace = s.trace ++ [.gicEoi s.params.trigIrqId]
      ∧ (t.trig ≠ 0 → linePending t = true)
      ∧ (∃ u, step t = .next u ∧ u.phase = .idle ∧ u.trace = t.trace)
      ∧ t.x = s.x ∧ t.mem = (hostTurn s).mem ∧ t.trig = (hostTurn s).trig

/-- R201: H10 discards every latch and returns to IDLE, and the next delivery may occur at once. -/
def Obligations.ReturnDiscardsEveryLatch : Prop :=
  ∀ s : State, s.params.wf = true → s.phase = .handling .h10 →
    ∃ t, step s = .next t ∧ t.phase = .idle
      ∧ t.x.id = none ∧ t.x.v = none ∧ t.x.cnt = none ∧ t.x.fan = none ∧ t.x.pwm = none ∧ t.x.clk = none
      ∧ t.x.duty = none ∧ t.x.mhz = none ∧ t.x.cmd0 = none ∧ t.x.r = none ∧ t.x.c = none ∧ t.x.d = none
      ∧ t.mem = (hostTurn s).mem ∧ t.trig = (hostTurn s).trig ∧ t.trace = s.trace
      ∧ (t.trig ≠ 0 → lineConfigured t = true → deliverable t = true)

/-! ### Encodings and operands -/

/-- R98: each class is matched on its own by its match and mask; PWM and CLK never both match; a word selects at
most three services, and at least one under the default gate; the classes come in service order. -/
def Obligations.TriggerClassesMatchOnTheirOwn : Prop :=
  ∀ g v,
    (Instr.trigCnt ∈ decodeTrigger g v ↔ v &&& 0x10000000#32 = 0x10000000#32)
    ∧ (Instr.trigFan ∈ decodeTrigger g v ↔ v &&& 0x20000000#32 = 0x20000000#32)
    ∧ (∀ d, Instr.trigPwm d ∈ decodeTrigger g v ↔ v &&& 0x40000000#32 = 0x40000000#32 ∧ d = v.setWidth 8)
    ∧ (∀ f, Instr.trigClk f ∈ decodeTrigger .noneOf28_29_30 v ↔ v &&& 0x70000000#32 = 0#32 ∧ f = v)
    ∧ (∀ f, Instr.trigClk f ∈ decodeTrigger .notBit30 v ↔ v &&& 0x40000000#32 = 0#32 ∧ f = v)
    ∧ (∀ d f, ¬(Instr.trigPwm d ∈ decodeTrigger g v ∧ Instr.trigClk f ∈ decodeTrigger g v))
    ∧ (decodeTrigger g v).length ≤ 3
    ∧ decodeTrigger .noneOf28_29_30 v ≠ []
    ∧ (decodeTrigger g v).Sublist [.trigCnt, .trigFan, .trigPwm (v.setWidth 8), .trigClk v]

/-- The full classification by bits 30:28 under the default gate (40_trigger_decoder.md), and the three rows that
gain a clock request of 2200 MHz under `NOT_BIT30` (with bit 31 set that is the unsigned reading, the spec's own decision
D11). -/
def Obligations.FullClassificationOfTriggerWords : Prop :=
  ∀ v : Word,
    decodeTrigger .noneOf28_29_30 v =
      (match v.getLsbD 30, v.getLsbD 29, v.getLsbD 28 with
       | false, false, false => [.trigClk v]
       | false, false, true => [.trigCnt]
       | false, true, false => [.trigFan]
       | false, true, true => [.trigCnt, .trigFan]
       | true, false, false => [.trigPwm (v.setWidth 8)]
       | true, false, true => [.trigCnt, .trigPwm (v.setWidth 8)]
       | true, true, false => [.trigFan, .trigPwm (v.setWidth 8)]
       | true, true, true => [.trigCnt, .trigFan, .trigPwm (v.setWidth 8)])
    ∧ (v.getLsbD 30 = false →
        Instr.trigClk v ∈ decodeTrigger .notBit30 v
          ∧ (v.getLsbD 29 = true ∨ v.getLsbD 28 = true → clampMhz v = 2200#32))
    ∧ (v.getLsbD 30 = true → decodeTrigger .notBit30 v = decodeTrigger .noneOf28_29_30 v)

/-- R92: the command field is one value with three classes. -/
def Obligations.CommandWordHasThreeClasses : Prop :=
  decodeCommand 0x0000#16 = .cmdRead ∧ decodeCommand 0x0001#16 = .cmdWrite
    ∧ ∀ c, c ≠ 0x0000#16 → c ≠ 0x0001#16 → decodeCommand c = .cmdOther c

/-- Decode and encode agree: every well-formed instruction that has a word decodes from it, with every operand at
every value; exactly the co-processor requests have none (R6). -/
def Obligations.DecodeOfEncodeIsTheInstruction : Prop :=
  ∀ i : Instr, i.wf Params.default = true →
    (∀ n w, encode i = some (n, w) → decodeTableWord n w = some i)
    ∧ (encode i = none ↔
        i = .rpcGetBoardRev ∨ i = .rpcGetClock ∨ i = .rpcGetMaxClock ∨ (∃ hz, i = .rpcSetClock hz)
          ∨ i = .rpcGetPwm ∨ (∃ d, i = .rpcSetPwm d) ∨ ∃ d on w, i = .rpcSetPower d on w)

/-- Decode and encode agree on sets of classes (30_encoding.md §1: a trigger word is a set of flags): the word of any
set of flag classes decodes to exactly that set, in service order. -/
def Obligations.DecodeOfEncodedClassesIsTheSet : Prop :=
  ∀ (cnt fan : Bool) (pwm : Option Byte),
    (cnt = true ∨ fan = true ∨ pwm.isSome = true) →
    ∀ is : List Instr,
      is = (if cnt then [.trigCnt] else []) ++ (if fan then [.trigFan] else [])
            ++ (match pwm with | some d => [.trigPwm d] | none => []) →
      decodeTrigger .noneOf28_29_30 (encodeClasses is) = is

/-- Words written out from the encodings of 30_encoding.md decode to the instructions they stand for, and a list of
bytes that is neither four nor two bytes long is no word: the decoder rejects it and names its length (the rejection by
name is the model's, assumption 13). -/
def Obligations.WrittenOutWordsDecode : Prop :=
  decodeTableWord 32 0x10000000 = some .trigCnt
    ∧ decodeTableWord 32 0x20000000 = some .trigFan
    ∧ decodeTableWord 32 0x40000020 = some (.trigPwm 0x20#8)
    ∧ decodeTableWord 32 0x000002BC = some (.trigClk 700#32)
    ∧ decodeTableWord 16 0x0000 = some .cmdRead
    ∧ decodeTableWord 16 0x0001 = some .cmdWrite
    ∧ decodeTableWord 16 0xBEEF = some (.cmdOther 0xBEEF#16)
    ∧ ∀ g (bs : List Byte), bs.length ≠ 4 → bs.length ≠ 2 → decode g bs = .error (.badLength bs.length)

/-- R95: the duty operand is the low byte, zero-extended, and bits 31:8 do not affect it. -/
def Obligations.DutyIsTheLowByte : Prop :=
  ∀ v : Word, (dutyArg (dutyOf v)).toNat = v.toNat % 256 ∧ (dutyArg (dutyOf v)).toNat ≤ 255
    ∧ ∀ w : Word, v &&& 0xFF#32 = w &&& 0xFF#32 → dutyArg (dutyOf w) = dutyArg (dutyOf v)

/-- The clock operand is the whole word, clamped to [600, 2200] (30_encoding.md; the unsigned reading is the spec's own
decision D11). -/
def Obligations.ClockOperandIsClamped : Prop :=
  ∀ v : Word, (clampMhz v).toNat = min (max v.toNat 600) 2200
    ∧ (v.toNat < 600 → clampMhz v = 600#32) ∧ (2200 < v.toNat → clampMhz v = 2200#32)
    ∧ (v.getLsbD 31 = true → clampMhz v = 2200#32)

/-- R97: the clock request in Hz is computed in u32 without overflow, and lies in
[600_000_000, 2_200_000_000]. -/
def Obligations.ClockRequestInHzDoesNotOverflow : Prop :=
  ∀ v : Word, (hzOf (clampMhz v)).toNat = (clampMhz v).toNat * 1000000
    ∧ 0x23C34600 ≤ (hzOf (clampMhz v)).toNat ∧ (hzOf (clampMhz v)).toNat ≤ 0x83215600

/-- The delivered counter, with every corner case the rule gives (41_channel_responder.md; the low 32 bits of a larger
quotient are the spec's own decision D12). -/
def Obligations.DeliveredCounterArithmetic : Prop :=
  (∀ r c : Word,
    c.toNat / 100000000 ≤ 42 ∧ r.toNat * (c.toNat / 100000000) < 2 ^ 38
    ∧ (delivered r c).toNat = r.toNat * (c.toNat / 100000000) / 15 % 2 ^ 32
    ∧ (c.toNat < 100000000 → delivered r c = 0)
    ∧ (r = 0 → delivered r c = 0)
    ∧ (r.toNat < 15 → c.toNat / 100000000 = 1 → delivered r c = 0)
    ∧ (c.toNat / 100000000 ≤ 15 →
        (delivered r c).toNat ≤ r.toNat ∧ (delivered r c).toNat = r.toNat * (c.toNat / 100000000) / 15))
  ∧ delivered 0xFFFFFFFF#32 0xFFFFFFFF#32 = 0xCCCCCCCA#32
  ∧ delivered 1500000000#32 1500000000#32 = 1500000000#32
  ∧ delivered 10#32 1990000000#32 = 12#32

/-! ### The instructions -/

/-- The trigger classes complete in every state, write the latches their rules name (40_trigger_decoder.md), and
change nothing else. The flag that a class sets is assumption 14; the unsigned clamp is the spec's own decision D11. -/
def Obligations.TriggerClassesWriteOnlyTheirLatches : Prop :=
  ∀ s : State,
    (∃ t, exec .trigCnt s = .next t ∧ t.x.cnt = some true ∧ t = s.setX { s.x with cnt := t.x.cnt })
    ∧ (∃ t, exec .trigFan s = .next t ∧ t.x.fan = some true ∧ t = s.setX { s.x with fan := t.x.fan })
    ∧ (∀ d, ∃ t, exec (.trigPwm d) s = .next t ∧ t.x.pwm = some true ∧ t.x.duty = some d
        ∧ t = s.setX { s.x with pwm := t.x.pwm, duty := t.x.duty })
    ∧ (∀ v, ∃ t m, exec (.trigClk v) s = .next t ∧ t.x.clk = some true ∧ t.x.mhz = some m
        ∧ m.toNat = min (max v.toNat 600) 2200 ∧ t = s.setX { s.x with clk := t.x.clk, mhz := t.x.mhz })

/-- `CMD.READ` completes in every state (41_channel_responder.md; any clock word after a failed call and the order of
the reset's writes are the spec's own decisions D13 and D16); it samples PERF, then the clock (any word if the call failed),
computes the delivered counter from the two, and writes payload, signature, command and status in this order; while
the host keeps its contract both payload words, signature and status hold what was written, and `command` holds
`IDLE_CMD` if the host wrote nothing meanwhile. -/
def Obligations.CounterReadSamplesAndResponds : Prop :=
  ∀ s : State, s.params.wf = true → memoryWf s.mem = true →
    ∃ t c a, exec .cmdRead s = .next t
      ∧ (∀ b rest, s.env.rpc = b :: rest → a = b)
      ∧ (a.ok = true → c = a.val)
      ∧ t.x.r = some (perfValue s) ∧ t.x.c = some c ∧ t.x.d = some (delivered (perfValue s) c)
      ∧ t.trace = s.trace ++
          [.memRead s.params.perfAddr 4 (perfValue s).toNat, .rpc (.getClock s.params.clkId) a,
           .memWrite (s.params.ch0Base + 8) 4 (perfValue s).toNat,
           .memWrite (s.params.ch0Base + 12) 4 (delivered (perfValue s) c).toNat,
           .memWrite s.params.ch0Base 4 (sigOf s.params.sigLayout .ch0).toNat,
           .memWrite (s.params.ch0Base + 4) 2 s.params.idleCmd.toNat,
           .memWrite (s.params.ch0Base + 6) 2 1]
      ∧ (t.violation = false →
          fieldValue .ch0 .payload0 t = (perfValue s).toNat
            ∧ fieldValue .ch0 .payload1 t = (delivered (perfValue s) c).toNat ∧ recordStamped .ch0 t)
      ∧ (hostSilent 7 s → fieldValue .ch0 .command t = s.params.idleCmd.toNat)

/-- The frame of `CMD.READ`: beside what its rules name (41_channel_responder.md) nothing changes but what the
host's own turns change; every byte outside Channel 0's record is what the host alone would have left. -/
def Obligations.CounterReadFrame : Prop :=
  ∀ s t : State, memoryWf s.mem = true → exec .cmdRead s = .next t →
    ControlKept s t ∧ HostDecides 7 s t ∧ t.cop = s.cop
    ∧ t.x = { s.x with r := t.x.r, c := t.x.c, d := t.x.d }
    ∧ t.env.perf = s.env.perf.tail ∧ t.env.rpc = s.env.rpc.tail ∧ t.env.acks = s.env.acks
    ∧ memoryWf t.mem = true
    ∧ ∀ a, ¬ inRecord s.params .ch0 a → readByte t.mem a = readByte (hostTurns 7 s).mem a

/-- `CMD.WRITE` and `CMD.OTHER` complete in every state; they read and log the channel's state with the command, and
reset signature and status; they read no PERF, make no call, and leave `command` and payload alone
(41_channel_responder.md; that the reset leaves `command` alone is the spec's own decision D16). -/
def Obligations.CounterErrorLogsAndResets : Prop :=
  ∀ (s : State) c i, s.params.wf = true → memoryWf s.mem = true →
    (i = .cmdWrite ∧ c = 0x0001#16 ∨ i = .cmdOther c) →
    ∃ t sg st p0 p1, exec i s = .next t
      ∧ t.trace = s.trace ++
          [.memRead s.params.ch0Base 4 sg, .memRead (s.params.ch0Base + 6) 2 st,
           .memRead (s.params.ch0Base + 8) 4 p0, .memRead (s.params.ch0Base + 12) 4 p1,
           .log (.protoCnt c (BitVec.ofNat 32 sg) (BitVec.ofNat 16 st)
             (BitVec.ofNat 32 p0 ++ BitVec.ofNat 32 p1 : BitVec 64)),
           .memWrite s.params.ch0Base 4 (sigOf s.params.sigLayout .ch0).toNat,
           .memWrite (s.params.ch0Base + 6) 2 1]
      ∧ (t.violation = false →
          sg = fieldValue .ch0 .signature s ∧ st = fieldValue .ch0 .status s
            ∧ p0 = fieldValue .ch0 .payload0 s ∧ p1 = fieldValue .ch0 .payload1 s
            ∧ fieldValue .ch0 .payload0 t = p0 ∧ fieldValue .ch0 .payload1 t = p1 ∧ recordStamped .ch0 t)
      ∧ (hostSilent 6 s → fieldValue .ch0 .command t = fieldValue .ch0 .command s)

/-- The frame of `CMD.WRITE` and `CMD.OTHER` (41_channel_responder.md): every byte outside Channel 0's signature and
status is what the host alone would have left; no latch, special state or co-processor state changes. -/
def Obligations.CounterErrorFrame : Prop :=
  ∀ (s t : State) c i, memoryWf s.mem = true → (i = .cmdWrite ∨ i = .cmdOther c) → exec i s = .next t →
    ControlKept s t ∧ HostDecides 6 s t ∧ t.cop = s.cop ∧ t.x = s.x ∧ t.draws = s.draws
    ∧ t.env.perf = s.env.perf ∧ t.env.rpc = s.env.rpc ∧ t.env.acks = s.env.acks
    ∧ memoryWf t.mem = true
    ∧ ∀ a, ¬ inField s.params .ch0 .signature a → ¬ inField s.params .ch0 .status a →
        readByte t.mem a = readByte (hostTurns 6 s).mem a

/-- `GET_CLOCK` (42_rpc_requests.md) completes in every state: one call naming `CLK_ID`. The model's choice of its
latch, assumption 12: during an invocation a successful answer is latched in `x[c]` and a failed one leaves some word
there (any word is the spec's own decision D13); outside one no latch is written. -/
def Obligations.GetClockCallsAndLatches : Prop :=
  ∀ s : State, ∃ t, exec .rpcGetClock s = .next t
    ∧ t.trace = s.trace ++ [.rpc (.getClock s.params.clkId) (rpcAnswer s)]
    ∧ (∀ h, s.phase = .handling h →
        (∃ c, t.x = { s.x with c := some c }) ∧ ((rpcAnswer s).ok = true → t.x.c = some (rpcAnswer s).val))
    ∧ ((∀ h, s.phase ≠ .handling h) → t.x = s.x)

/-- `SET_CLOCK(hz)` (42_rpc_requests.md) completes in every state: one call naming `CLK_ID` and `hz`, its answer ignored, and every
argument the trigger decoder can produce lies in [600_000_000, 2_200_000_000]. -/
def Obligations.SetClockCallsWithHz : Prop :=
  (∀ (s : State) hz, ∃ t, exec (.rpcSetClock hz) s = .next t
    ∧ t.trace = s.trace ++ [.rpc (.setClock s.params.clkId hz) (rpcAnswer s)] ∧ t.cop = s.cop)
  ∧ ∀ v : Word, 600000000 ≤ (hzOf (clampMhz v)).toNat ∧ (hzOf (clampMhz v)).toNat ≤ 2200000000

/-- `SET_PWM(duty)` completes in every state (42_rpc_requests.md): one call; the co-processor's duty changes exactly if
it succeeds (assumption 8). -/
def Obligations.SetPwmCallsWithDuty : Prop :=
  ∀ (s : State) d, ∃ t, exec (.rpcSetPwm d) s = .next t
    ∧ t.trace = s.trace ++ [.rpc (.setPwm d) (rpcAnswer s)]
    ∧ t.cop = { s.cop with pwm := if (rpcAnswer s).ok then d else s.cop.pwm }

/-- `SET_POWER(domain, on, wait)` completes in every state (42_rpc_requests.md): one call; a domain it names changes
exactly if it succeeds (assumption 8). -/
def Obligations.SetPowerCallsWithDomain : Prop :=
  ∀ (s : State) d on w, ∃ t, exec (.rpcSetPower d on w) s = .next t
    ∧ t.trace = s.trace ++ [.rpc (.setPower d on w) (rpcAnswer s)]
    ∧ t.cop.pwm = s.cop.pwm
    ∧ t.cop.pd1On = (if (rpcAnswer s).ok = true ∧ d = s.params.pd1 then on else s.cop.pd1On)
    ∧ t.cop.pd2On = (if (rpcAnswer s).ok = true ∧ d = s.params.pd2 then on else s.cop.pd2On)
    ∧ t.cop.pd3On = (if (rpcAnswer s).ok = true ∧ d = s.params.pd3 then on else s.cop.pd3On)

/-- The diagnostic and PWM queries complete in every state: one call each, and the `EV_DIAG` event of
`GET_BOARD_REV` and `GET_MAX_CLOCK`; no latch and no co-processor state changes (42_rpc_requests.md). -/
def Obligations.QueriesCallAndLog : Prop :=
  ∀ s : State,
    (∃ t, exec .rpcGetBoardRev s = .next t ∧ t.x = s.x ∧ t.cop = s.cop
      ∧ t.trace = s.trace ++ [.rpc .getBoardRev (rpcAnswer s),
          .log (.diagBoardRev (rpcAnswer s).val (rpcAnswer s).ok)])
    ∧ (∃ t, exec .rpcGetMaxClock s = .next t ∧ t.x = s.x ∧ t.cop = s.cop
      ∧ t.trace = s.trace ++ [.rpc (.getMaxClock s.params.clkId) (rpcAnswer s),
          .log (.diagMaxClock (rpcAnswer s).val (rpcAnswer s).ok)])
    ∧ (∃ t, exec .rpcGetPwm s = .next t ∧ t.x = s.x ∧ t.cop = s.cop
      ∧ t.trace = s.trace ++ [.rpc .getPwm (rpcAnswer s)])

/-- The frame of every co-processor request: memory, TRIG, the contract flag and the host's reads are what one host
turn leaves; control state, latches (but `x[c]` for `GET_CLOCK`) and the other inputs are unchanged. -/
def Obligations.RequestFrame : Prop :=
  ∀ (s t : State) i, exec i s = .next t →
    (i = .rpcGetBoardRev ∨ i = .rpcGetClock ∨ i = .rpcGetMaxClock ∨ (∃ hz, i = .rpcSetClock hz)
      ∨ i = .rpcGetPwm ∨ (∃ d, i = .rpcSetPwm d) ∨ ∃ d on w, i = .rpcSetPower d on w) →
    ControlKept s t ∧ HostDecides 1 s t
    ∧ t.mem = (hostTurn s).mem ∧ t.hostReads = (hostTurn s).hostReads
    ∧ t.x = { s.x with c := t.x.c } ∧ (i ≠ .rpcGetClock → t.x = s.x)
    ∧ ((∀ d, i ≠ .rpcSetPwm d) → (∀ d on w, i ≠ .rpcSetPower d on w) → t.cop = s.cop)
    ∧ t.env.perf = s.env.perf ∧ t.env.acks = s.env.acks ∧ t.env.rpc = s.env.rpc.tail

/-! ### Memory -/

/-- R63: little-endian reads and writes; a narrower read sees the low-order bits of a wider field. -/
def Obligations.AccessesAreLittleEndian : Prop :=
  (∀ m a n, readLE m a n = ∑ i ∈ Finset.range n, (readByte m (a + i)).toNat * 2 ^ (8 * i))
  ∧ (∀ m a n v i, memoryWf m = true → i < n → (readByte (writeLE m a n v) (a + i)).toNat = v / 2 ^ (8 * i) % 256)
  ∧ (∀ m a n k, k ≤ n → readLE m a k = readLE m a n % 2 ^ (8 * k))

/-- A TRIG write-back is idempotent in both modes, and a record or TRIG read has no side effect on what it reads
(20_memory.md). -/
def Obligations.TriggerWriteBackIsIdempotent : Prop :=
  (∀ mode t v, ackedTrig mode (ackedTrig mode t v) v = ackedTrig mode t v)
  ∧ (∀ s : State, (readTrig s).1.trig = (hostTurn s).trig ∧ (readTrig s).1.mem = (hostTurn s).mem)
  ∧ ∀ (s : State) c f, (readField c f s).1.mem = (hostTurn s).mem ∧ (readField c f s).1.trig = (hostTurn s).trig

/-- A PERF read returns the environment's next draw, whatever it is, and successive reads need not agree; a host
write to PERF has no effect (10_state.md). -/
def Obligations.PerfReadIsADraw : Prop :=
  (∀ (s : State) d rest, s.env.perf = d :: rest → (readPerf s).2 = d ∧ (readPerf s).1.env.perf = rest)
  ∧ (∀ d1 d2 : Word, ∃ s : State, (readPerf s).2 = d1 ∧ (readPerf (readPerf s).1).2 = d2)
  ∧ ∀ (s : State) v, hostAct (.writePerf v) s = s.setViolation (s.violation || violates s.phase (.writePerf v))

/-! ### The host -/

/-- A host raise ORs into TRIG or replaces it, and changes nothing else; during HANDLING it is a contract violation
(20_memory.md, the spec's own decision D9). -/
def Obligations.HostRaiseSetsTrigger : Prop :=
  ∀ (s : State) v, ∃ t, hostAct (.raise v) s = t
    ∧ (s.params.trigRaiseMode = .or → t.trig = s.trig ||| v)
    ∧ (s.params.trigRaiseMode = .replace → t.trig = v)
    ∧ ((∃ h, s.phase = .handling h) → t.violation = true)
    ∧ (s.phase = .idle → t.violation = s.violation)
    ∧ t = (s.setTrig t.trig).setViolation t.violation

/-- The contract violations of 60_exceptions.md, and only these, set the flag: a raise during HANDLING, a write to a
byte that is not `command`, any action during UNINIT (assumption 21); a violating write still takes effect (the spec's
own decision D19). -/
def Obligations.HostBreachSetsTheFlag : Prop :=
  (∀ (s : State) a, (hostAct a s).violation = (s.violation || violates s.phase a))
  ∧ (∀ k a, violates (.uninit k) a = true)
  ∧ (∀ h v, violates (.handling h) (.raise v) = true) ∧ (∀ v, violates .idle (.raise v) = false)
  ∧ (∀ ph ch sl v, (∀ k, ph ≠ .uninit k) →
      (violates ph (.writeRec ch sl v) = true ↔
        ∃ i, i < slotBytes sl ∧ ¬(4 ≤ slotOffset sl + i ∧ slotOffset sl + i < 6)))
  ∧ (∀ ph ch sl v, (∀ k, ph ≠ .uninit k) →
      violates ph (.readRec ch sl) = false ∧ violates ph .readTrig = false ∧ violates ph (.writePerf v) = false)
  ∧ ∀ (s : State) ch sl v i, memoryWf s.mem = true → i < slotBytes sl →
      readByte (hostAct (.writeRec ch sl v) s).mem (chanBase s.params ch + slotOffset sl + i)
        = leByte v.toNat i

/-- The block detects no breach (60_exceptions.md): the flag's value changes nothing about a step but the flag. -/
def Obligations.BlockDoesNotDetectBreach : Prop :=
  ∀ s b,
    (∀ t, step s = .next t → ∃ v, step (s.setViolation b) = .next (t.setViolation v))
    ∧ (∀ r, step s = .fault r → step (s.setViolation b) = .fault r)
    ∧ (∀ r, step s = .refused r → step (s.setViolation b) = .refused r)

/-- `violation` is false at power-on, a breach sets it, and nothing clears it (10_state.md, the spec's own decision
D19). -/
def Obligations.ViolationIsSticky : Prop :=
  (∀ p m v q c e, (State.powerOn p m v q c e).violation = false)
  ∧ (∀ (s : State) a, violates s.phase a = true → (hostAct a s).violation = true)
  ∧ ∀ s t : State, step s = .next t → s.violation = true → t.violation = true

/-- No other agent can touch the block's own state: a host turn keeps phase, step, latches, interrupt configuration,
active state, parameters, co-processor state and the block's history, and writes no byte outside the two records
(10_state.md). -/
def Obligations.HostCannotTouchTheBlock : Prop :=
  ∀ s : State,
    (hostTurn s).phase = s.phase ∧ (hostTurn s).x = s.x ∧ (hostTurn s).irq = s.irq
    ∧ (hostTurn s).irqActive = s.irqActive ∧ (hostTurn s).params = s.params ∧ (hostTurn s).cop = s.cop
    ∧ (hostTurn s).trace = s.trace
    ∧ ∀ a, ¬ inRecord s.params .ch0 a → ¬ inRecord s.params .ch1 a →
        readByte (hostTurn s).mem a = readByte s.mem a

/-- A host read of a record returns what memory holds at that moment, so a host that reads `status` and then the payload
sees the payload as it stands, and a host read of TRIG returns TRIG (20_memory.md); neither changes any state but the
host's own record of reads and the contract flag. -/
def Obligations.HostReadsSeeCurrentMemory : Prop :=
  (∀ (s : State) ch sl, ∃ t, hostAct (.readRec ch sl) s = t
    ∧ t.hostReads = s.hostReads ++
        [⟨chanBase s.params ch + slotOffset sl, slotBytes sl,
          readLE s.mem (chanBase s.params ch + slotOffset sl) (slotBytes sl)⟩]
    ∧ t = (s.setHostReads t.hostReads).setViolation t.violation)
  ∧ ∀ s : State, ∃ t, hostAct .readTrig s = t
    ∧ t.hostReads = s.hostReads ++ [⟨s.params.trigAddr, 4, s.trig.toNat⟩]
    ∧ t = (s.setHostReads t.hostReads).setViolation t.violation

/-! ### The whole machine -/

/-- The reset state meets the invariant; its values are the model's choice (assumptions 1, 2 and 15). -/
def Obligations.ResetMeetsTheInvariant : Prop := Inv State.reset

/-- Every step keeps the invariant: admissible parameters, canonical memory, the latches of each step, the interrupt
configuration, the active state, and, while the host keeps its contract, both records stamped and TRIG following the
acknowledge sequence. -/
def Obligations.EveryStepKeepsTheInvariant : Prop :=
  ∀ s t : State, Inv s → step s = .next t → Inv t

/-- The block raises no fault (60_exceptions.md): from every state that meets the invariant a step goes on, unless
the controller acknowledges with a foreign id, which the model refuses. -/
def Obligations.InvariantStatesNeverFault : Prop :=
  ∀ s : State, Inv s →
    (∃ t, step s = .next t) ∨ (s.phase = .handling .h1 ∧ ackId s ≠ s.params.trigIrqId
      ∧ step s = .refused (.foreignAck (ackId s)))

/-- Every invocation returns after delivery and ten steps, with 1 acknowledge, 2 TRIG accesses, at most 18 record
accesses, 1 PERF read and 2 co-processor calls, and 1 end of interrupt, whatever the values read or returned
(43_dispatch_sequencer.md); the calls are at most one `GET_CLOCK`, then at most one of `SET_PWM` and `SET_CLOCK`
(42_rpc_requests.md). Both are what the spec derives from its other rules; that every call returns is its own decision
D14. -/
def Obligations.EveryInvocationTerminatesWithinItsBounds : Prop :=
  ∀ s : State, Inv s → s.phase = .idle → deliverable (hostTurn s) = true →
    (∀ i ∈ s.env.acks.head?, i = s.params.trigIrqId) →
    ∃ t evs, Sys2Proof.core.run 11 s = .next t ∧ t.phase = .idle ∧ t.x = {} ∧ t.irqActive = false
      ∧ t.trace = s.trace ++ evs
      ∧ evs.countP (recordAccess s.params) ≤ 18
      ∧ evs.countP (trigAccess s.params) = 2
      ∧ evs.countP (perfAccess s.params) ≤ 1
      ∧ evs.countP isRpc ≤ 2
      ∧ evs.count (.gicAck s.params.trigIrqId) = 1
      ∧ evs.count (.gicEoi s.params.trigIrqId) = 1
      ∧ evs.head? = some (.gicAck s.params.trigIrqId)
      ∧ evs.getLast? = some (.gicEoi s.params.trigIrqId)
      ∧ ∃ l1 l2, requestsOf evs = l1 ++ l2 ∧ (l1 = [] ∨ l1 = [.getClock s.params.clkId])
          ∧ (l2 = [] ∨ (∃ d, l2 = [.setPwm d]) ∨ ∃ hz, l2 = [.setClock s.params.clkId hz])

/-- Payload is written by the counter read alone (41_channel_responder.md): while the host keeps its contract no step
changes Channel 1's payload, and only H5 with `cnt` set and a `command` of 0 may change Channel 0's. -/
def Obligations.PayloadWrittenOnlyByCounterRead : Prop :=
  ∀ s t : State, memoryWf s.mem = true → step s = .next t → t.violation = false →
    (∀ f ∈ [Field.payload0, Field.payload1], fieldValue .ch1 f t = fieldValue .ch1 f s)
    ∧ (¬(s.phase = .handling .h5 ∧ s.x.cnt = some true ∧ fieldValue .ch0 .command (hostTurn s) = 0) →
        ∀ f ∈ [Field.payload0, Field.payload1], fieldValue .ch0 f t = fieldValue .ch0 f s)

/-- A step touches no byte of memory outside the two Channel Records (20_memory.md). -/
def Obligations.StepTouchesOnlyTheRecords : Prop :=
  ∀ (s t : State) a, step s = .next t → ¬ inRecord s.params .ch0 a → ¬ inRecord s.params .ch1 a →
    readByte t.mem a = readByte s.mem a

/-- TRIG changes only by the host's turns and by the write-back at H3 (20_memory.md): with no host action scheduled,
every other step leaves it alone. -/
def Obligations.OnlyWriteBackClearsTheTrigger : Prop :=
  ∀ s t : State, step s = .next t → (∀ b ∈ s.env.turns, b = []) → s.phase ≠ .handling .h3 → t.trig = s.trig

/-- R24: no latch survives an invocation, and startup writes none; IDLE writes none either. -/
def Obligations.LatchesDoNotOutliveAnInvocation : Prop :=
  ∀ s t : State, step s = .next t →
    (s.phase = .handling .h10 → t.x = {})
    ∧ ((∃ k, s.phase = .uninit k) → t.x = s.x)
    ∧ (s.phase = .idle → t.x = s.x)

/-- The history only grows, and the parameters are fixed for the machine (10_state.md, 00_scope.md). -/
def Obligations.HistoryGrowsAndParametersStay : Prop :=
  ∀ s t : State, step s = .next t → t.params = s.params ∧ ∃ evs, t.trace = s.trace ++ evs

/-- A parameter set that breaks a constraint is refused: a model does not run with it (20_memory.md); each
constraint of 00_scope.md is one (alignment and disjointness are the spec's own decisions D3 and D2), and so is that
every region lies inside the address space (assumption 3). -/
def Obligations.InadmissibleParametersAreRefused : Prop :=
  (∀ s : State, s.params.wf = false → step s = .refused .badParams)
  ∧ ∀ p : Params, p.wf = true →
      (∀ a ∈ [p.ch0Base, p.ch1Base, p.trigAddr, p.perfAddr], a % 4 = 0)
      ∧ (∀ a, ¬(inRecord p .ch0 a ∧ inRecord p .ch1 a))
      ∧ (∀ a c, inRecord p c a → ¬(p.trigAddr ≤ a ∧ a < p.trigAddr + 4) ∧ ¬(p.perfAddr ≤ a ∧ a < p.perfAddr + 4))
      ∧ (∀ a, ¬((p.trigAddr ≤ a ∧ a < p.trigAddr + 4) ∧ p.perfAddr ≤ a ∧ a < p.perfAddr + 4))
      ∧ 32 ≤ p.addrWidth
      ∧ p.ch0Base + 16 ≤ 2 ^ p.addrWidth ∧ p.ch1Base + 16 ≤ 2 ^ p.addrWidth
      ∧ p.trigAddr + 4 ≤ 2 ^ p.addrWidth ∧ p.perfAddr + 4 ≤ 2 ^ p.addrWidth

/-- A waiting machine keeps its state: a step leaves an admissible state exactly as it is if and only if no agent can
step, the `Stuck` of 60_exceptions.md (the model's choice, assumption 10). -/
def Obligations.OnlyAStuckStateStandsStill : Prop :=
  ∀ s : State, s.params.wf = true → (step s = .next s ↔ stuck s = true)
end

