-- ==== Sys2Proof/Laws/Memory.lean ====
section
/-! SUPPORT. The laws of byte memory: a read after a write, and that every memory operation keeps the canonical
form. -/

namespace Sys2Proof.Machine

/-- A write to one address leaves every other address alone. -/
@[simp] theorem readByte_writeByte_other (m : List Host.Cell) {a a' : Nat} (b : Byte) (h : a' ≠ a) :
    readByte (writeByte m a b) a' = readByte m a' := by
  induction m with
  | nil => by_cases hb : b = unlistedByte <;> simp [writeByte, readByte, hb, Ne.symm h]
  | cons e t ih =>
    obtain ⟨k, c⟩ := e
    simp only [writeByte]
    split
    · by_cases hk : k = a' <;> simp [readByte, hk, ih]
    · split
      · next hk => subst hk; split <;> simp [readByte, Ne.symm h]
      · split <;> simp [readByte, Ne.symm h]

/-- The tail of a canonical memory is canonical. -/
theorem memoryWf_tail {e : Host.Cell} {t : List Host.Cell} (h : memoryWf (e :: t) = true) : memoryWf t = true := by
  cases t with
  | nil => rfl
  | cons d t => simp only [memoryWf, Bool.and_eq_true] at h; exact h.2

/-- In a canonical memory nothing after the first entry is listed at or below its address. -/
theorem readByte_below {k : Nat} {c : Byte} {t : List Host.Cell} (h : memoryWf ((k, c) :: t) = true) {a : Nat}
    (ha : a ≤ k) : readByte t a = unlistedByte := by
  induction t generalizing k c with
  | nil => rfl
  | cons e t ih =>
    obtain ⟨l, d⟩ := e
    have hlt : k < l := by simp only [memoryWf, Bool.and_eq_true, decide_eq_true_eq] at h; exact h.1.2
    have hne : l ≠ a := by omega
    simp only [readByte, if_neg hne]
    exact ih (memoryWf_tail h) (by omega)

/-- A read returns the byte last written to the same address. -/
theorem readByte_writeByte_same {m : List Host.Cell} (h : memoryWf m = true) (a : Nat) (b : Byte) :
    readByte (writeByte m a b) a = b := by
  induction m with
  | nil => by_cases hb : b = unlistedByte <;> simp [writeByte, readByte, hb]
  | cons e t ih =>
    obtain ⟨k, c⟩ := e
    simp only [writeByte]
    split
    · next hk =>
      have : k ≠ a := by omega
      simp [readByte, this, ih (memoryWf_tail h)]
    · split
      · next hk =>
        subst hk
        split
        · next hb => rw [readByte_below h le_rfl, hb]
        · simp [readByte]
      · next h1 h2 =>
        split
        · next hb =>
          simp only [readByte, if_neg h2]
          rw [readByte_below h (by omega), hb]
        · simp [readByte]

/-- The first key of a canonical memory, as a bound. -/
def keysAbove (l : Nat) : List Host.Cell → Prop
  | [] => True
  | (k, _) :: _ => l < k

theorem memoryWf_cons {k : Nat} {c : Byte} {t : List Host.Cell} :
    memoryWf ((k, c) :: t) = true ↔ c ≠ unlistedByte ∧ keysAbove k t ∧ memoryWf t = true := by
  cases t with
  | nil => simp [memoryWf, keysAbove]
  | cons e t => obtain ⟨l, d⟩ := e; simp [memoryWf, keysAbove, and_assoc]

theorem keysAbove_writeByte {l : Nat} {m : List Host.Cell} (hm : memoryWf m = true) (h : keysAbove l m) {a : Nat}
    (ha : l < a) (b : Byte) : keysAbove l (writeByte m a b) := by
  cases m with
  | nil => simp only [writeByte]; split <;> simp [keysAbove, ha]
  | cons e t =>
    obtain ⟨k, c⟩ := e
    simp only [keysAbove] at h
    simp only [writeByte]
    split
    · simpa [keysAbove] using h
    · split
      · next hk =>
        subst hk
        split
        · have := (memoryWf_cons.1 hm).2.1
          cases t with
          | nil => trivial
          | cons e t => obtain ⟨j, d⟩ := e; simp only [keysAbove] at this ⊢; omega
        · simpa [keysAbove] using h
      · split <;> simp [keysAbove, h, ha]

/-- A byte write keeps the canonical form. -/
theorem memoryWf_writeByte {m : List Host.Cell} (h : memoryWf m = true) (a : Nat) (b : Byte) :
    memoryWf (writeByte m a b) = true := by
  induction m with
  | nil => by_cases hb : b = unlistedByte <;> simp [writeByte, memoryWf, hb]
  | cons e t ih =>
    obtain ⟨k, c⟩ := e
    obtain ⟨hc, hk, ht⟩ := memoryWf_cons.1 h
    simp only [writeByte]
    split
    · next hka => exact memoryWf_cons.2 ⟨hc, keysAbove_writeByte ht hk hka b, ih ht⟩
    · split
      · next hka =>
        subst hka
        split
        · exact ht
        · next hb => exact memoryWf_cons.2 ⟨hb, hk, ht⟩
      · next h1 h2 =>
        split
        · exact h
        · next hb => exact memoryWf_cons.2 ⟨hb, by simp only [keysAbove]; omega, h⟩

/-- A little-endian write keeps the canonical form. -/
theorem memoryWf_writeLE {m : List Host.Cell} (h : memoryWf m = true) (a n v : Nat) :
    memoryWf (writeLE m a n v) = true := by
  induction n with
  | zero => exact h
  | succ n ih => exact memoryWf_writeByte ih _ _

/-- A little-endian write leaves every byte outside its own alone. -/
theorem readByte_writeLE_outside (m : List Host.Cell) {a n a' : Nat} (v : Nat) (h : a' < a ∨ a + n ≤ a') :
    readByte (writeLE m a n v) a' = readByte m a' := by
  induction n with
  | zero => rfl
  | succ n ih =>
    rw [writeLE, readByte_writeByte_other _ _ (by omega)]
    exact ih (by omega)

/-- A little-endian write puts byte `i` of the value at offset `i`. -/
theorem readByte_writeLE_inside {m : List Host.Cell} (hm : memoryWf m = true) {a n i : Nat} (v : Nat) (h : i < n) :
    readByte (writeLE m a n v) (a + i) = leByte v i := by
  induction n with
  | zero => omega
  | succ n ih =>
    rw [writeLE]
    by_cases hi : i = n
    · subst hi; exact readByte_writeByte_same (memoryWf_writeLE hm a i v) _ _
    · rw [readByte_writeByte_other _ _ (by omega)]
      exact ih (by omega)

/-- A read depends only on the bytes it covers. -/
theorem readLE_congr {m m' : List Host.Cell} {a n : Nat}
    (h : ∀ i, i < n → readByte m (a + i) = readByte m' (a + i)) : readLE m a n = readLE m' a n := by
  induction n with
  | zero => rfl
  | succ n ih =>
    rw [readLE, readLE, ih fun i hi => h i (by omega), h n (by omega)]

/-- A read disjoint from a write sees what was there before. -/
theorem readLE_writeLE_disjoint (m : List Host.Cell) {a n b k : Nat} (v : Nat) (h : b + k ≤ a ∨ a + n ≤ b) :
    readLE (writeLE m a n v) b k = readLE m b k :=
  readLE_congr fun i hi => readByte_writeLE_outside m v (by omega)

/-- A read of what was just written, at the same address and width, gives the value at that width. -/
theorem readLE_writeLE_same {m : List Host.Cell} (hm : memoryWf m = true) (a n v : Nat) :
    readLE (writeLE m a n v) a n = v % 256 ^ n := by
  have key : ∀ k, k ≤ n → readLE (writeLE m a n v) a k = v % 256 ^ k := by
    intro k
    induction k with
    | zero => intro _; simp [readLE, Nat.mod_one]
    | succ k ih =>
      intro hk
      rw [readLE, ih (by omega), readByte_writeLE_inside hm v (by omega), leByte, BitVec.toNat_ofNat, pow_succ 256 k]
      have h8 : (2 : Nat) ^ 8 = 256 := rfl
      have := Nat.mod_mul (a := 256 ^ k) (b := 256) (x := v)
      rw [h8, this, Nat.mul_comm]
  exact key n le_rfl

/-- A read fits its width. -/
theorem readLE_lt (m : List Host.Cell) (a n : Nat) : readLE m a n < 256 ^ n := by
  induction n with
  | zero => simp [readLE]
  | succ n ih =>
    have hb : (readByte m (a + n)).toNat < 256 := (readByte m (a + n)).isLt
    calc readLE m a (n + 1) = readLE m a n + (readByte m (a + n)).toNat * 256 ^ n := rfl
      _ < 256 ^ n + (readByte m (a + n)).toNat * 256 ^ n := Nat.add_lt_add_right ih _
      _ = ((readByte m (a + n)).toNat + 1) * 256 ^ n := by ring
      _ ≤ 256 * 256 ^ n := Nat.mul_le_mul_right _ hb
      _ = 256 ^ (n + 1) := by ring

/-- The reset memory is canonical. -/
theorem reset_memory_wf : memoryWf State.reset.mem = true := rfl

end Sys2Proof.Machine
end

