-- ==== Sys2Proof/Laws/State.lean ====
section
/-! SUPPORT. One lemma per field per update of `State`, true by `rfl`, so that no later proof unfolds a record
update. -/

namespace Sys2Proof.Machine

section
variable (s : State) (p : Params)
@[simp] theorem State.setParams_params : (s.setParams p).params = p := rfl
@[simp] theorem State.setParams_phase : (s.setParams p).phase = s.phase := rfl
@[simp] theorem State.setParams_x : (s.setParams p).x = s.x := rfl
@[simp] theorem State.setParams_mem : (s.setParams p).mem = s.mem := rfl
@[simp] theorem State.setParams_trig : (s.setParams p).trig = s.trig := rfl
@[simp] theorem State.setParams_irq : (s.setParams p).irq = s.irq := rfl
@[simp] theorem State.setParams_irqActive : (s.setParams p).irqActive = s.irqActive := rfl
@[simp] theorem State.setParams_cop : (s.setParams p).cop = s.cop := rfl
@[simp] theorem State.setParams_violation : (s.setParams p).violation = s.violation := rfl
@[simp] theorem State.setParams_trace : (s.setParams p).trace = s.trace := rfl
@[simp] theorem State.setParams_hostReads : (s.setParams p).hostReads = s.hostReads := rfl
@[simp] theorem State.setParams_env : (s.setParams p).env = s.env := rfl
@[simp] theorem State.setParams_draws : (s.setParams p).draws = s.draws := rfl
end

section
variable (s : State) (p : Phase)
@[simp] theorem State.setPhase_params : (s.setPhase p).params = s.params := rfl
@[simp] theorem State.setPhase_phase : (s.setPhase p).phase = p := rfl
@[simp] theorem State.setPhase_x : (s.setPhase p).x = s.x := rfl
@[simp] theorem State.setPhase_mem : (s.setPhase p).mem = s.mem := rfl
@[simp] theorem State.setPhase_trig : (s.setPhase p).trig = s.trig := rfl
@[simp] theorem State.setPhase_irq : (s.setPhase p).irq = s.irq := rfl
@[simp] theorem State.setPhase_irqActive : (s.setPhase p).irqActive = s.irqActive := rfl
@[simp] theorem State.setPhase_cop : (s.setPhase p).cop = s.cop := rfl
@[simp] theorem State.setPhase_violation : (s.setPhase p).violation = s.violation := rfl
@[simp] theorem State.setPhase_trace : (s.setPhase p).trace = s.trace := rfl
@[simp] theorem State.setPhase_hostReads : (s.setPhase p).hostReads = s.hostReads := rfl
@[simp] theorem State.setPhase_env : (s.setPhase p).env = s.env := rfl
@[simp] theorem State.setPhase_draws : (s.setPhase p).draws = s.draws := rfl
end

section
variable (s : State) (x : Latches)
@[simp] theorem State.setX_params : (s.setX x).params = s.params := rfl
@[simp] theorem State.setX_phase : (s.setX x).phase = s.phase := rfl
@[simp] theorem State.setX_x : (s.setX x).x = x := rfl
@[simp] theorem State.setX_mem : (s.setX x).mem = s.mem := rfl
@[simp] theorem State.setX_trig : (s.setX x).trig = s.trig := rfl
@[simp] theorem State.setX_irq : (s.setX x).irq = s.irq := rfl
@[simp] theorem State.setX_irqActive : (s.setX x).irqActive = s.irqActive := rfl
@[simp] theorem State.setX_cop : (s.setX x).cop = s.cop := rfl
@[simp] theorem State.setX_violation : (s.setX x).violation = s.violation := rfl
@[simp] theorem State.setX_trace : (s.setX x).trace = s.trace := rfl
@[simp] theorem State.setX_hostReads : (s.setX x).hostReads = s.hostReads := rfl
@[simp] theorem State.setX_env : (s.setX x).env = s.env := rfl
@[simp] theorem State.setX_draws : (s.setX x).draws = s.draws := rfl
end

section
variable (s : State) (m : List Host.Cell)
@[simp] theorem State.setMem_params : (s.setMem m).params = s.params := rfl
@[simp] theorem State.setMem_phase : (s.setMem m).phase = s.phase := rfl
@[simp] theorem State.setMem_x : (s.setMem m).x = s.x := rfl
@[simp] theorem State.setMem_mem : (s.setMem m).mem = m := rfl
@[simp] theorem State.setMem_trig : (s.setMem m).trig = s.trig := rfl
@[simp] theorem State.setMem_irq : (s.setMem m).irq = s.irq := rfl
@[simp] theorem State.setMem_irqActive : (s.setMem m).irqActive = s.irqActive := rfl
@[simp] theorem State.setMem_cop : (s.setMem m).cop = s.cop := rfl
@[simp] theorem State.setMem_violation : (s.setMem m).violation = s.violation := rfl
@[simp] theorem State.setMem_trace : (s.setMem m).trace = s.trace := rfl
@[simp] theorem State.setMem_hostReads : (s.setMem m).hostReads = s.hostReads := rfl
@[simp] theorem State.setMem_env : (s.setMem m).env = s.env := rfl
@[simp] theorem State.setMem_draws : (s.setMem m).draws = s.draws := rfl
end

section
variable (s : State) (v : Word)
@[simp] theorem State.setTrig_params : (s.setTrig v).params = s.params := rfl
@[simp] theorem State.setTrig_phase : (s.setTrig v).phase = s.phase := rfl
@[simp] theorem State.setTrig_x : (s.setTrig v).x = s.x := rfl
@[simp] theorem State.setTrig_mem : (s.setTrig v).mem = s.mem := rfl
@[simp] theorem State.setTrig_trig : (s.setTrig v).trig = v := rfl
@[simp] theorem State.setTrig_irq : (s.setTrig v).irq = s.irq := rfl
@[simp] theorem State.setTrig_irqActive : (s.setTrig v).irqActive = s.irqActive := rfl
@[simp] theorem State.setTrig_cop : (s.setTrig v).cop = s.cop := rfl
@[simp] theorem State.setTrig_violation : (s.setTrig v).violation = s.violation := rfl
@[simp] theorem State.setTrig_trace : (s.setTrig v).trace = s.trace := rfl
@[simp] theorem State.setTrig_hostReads : (s.setTrig v).hostReads = s.hostReads := rfl
@[simp] theorem State.setTrig_env : (s.setTrig v).env = s.env := rfl
@[simp] theorem State.setTrig_draws : (s.setTrig v).draws = s.draws := rfl
end

section
variable (s : State) (q : IrqConfig)
@[simp] theorem State.setIrq_params : (s.setIrq q).params = s.params := rfl
@[simp] theorem State.setIrq_phase : (s.setIrq q).phase = s.phase := rfl
@[simp] theorem State.setIrq_x : (s.setIrq q).x = s.x := rfl
@[simp] theorem State.setIrq_mem : (s.setIrq q).mem = s.mem := rfl
@[simp] theorem State.setIrq_trig : (s.setIrq q).trig = s.trig := rfl
@[simp] theorem State.setIrq_irq : (s.setIrq q).irq = q := rfl
@[simp] theorem State.setIrq_irqActive : (s.setIrq q).irqActive = s.irqActive := rfl
@[simp] theorem State.setIrq_cop : (s.setIrq q).cop = s.cop := rfl
@[simp] theorem State.setIrq_violation : (s.setIrq q).violation = s.violation := rfl
@[simp] theorem State.setIrq_trace : (s.setIrq q).trace = s.trace := rfl
@[simp] theorem State.setIrq_hostReads : (s.setIrq q).hostReads = s.hostReads := rfl
@[simp] theorem State.setIrq_env : (s.setIrq q).env = s.env := rfl
@[simp] theorem State.setIrq_draws : (s.setIrq q).draws = s.draws := rfl
end

section
variable (s : State) (b : Bool)
@[simp] theorem State.setIrqActive_params : (s.setIrqActive b).params = s.params := rfl
@[simp] theorem State.setIrqActive_phase : (s.setIrqActive b).phase = s.phase := rfl
@[simp] theorem State.setIrqActive_x : (s.setIrqActive b).x = s.x := rfl
@[simp] theorem State.setIrqActive_mem : (s.setIrqActive b).mem = s.mem := rfl
@[simp] theorem State.setIrqActive_trig : (s.setIrqActive b).trig = s.trig := rfl
@[simp] theorem State.setIrqActive_irq : (s.setIrqActive b).irq = s.irq := rfl
@[simp] theorem State.setIrqActive_irqActive : (s.setIrqActive b).irqActive = b := rfl
@[simp] theorem State.setIrqActive_cop : (s.setIrqActive b).cop = s.cop := rfl
@[simp] theorem State.setIrqActive_violation : (s.setIrqActive b).violation = s.violation := rfl
@[simp] theorem State.setIrqActive_trace : (s.setIrqActive b).trace = s.trace := rfl
@[simp] theorem State.setIrqActive_hostReads : (s.setIrqActive b).hostReads = s.hostReads := rfl
@[simp] theorem State.setIrqActive_env : (s.setIrqActive b).env = s.env := rfl
@[simp] theorem State.setIrqActive_draws : (s.setIrqActive b).draws = s.draws := rfl
end

section
variable (s : State) (c : CopState)
@[simp] theorem State.setCop_params : (s.setCop c).params = s.params := rfl
@[simp] theorem State.setCop_phase : (s.setCop c).phase = s.phase := rfl
@[simp] theorem State.setCop_x : (s.setCop c).x = s.x := rfl
@[simp] theorem State.setCop_mem : (s.setCop c).mem = s.mem := rfl
@[simp] theorem State.setCop_trig : (s.setCop c).trig = s.trig := rfl
@[simp] theorem State.setCop_irq : (s.setCop c).irq = s.irq := rfl
@[simp] theorem State.setCop_irqActive : (s.setCop c).irqActive = s.irqActive := rfl
@[simp] theorem State.setCop_cop : (s.setCop c).cop = c := rfl
@[simp] theorem State.setCop_violation : (s.setCop c).violation = s.violation := rfl
@[simp] theorem State.setCop_trace : (s.setCop c).trace = s.trace := rfl
@[simp] theorem State.setCop_hostReads : (s.setCop c).hostReads = s.hostReads := rfl
@[simp] theorem State.setCop_env : (s.setCop c).env = s.env := rfl
@[simp] theorem State.setCop_draws : (s.setCop c).draws = s.draws := rfl
end

section
variable (s : State) (b : Bool)
@[simp] theorem State.setViolation_params : (s.setViolation b).params = s.params := rfl
@[simp] theorem State.setViolation_phase : (s.setViolation b).phase = s.phase := rfl
@[simp] theorem State.setViolation_x : (s.setViolation b).x = s.x := rfl
@[simp] theorem State.setViolation_mem : (s.setViolation b).mem = s.mem := rfl
@[simp] theorem State.setViolation_trig : (s.setViolation b).trig = s.trig := rfl
@[simp] theorem State.setViolation_irq : (s.setViolation b).irq = s.irq := rfl
@[simp] theorem State.setViolation_irqActive : (s.setViolation b).irqActive = s.irqActive := rfl
@[simp] theorem State.setViolation_cop : (s.setViolation b).cop = s.cop := rfl
@[simp] theorem State.setViolation_violation : (s.setViolation b).violation = b := rfl
@[simp] theorem State.setViolation_trace : (s.setViolation b).trace = s.trace := rfl
@[simp] theorem State.setViolation_hostReads : (s.setViolation b).hostReads = s.hostReads := rfl
@[simp] theorem State.setViolation_env : (s.setViolation b).env = s.env := rfl
@[simp] theorem State.setViolation_draws : (s.setViolation b).draws = s.draws := rfl
end

section
variable (s : State) (l : List Event)
@[simp] theorem State.setTrace_params : (s.setTrace l).params = s.params := rfl
@[simp] theorem State.setTrace_phase : (s.setTrace l).phase = s.phase := rfl
@[simp] theorem State.setTrace_x : (s.setTrace l).x = s.x := rfl
@[simp] theorem State.setTrace_mem : (s.setTrace l).mem = s.mem := rfl
@[simp] theorem State.setTrace_trig : (s.setTrace l).trig = s.trig := rfl
@[simp] theorem State.setTrace_irq : (s.setTrace l).irq = s.irq := rfl
@[simp] theorem State.setTrace_irqActive : (s.setTrace l).irqActive = s.irqActive := rfl
@[simp] theorem State.setTrace_cop : (s.setTrace l).cop = s.cop := rfl
@[simp] theorem State.setTrace_violation : (s.setTrace l).violation = s.violation := rfl
@[simp] theorem State.setTrace_trace : (s.setTrace l).trace = l := rfl
@[simp] theorem State.setTrace_hostReads : (s.setTrace l).hostReads = s.hostReads := rfl
@[simp] theorem State.setTrace_env : (s.setTrace l).env = s.env := rfl
@[simp] theorem State.setTrace_draws : (s.setTrace l).draws = s.draws := rfl
end

section
variable (s : State) (l : List HostRead)
@[simp] theorem State.setHostReads_params : (s.setHostReads l).params = s.params := rfl
@[simp] theorem State.setHostReads_phase : (s.setHostReads l).phase = s.phase := rfl
@[simp] theorem State.setHostReads_x : (s.setHostReads l).x = s.x := rfl
@[simp] theorem State.setHostReads_mem : (s.setHostReads l).mem = s.mem := rfl
@[simp] theorem State.setHostReads_trig : (s.setHostReads l).trig = s.trig := rfl
@[simp] theorem State.setHostReads_irq : (s.setHostReads l).irq = s.irq := rfl
@[simp] theorem State.setHostReads_irqActive : (s.setHostReads l).irqActive = s.irqActive := rfl
@[simp] theorem State.setHostReads_cop : (s.setHostReads l).cop = s.cop := rfl
@[simp] theorem State.setHostReads_violation : (s.setHostReads l).violation = s.violation := rfl
@[simp] theorem State.setHostReads_trace : (s.setHostReads l).trace = s.trace := rfl
@[simp] theorem State.setHostReads_hostReads : (s.setHostReads l).hostReads = l := rfl
@[simp] theorem State.setHostReads_env : (s.setHostReads l).env = s.env := rfl
@[simp] theorem State.setHostReads_draws : (s.setHostReads l).draws = s.draws := rfl
end

section
variable (s : State) (e : Env)
@[simp] theorem State.setEnv_params : (s.setEnv e).params = s.params := rfl
@[simp] theorem State.setEnv_phase : (s.setEnv e).phase = s.phase := rfl
@[simp] theorem State.setEnv_x : (s.setEnv e).x = s.x := rfl
@[simp] theorem State.setEnv_mem : (s.setEnv e).mem = s.mem := rfl
@[simp] theorem State.setEnv_trig : (s.setEnv e).trig = s.trig := rfl
@[simp] theorem State.setEnv_irq : (s.setEnv e).irq = s.irq := rfl
@[simp] theorem State.setEnv_irqActive : (s.setEnv e).irqActive = s.irqActive := rfl
@[simp] theorem State.setEnv_cop : (s.setEnv e).cop = s.cop := rfl
@[simp] theorem State.setEnv_violation : (s.setEnv e).violation = s.violation := rfl
@[simp] theorem State.setEnv_trace : (s.setEnv e).trace = s.trace := rfl
@[simp] theorem State.setEnv_hostReads : (s.setEnv e).hostReads = s.hostReads := rfl
@[simp] theorem State.setEnv_env : (s.setEnv e).env = e := rfl
@[simp] theorem State.setEnv_draws : (s.setEnv e).draws = s.draws := rfl
end

section
variable (s : State) (n : Nat)
@[simp] theorem State.setDraws_params : (s.setDraws n).params = s.params := rfl
@[simp] theorem State.setDraws_phase : (s.setDraws n).phase = s.phase := rfl
@[simp] theorem State.setDraws_x : (s.setDraws n).x = s.x := rfl
@[simp] theorem State.setDraws_mem : (s.setDraws n).mem = s.mem := rfl
@[simp] theorem State.setDraws_trig : (s.setDraws n).trig = s.trig := rfl
@[simp] theorem State.setDraws_irq : (s.setDraws n).irq = s.irq := rfl
@[simp] theorem State.setDraws_irqActive : (s.setDraws n).irqActive = s.irqActive := rfl
@[simp] theorem State.setDraws_cop : (s.setDraws n).cop = s.cop := rfl
@[simp] theorem State.setDraws_violation : (s.setDraws n).violation = s.violation := rfl
@[simp] theorem State.setDraws_trace : (s.setDraws n).trace = s.trace := rfl
@[simp] theorem State.setDraws_hostReads : (s.setDraws n).hostReads = s.hostReads := rfl
@[simp] theorem State.setDraws_env : (s.setDraws n).env = s.env := rfl
@[simp] theorem State.setDraws_draws : (s.setDraws n).draws = n := rfl
end

end Sys2Proof.Machine
end

