-- ==== Sys2Proof/Laws/Host.lean ====
section
/-! SUPPORT. What a host turn can do: it never touches the block's own state, it keeps the canonical form of memory,
and while it breaks no rule it writes only `command` bytes. -/

namespace Sys2Proof.Machine

@[simp] theorem hostEffect_params (a : HostAction) (s : State) : (hostEffect a s).params = s.params := by cases a <;> rfl
@[simp] theorem hostEffect_phase (a : HostAction) (s : State) : (hostEffect a s).phase = s.phase := by cases a <;> rfl
@[simp] theorem hostEffect_x (a : HostAction) (s : State) : (hostEffect a s).x = s.x := by cases a <;> rfl
@[simp] theorem hostEffect_irq (a : HostAction) (s : State) : (hostEffect a s).irq = s.irq := by cases a <;> rfl
@[simp] theorem hostEffect_irqActive (a : HostAction) (s : State) : (hostEffect a s).irqActive = s.irqActive := by cases a <;> rfl
@[simp] theorem hostEffect_cop (a : HostAction) (s : State) : (hostEffect a s).cop = s.cop := by cases a <;> rfl
@[simp] theorem hostEffect_trace (a : HostAction) (s : State) : (hostEffect a s).trace = s.trace := by cases a <;> rfl
@[simp] theorem hostEffect_draws (a : HostAction) (s : State) : (hostEffect a s).draws = s.draws := by cases a <;> rfl
@[simp] theorem hostEffect_violation (a : HostAction) (s : State) : (hostEffect a s).violation = s.violation := by cases a <;> rfl
@[simp] theorem hostEffect_env (a : HostAction) (s : State) : (hostEffect a s).env = s.env := by cases a <;> rfl

@[simp] theorem hostAct_params (a : HostAction) (s : State) : (hostAct a s).params = s.params := by simp [hostAct]
@[simp] theorem hostAct_phase (a : HostAction) (s : State) : (hostAct a s).phase = s.phase := by simp [hostAct]
@[simp] theorem hostAct_x (a : HostAction) (s : State) : (hostAct a s).x = s.x := by simp [hostAct]
@[simp] theorem hostAct_irq (a : HostAction) (s : State) : (hostAct a s).irq = s.irq := by simp [hostAct]
@[simp] theorem hostAct_irqActive (a : HostAction) (s : State) : (hostAct a s).irqActive = s.irqActive := by simp [hostAct]
@[simp] theorem hostAct_cop (a : HostAction) (s : State) : (hostAct a s).cop = s.cop := by simp [hostAct]
@[simp] theorem hostAct_trace (a : HostAction) (s : State) : (hostAct a s).trace = s.trace := by simp [hostAct]
@[simp] theorem hostAct_draws (a : HostAction) (s : State) : (hostAct a s).draws = s.draws := by simp [hostAct]
@[simp] theorem hostAct_env (a : HostAction) (s : State) : (hostAct a s).env = s.env := by simp [hostAct]
@[simp] theorem hostAct_violation (a : HostAction) (s : State) :
    (hostAct a s).violation = (s.violation || violates s.phase a) := by simp [hostAct]

@[simp] theorem hostBatch_params (b : List HostAction) (s : State) : (hostBatch b s).params = s.params := by
  induction b generalizing s with
  | nil => rfl
  | cons a as ih => simp [hostBatch, ih]
@[simp] theorem hostBatch_phase (b : List HostAction) (s : State) : (hostBatch b s).phase = s.phase := by
  induction b generalizing s with
  | nil => rfl
  | cons a as ih => simp [hostBatch, ih]
@[simp] theorem hostBatch_x (b : List HostAction) (s : State) : (hostBatch b s).x = s.x := by
  induction b generalizing s with
  | nil => rfl
  | cons a as ih => simp [hostBatch, ih]
@[simp] theorem hostBatch_irq (b : List HostAction) (s : State) : (hostBatch b s).irq = s.irq := by
  induction b generalizing s with
  | nil => rfl
  | cons a as ih => simp [hostBatch, ih]
@[simp] theorem hostBatch_irqActive (b : List HostAction) (s : State) : (hostBatch b s).irqActive = s.irqActive := by
  induction b generalizing s with
  | nil => rfl
  | cons a as ih => simp [hostBatch, ih]
@[simp] theorem hostBatch_cop (b : List HostAction) (s : State) : (hostBatch b s).cop = s.cop := by
  induction b generalizing s with
  | nil => rfl
  | cons a as ih => simp [hostBatch, ih]
@[simp] theorem hostBatch_trace (b : List HostAction) (s : State) : (hostBatch b s).trace = s.trace := by
  induction b generalizing s with
  | nil => rfl
  | cons a as ih => simp [hostBatch, ih]
@[simp] theorem hostBatch_draws (b : List HostAction) (s : State) : (hostBatch b s).draws = s.draws := by
  induction b generalizing s with
  | nil => rfl
  | cons a as ih => simp [hostBatch, ih]
@[simp] theorem hostBatch_env (b : List HostAction) (s : State) : (hostBatch b s).env = s.env := by
  induction b generalizing s with
  | nil => rfl
  | cons a as ih => simp [hostBatch, ih]

@[simp] theorem hostTurn_params (s : State) : (hostTurn s).params = s.params := by
  unfold hostTurn; split <;> simp
@[simp] theorem hostTurn_phase (s : State) : (hostTurn s).phase = s.phase := by
  unfold hostTurn; split <;> simp
@[simp] theorem hostTurn_x (s : State) : (hostTurn s).x = s.x := by
  unfold hostTurn; split <;> simp
@[simp] theorem hostTurn_irq (s : State) : (hostTurn s).irq = s.irq := by
  unfold hostTurn; split <;> simp
@[simp] theorem hostTurn_irqActive (s : State) : (hostTurn s).irqActive = s.irqActive := by
  unfold hostTurn; split <;> simp
@[simp] theorem hostTurn_cop (s : State) : (hostTurn s).cop = s.cop := by
  unfold hostTurn; split <;> simp
@[simp] theorem hostTurn_trace (s : State) : (hostTurn s).trace = s.trace := by
  unfold hostTurn; split <;> simp
@[simp] theorem hostTurn_draws (s : State) : (hostTurn s).draws = s.draws := by
  unfold hostTurn; split <;> simp
@[simp] theorem hostTurn_perf (s : State) : (hostTurn s).env.perf = s.env.perf := by
  unfold hostTurn; split <;> simp
@[simp] theorem hostTurn_rpc (s : State) : (hostTurn s).env.rpc = s.env.rpc := by
  unfold hostTurn; split <;> simp
@[simp] theorem hostTurn_acks (s : State) : (hostTurn s).env.acks = s.env.acks := by
  unfold hostTurn; split <;> simp
@[simp] theorem hostTurn_turns (s : State) : (hostTurn s).env.turns = s.env.turns.tail := by
  unfold hostTurn; split <;> simp [*]

/-- A turn with nothing scheduled changes nothing. -/
theorem hostTurn_of_no_turns {s : State} (h : s.env.turns = []) : hostTurn s = s := by
  simp [hostTurn, h]

/-! ### Memory under a host turn -/

theorem memoryWf_hostEffect (a : HostAction) {s : State} (h : memoryWf s.mem = true) :
    memoryWf (hostEffect a s).mem = true := by
  cases a <;> simp [hostEffect, h, memoryWf_writeLE]

theorem memoryWf_hostBatch (b : List HostAction) {s : State} (h : memoryWf s.mem = true) :
    memoryWf (hostBatch b s).mem = true := by
  induction b generalizing s with
  | nil => exact h
  | cons a as ih => exact ih (memoryWf_hostEffect a (by simpa using h))

/-- A host turn keeps the canonical form. -/
theorem memoryWf_hostTurn {s : State} (h : memoryWf s.mem = true) : memoryWf (hostTurn s).mem = true := by
  unfold hostTurn
  split
  · exact h
  · exact memoryWf_hostBatch _ (by simpa using h)

/-! ### The contract flag -/

/-- A batch never clears the flag. -/
theorem violation_of_hostBatch {b : List HostAction} {s : State} (h : (hostBatch b s).violation = false) :
    s.violation = false := by
  induction b generalizing s with
  | nil => exact h
  | cons a as ih =>
    have := ih h
    simp only [hostAct_violation, Bool.or_eq_false_iff] at this
    exact this.1

/-- A turn never clears the flag. -/
theorem violation_of_hostTurn {s : State} (h : (hostTurn s).violation = false) : s.violation = false := by
  unfold hostTurn at h
  split at h
  · exact h
  · simpa using violation_of_hostBatch h

/-- A slot the host may write lies in the `command` field. -/
theorem slotInCommand_spec {sl : RecSlot} (h : slotInCommand sl = true) :
    4 ≤ slotOffset sl ∧ slotOffset sl + slotBytes sl ≤ 6 := by
  simp only [slotInCommand, Bool.and_eq_true] at h
  exact ⟨of_decide_eq_true h.1, of_decide_eq_true h.2⟩

/-- A host action that breaks no rule leaves every byte outside the two `command` fields alone. -/
theorem readByte_hostAct {a : HostAction} {s : State} (h : violates s.phase a = false) {n : Nat}
    (h0 : ¬ inField s.params .ch0 .command n) (h1 : ¬ inField s.params .ch1 .command n) :
    readByte (hostAct a s).mem n = readByte s.mem n := by
  have hs : ∀ ch, ¬ inField s.params ch .command n := fun ch => by cases ch <;> assumption
  cases a with
  | writeRec ch sl v =>
    have hsl : slotInCommand sl = true := by
      unfold violates at h
      split at h <;> simp_all
    obtain ⟨hlo, hhi⟩ := slotInCommand_spec hsl
    have := hs ch
    simp only [inField, fieldAddr, fieldOffset, fieldBytes] at this
    simp only [hostAct, hostEffect, State.setMem_mem, State.setViolation_mem, State.setViolation_params]
    exact readByte_writeLE_outside _ _ (by omega)
  | readRec ch sl => rfl
  | raise v => rfl
  | readTrig => rfl
  | writePerf v => rfl

theorem readByte_hostBatch {b : List HostAction} {s : State} (h : (hostBatch b s).violation = false) {n : Nat}
    (h0 : ¬ inField s.params .ch0 .command n) (h1 : ¬ inField s.params .ch1 .command n) :
    readByte (hostBatch b s).mem n = readByte s.mem n := by
  induction b generalizing s with
  | nil => rfl
  | cons a as ih =>
    have hv := violation_of_hostBatch (b := as) (s := hostAct a s) h
    simp only [hostAct_violation, Bool.or_eq_false_iff] at hv
    rw [hostBatch, ih h (by simpa using h0) (by simpa using h1), readByte_hostAct hv.2 h0 h1]

/-- A turn that leaves the contract flag clear leaves every byte outside the two `command` fields alone. -/
theorem readByte_hostTurn {s : State} (h : (hostTurn s).violation = false) {n : Nat}
    (h0 : ¬ inField s.params .ch0 .command n) (h1 : ¬ inField s.params .ch1 .command n) :
    readByte (hostTurn s).mem n = readByte s.mem n := by
  unfold hostTurn at h ⊢
  split
  · rfl
  · next bs heq =>
    rw [heq] at h
    simpa using readByte_hostBatch h (n := n) (by simpa using h0) (by simpa using h1)

/-- The bytes of a field other than `command` are no `command` bytes. -/
theorem field_not_command {p : Params} (hp : p.wf = true) {c : Chan} {f : Field} (hf : f ≠ .command) {i : Nat}
    (hi : i < fieldBytes f) (ch : Chan) : ¬ inField p ch .command (fieldAddr p c f + i) := by
  simp only [Params.wf, decide_eq_true_eq, Params.Admissible, disjointRegions] at hp
  cases c <;> cases ch <;> cases f <;>
    simp_all [inField, fieldAddr, fieldOffset, fieldBytes, chanBase] <;> omega

/-- A turn that leaves the contract flag clear leaves every field other than `command` alone. -/
theorem fieldValue_hostTurn {s : State} (hp : s.params.wf = true) (h : (hostTurn s).violation = false) {c : Chan}
    {f : Field} (hf : f ≠ .command) : fieldValue c f (hostTurn s) = fieldValue c f s := by
  unfold fieldValue
  rw [hostTurn_params]
  exact readLE_congr fun i hi =>
    readByte_hostTurn h (field_not_command hp hf hi .ch0) (field_not_command hp hf hi .ch1)

/-- A host action touches only the two records. -/
theorem readByte_hostAct_outside (a : HostAction) (s : State) {n : Nat} (h0 : ¬ inRecord s.params .ch0 n)
    (h1 : ¬ inRecord s.params .ch1 n) : readByte (hostAct a s).mem n = readByte s.mem n := by
  cases a with
  | writeRec ch sl v =>
    have hs : ¬ inRecord s.params ch n := by cases ch <;> assumption
    have hb : slotOffset sl + slotBytes sl ≤ 16 := by
      cases sl with
      | byte i => have := i.isLt; simp only [slotOffset, slotBytes]; omega
      | half i => have := i.isLt; simp only [slotOffset, slotBytes]; omega
      | word i => have := i.isLt; simp only [slotOffset, slotBytes]; omega
    simp only [inRecord, recordBytes] at hs
    simp only [hostAct, hostEffect, State.setMem_mem, State.setViolation_mem, State.setViolation_params]
    exact readByte_writeLE_outside _ _ (by omega)
  | readRec ch sl => rfl
  | raise v => rfl
  | readTrig => rfl
  | writePerf v => rfl

/-- A schedule entry with no action changes nothing but the schedule. -/
theorem hostTurn_silent {s : State} (h : hostSilent 1 s) : (hostTurn s).mem = s.mem ∧ (hostTurn s).trig = s.trig
    ∧ (hostTurn s).violation = s.violation ∧ (hostTurn s).hostReads = s.hostReads := by
  unfold hostTurn
  split
  · simp
  · next b bs heq =>
    have : b = [] := h b (by simp [heq])
    subst this
    simp [hostBatch]

/-- A shorter silence is part of a longer one. -/
theorem hostSilent_mono {n m : Nat} {s : State} (h : hostSilent m s) (hn : n ≤ m) : hostSilent n s :=
  fun b hb => h b ((List.take_subset_take_left _ hn) hb)

/-- After one transaction of a silent stretch, one turn fewer of it is left. -/
theorem hostSilent_of_turns {n : Nat} {s t : State} (h : hostSilent (n + 1) s) (ht : t.env.turns = s.env.turns.tail) :
    hostSilent n t := by
  intro b hb
  rw [ht] at hb
  apply h b
  cases hs : s.env.turns with
  | nil => simp [hs] at hb
  | cons c cs => simp only [hs, List.tail_cons] at hb; simp [hb]

end Sys2Proof.Machine
end

