-- ==== Sys2Proof/Laws/Ops.lean ====
section
/-! SUPPORT. What each transaction of the block does, field by field, on top of the host turn it begins with. -/

namespace Sys2Proof.Machine

@[simp] theorem perfValue_hostTurn (s : State) : perfValue (hostTurn s) = perfValue s := by simp [perfValue]
@[simp] theorem rpcAnswer_hostTurn (s : State) : rpcAnswer (hostTurn s) = rpcAnswer s := by simp [rpcAnswer]
@[simp] theorem ackId_hostTurn (s : State) : ackId (hostTurn s) = ackId s := by simp [ackId]

@[simp] theorem perfConsume_params (s : State) : (perfConsume s).params = s.params := by unfold perfConsume; split <;> rfl
@[simp] theorem rpcConsume_params (s : State) : (rpcConsume s).params = s.params := by unfold rpcConsume; split <;> rfl
@[simp] theorem ackConsume_params (s : State) : (ackConsume s).params = s.params := rfl
@[simp] theorem perfConsume_phase (s : State) : (perfConsume s).phase = s.phase := by unfold perfConsume; split <;> rfl
@[simp] theorem rpcConsume_phase (s : State) : (rpcConsume s).phase = s.phase := by unfold rpcConsume; split <;> rfl
@[simp] theorem ackConsume_phase (s : State) : (ackConsume s).phase = s.phase := rfl
@[simp] theorem perfConsume_x (s : State) : (perfConsume s).x = s.x := by unfold perfConsume; split <;> rfl
@[simp] theorem rpcConsume_x (s : State) : (rpcConsume s).x = s.x := by unfold rpcConsume; split <;> rfl
@[simp] theorem ackConsume_x (s : State) : (ackConsume s).x = s.x := rfl
@[simp] theorem perfConsume_mem (s : State) : (perfConsume s).mem = s.mem := by unfold perfConsume; split <;> rfl
@[simp] theorem rpcConsume_mem (s : State) : (rpcConsume s).mem = s.mem := by unfold rpcConsume; split <;> rfl
@[simp] theorem ackConsume_mem (s : State) : (ackConsume s).mem = s.mem := rfl
@[simp] theorem perfConsume_trig (s : State) : (perfConsume s).trig = s.trig := by unfold perfConsume; split <;> rfl
@[simp] theorem rpcConsume_trig (s : State) : (rpcConsume s).trig = s.trig := by unfold rpcConsume; split <;> rfl
@[simp] theorem ackConsume_trig (s : State) : (ackConsume s).trig = s.trig := rfl
@[simp] theorem perfConsume_irq (s : State) : (perfConsume s).irq = s.irq := by unfold perfConsume; split <;> rfl
@[simp] theorem rpcConsume_irq (s : State) : (rpcConsume s).irq = s.irq := by unfold rpcConsume; split <;> rfl
@[simp] theorem ackConsume_irq (s : State) : (ackConsume s).irq = s.irq := rfl
@[simp] theorem perfConsume_irqActive (s : State) : (perfConsume s).irqActive = s.irqActive := by unfold perfConsume; split <;> rfl
@[simp] theorem rpcConsume_irqActive (s : State) : (rpcConsume s).irqActive = s.irqActive := by unfold rpcConsume; split <;> rfl
@[simp] theorem ackConsume_irqActive (s : State) : (ackConsume s).irqActive = s.irqActive := rfl
@[simp] theorem perfConsume_cop (s : State) : (perfConsume s).cop = s.cop := by unfold perfConsume; split <;> rfl
@[simp] theorem rpcConsume_cop (s : State) : (rpcConsume s).cop = s.cop := by unfold rpcConsume; split <;> rfl
@[simp] theorem ackConsume_cop (s : State) : (ackConsume s).cop = s.cop := rfl
@[simp] theorem perfConsume_violation (s : State) : (perfConsume s).violation = s.violation := by unfold perfConsume; split <;> rfl
@[simp] theorem rpcConsume_violation (s : State) : (rpcConsume s).violation = s.violation := by unfold rpcConsume; split <;> rfl
@[simp] theorem ackConsume_violation (s : State) : (ackConsume s).violation = s.violation := rfl
@[simp] theorem perfConsume_trace (s : State) : (perfConsume s).trace = s.trace := by unfold perfConsume; split <;> rfl
@[simp] theorem rpcConsume_trace (s : State) : (rpcConsume s).trace = s.trace := by unfold rpcConsume; split <;> rfl
@[simp] theorem ackConsume_trace (s : State) : (ackConsume s).trace = s.trace := rfl
@[simp] theorem perfConsume_hostReads (s : State) : (perfConsume s).hostReads = s.hostReads := by unfold perfConsume; split <;> rfl
@[simp] theorem rpcConsume_hostReads (s : State) : (rpcConsume s).hostReads = s.hostReads := by unfold rpcConsume; split <;> rfl
@[simp] theorem ackConsume_hostReads (s : State) : (ackConsume s).hostReads = s.hostReads := rfl
@[simp] theorem ackConsume_draws (s : State) : (ackConsume s).draws = s.draws := rfl
@[simp] theorem perfConsume_turns (s : State) : (perfConsume s).env.turns = s.env.turns := by unfold perfConsume; split <;> simp [*]
@[simp] theorem perfConsume_perf (s : State) : (perfConsume s).env.perf = s.env.perf.tail := by unfold perfConsume; split <;> simp [*]
@[simp] theorem perfConsume_rpc (s : State) : (perfConsume s).env.rpc = s.env.rpc := by unfold perfConsume; split <;> simp [*]
@[simp] theorem perfConsume_acks (s : State) : (perfConsume s).env.acks = s.env.acks := by unfold perfConsume; split <;> simp [*]
@[simp] theorem rpcConsume_turns (s : State) : (rpcConsume s).env.turns = s.env.turns := by unfold rpcConsume; split <;> simp [*]
@[simp] theorem rpcConsume_perf (s : State) : (rpcConsume s).env.perf = s.env.perf := by unfold rpcConsume; split <;> simp [*]
@[simp] theorem rpcConsume_rpc (s : State) : (rpcConsume s).env.rpc = s.env.rpc.tail := by unfold rpcConsume; split <;> simp [*]
@[simp] theorem rpcConsume_acks (s : State) : (rpcConsume s).env.acks = s.env.acks := by unfold rpcConsume; split <;> simp [*]
@[simp] theorem ackConsume_turns (s : State) : (ackConsume s).env.turns = s.env.turns := rfl
@[simp] theorem ackConsume_perf (s : State) : (ackConsume s).env.perf = s.env.perf := rfl
@[simp] theorem ackConsume_rpc (s : State) : (ackConsume s).env.rpc = s.env.rpc := rfl
@[simp] theorem ackConsume_acks (s : State) : (ackConsume s).env.acks = s.env.acks.tail := rfl

/-! ### emit -/

@[simp] theorem emit_params (e : Event) (s : State) :
    (emit e s).params = s.params := rfl
@[simp] theorem emit_phase (e : Event) (s : State) :
    (emit e s).phase = s.phase := rfl
@[simp] theorem emit_x (e : Event) (s : State) :
    (emit e s).x = s.x := rfl
@[simp] theorem emit_mem (e : Event) (s : State) :
    (emit e s).mem = s.mem := rfl
@[simp] theorem emit_trig (e : Event) (s : State) :
    (emit e s).trig = s.trig := rfl
@[simp] theorem emit_irq (e : Event) (s : State) :
    (emit e s).irq = s.irq := rfl
@[simp] theorem emit_irqActive (e : Event) (s : State) :
    (emit e s).irqActive = s.irqActive := rfl
@[simp] theorem emit_cop (e : Event) (s : State) :
    (emit e s).cop = s.cop := rfl
@[simp] theorem emit_violation (e : Event) (s : State) :
    (emit e s).violation = s.violation := rfl
@[simp] theorem emit_trace (e : Event) (s : State) :
    (emit e s).trace = s.trace ++ [e] := rfl
@[simp] theorem emit_hostReads (e : Event) (s : State) :
    (emit e s).hostReads = s.hostReads := rfl
@[simp] theorem emit_env (e : Event) (s : State) :
    (emit e s).env = s.env := rfl
@[simp] theorem emit_draws (e : Event) (s : State) :
    (emit e s).draws = s.draws := rfl

/-! ### writeField -/

@[simp] theorem writeField_params (c : Chan) (f : Field) (v : Nat) (s : State) :
    (writeField c f v s).params = s.params := by simp [writeField]
@[simp] theorem writeField_phase (c : Chan) (f : Field) (v : Nat) (s : State) :
    (writeField c f v s).phase = s.phase := by simp [writeField]
@[simp] theorem writeField_x (c : Chan) (f : Field) (v : Nat) (s : State) :
    (writeField c f v s).x = s.x := by simp [writeField]
@[simp] theorem writeField_mem (c : Chan) (f : Field) (v : Nat) (s : State) :
    (writeField c f v s).mem = writeLE (hostTurn s).mem (fieldAddr s.params c f) (fieldBytes f) v := by simp [writeField]
@[simp] theorem writeField_trig (c : Chan) (f : Field) (v : Nat) (s : State) :
    (writeField c f v s).trig = (hostTurn s).trig := by simp [writeField]
@[simp] theorem writeField_irq (c : Chan) (f : Field) (v : Nat) (s : State) :
    (writeField c f v s).irq = s.irq := by simp [writeField]
@[simp] theorem writeField_irqActive (c : Chan) (f : Field) (v : Nat) (s : State) :
    (writeField c f v s).irqActive = s.irqActive := by simp [writeField]
@[simp] theorem writeField_cop (c : Chan) (f : Field) (v : Nat) (s : State) :
    (writeField c f v s).cop = s.cop := by simp [writeField]
@[simp] theorem writeField_violation (c : Chan) (f : Field) (v : Nat) (s : State) :
    (writeField c f v s).violation = (hostTurn s).violation := by simp [writeField]
@[simp] theorem writeField_trace (c : Chan) (f : Field) (v : Nat) (s : State) :
    (writeField c f v s).trace = s.trace ++ [.memWrite (fieldAddr s.params c f) (fieldBytes f) v] := by simp [writeField]
@[simp] theorem writeField_hostReads (c : Chan) (f : Field) (v : Nat) (s : State) :
    (writeField c f v s).hostReads = (hostTurn s).hostReads := by simp [writeField]
@[simp] theorem writeField_env (c : Chan) (f : Field) (v : Nat) (s : State) :
    (writeField c f v s).env = (hostTurn s).env := by simp [writeField]
@[simp] theorem writeField_draws (c : Chan) (f : Field) (v : Nat) (s : State) :
    (writeField c f v s).draws = s.draws := by simp [writeField]

/-! ### readField -/

@[simp] theorem readField_params (c : Chan) (f : Field) (s : State) :
    ((readField c f s).1).params = s.params := by simp [readField]
@[simp] theorem readField_phase (c : Chan) (f : Field) (s : State) :
    ((readField c f s).1).phase = s.phase := by simp [readField]
@[simp] theorem readField_x (c : Chan) (f : Field) (s : State) :
    ((readField c f s).1).x = s.x := by simp [readField]
@[simp] theorem readField_mem (c : Chan) (f : Field) (s : State) :
    ((readField c f s).1).mem = (hostTurn s).mem := by simp [readField]
@[simp] theorem readField_trig (c : Chan) (f : Field) (s : State) :
    ((readField c f s).1).trig = (hostTurn s).trig := by simp [readField]
@[simp] theorem readField_irq (c : Chan) (f : Field) (s : State) :
    ((readField c f s).1).irq = s.irq := by simp [readField]
@[simp] theorem readField_irqActive (c : Chan) (f : Field) (s : State) :
    ((readField c f s).1).irqActive = s.irqActive := by simp [readField]
@[simp] theorem readField_cop (c : Chan) (f : Field) (s : State) :
    ((readField c f s).1).cop = s.cop := by simp [readField]
@[simp] theorem readField_violation (c : Chan) (f : Field) (s : State) :
    ((readField c f s).1).violation = (hostTurn s).violation := by simp [readField]
@[simp] theorem readField_trace (c : Chan) (f : Field) (s : State) :
    ((readField c f s).1).trace = s.trace ++ [.memRead (fieldAddr s.params c f) (fieldBytes f) (fieldValue c f (hostTurn s))] := by simp [readField]
@[simp] theorem readField_hostReads (c : Chan) (f : Field) (s : State) :
    ((readField c f s).1).hostReads = (hostTurn s).hostReads := by simp [readField]
@[simp] theorem readField_env (c : Chan) (f : Field) (s : State) :
    ((readField c f s).1).env = (hostTurn s).env := by simp [readField]
@[simp] theorem readField_draws (c : Chan) (f : Field) (s : State) :
    ((readField c f s).1).draws = s.draws := by simp [readField]

/-! ### readTrig -/

@[simp] theorem readTrig_params (s : State) :
    ((readTrig s).1).params = s.params := by simp [readTrig]
@[simp] theorem readTrig_phase (s : State) :
    ((readTrig s).1).phase = s.phase := by simp [readTrig]
@[simp] theorem readTrig_x (s : State) :
    ((readTrig s).1).x = s.x := by simp [readTrig]
@[simp] theorem readTrig_mem (s : State) :
    ((readTrig s).1).mem = (hostTurn s).mem := by simp [readTrig]
@[simp] theorem readTrig_trig (s : State) :
    ((readTrig s).1).trig = (hostTurn s).trig := by simp [readTrig]
@[simp] theorem readTrig_irq (s : State) :
    ((readTrig s).1).irq = s.irq := by simp [readTrig]
@[simp] theorem readTrig_irqActive (s : State) :
    ((readTrig s).1).irqActive = s.irqActive := by simp [readTrig]
@[simp] theorem readTrig_cop (s : State) :
    ((readTrig s).1).cop = s.cop := by simp [readTrig]
@[simp] theorem readTrig_violation (s : State) :
    ((readTrig s).1).violation = (hostTurn s).violation := by simp [readTrig]
@[simp] theorem readTrig_trace (s : State) :
    ((readTrig s).1).trace = s.trace ++ [.memRead s.params.trigAddr 4 (hostTurn s).trig.toNat] := by simp [readTrig]
@[simp] theorem readTrig_hostReads (s : State) :
    ((readTrig s).1).hostReads = (hostTurn s).hostReads := by simp [readTrig]
@[simp] theorem readTrig_env (s : State) :
    ((readTrig s).1).env = (hostTurn s).env := by simp [readTrig]
@[simp] theorem readTrig_draws (s : State) :
    ((readTrig s).1).draws = s.draws := by simp [readTrig]

/-! ### writeTrig -/

@[simp] theorem writeTrig_params (v : Word) (s : State) :
    (writeTrig v s).params = s.params := by simp [writeTrig]
@[simp] theorem writeTrig_phase (v : Word) (s : State) :
    (writeTrig v s).phase = s.phase := by simp [writeTrig]
@[simp] theorem writeTrig_x (v : Word) (s : State) :
    (writeTrig v s).x = s.x := by simp [writeTrig]
@[simp] theorem writeTrig_mem (v : Word) (s : State) :
    (writeTrig v s).mem = (hostTurn s).mem := by simp [writeTrig]
@[simp] theorem writeTrig_trig (v : Word) (s : State) :
    (writeTrig v s).trig = ackedTrig s.params.trigAckMode (hostTurn s).trig v := by simp [writeTrig]
@[simp] theorem writeTrig_irq (v : Word) (s : State) :
    (writeTrig v s).irq = s.irq := by simp [writeTrig]
@[simp] theorem writeTrig_irqActive (v : Word) (s : State) :
    (writeTrig v s).irqActive = s.irqActive := by simp [writeTrig]
@[simp] theorem writeTrig_cop (v : Word) (s : State) :
    (writeTrig v s).cop = s.cop := by simp [writeTrig]
@[simp] theorem writeTrig_violation (v : Word) (s : State) :
    (writeTrig v s).violation = (hostTurn s).violation := by simp [writeTrig]
@[simp] theorem writeTrig_trace (v : Word) (s : State) :
    (writeTrig v s).trace = s.trace ++ [.memWrite s.params.trigAddr 4 v.toNat] := by simp [writeTrig]
@[simp] theorem writeTrig_hostReads (v : Word) (s : State) :
    (writeTrig v s).hostReads = (hostTurn s).hostReads := by simp [writeTrig]
@[simp] theorem writeTrig_env (v : Word) (s : State) :
    (writeTrig v s).env = (hostTurn s).env := by simp [writeTrig]
@[simp] theorem writeTrig_draws (v : Word) (s : State) :
    (writeTrig v s).draws = s.draws := by simp [writeTrig]

/-! ### readPerf -/

@[simp] theorem readPerf_params (s : State) :
    ((readPerf s).1).params = s.params := by simp [readPerf]
@[simp] theorem readPerf_phase (s : State) :
    ((readPerf s).1).phase = s.phase := by simp [readPerf]
@[simp] theorem readPerf_x (s : State) :
    ((readPerf s).1).x = s.x := by simp [readPerf]
@[simp] theorem readPerf_mem (s : State) :
    ((readPerf s).1).mem = (hostTurn s).mem := by simp [readPerf]
@[simp] theorem readPerf_trig (s : State) :
    ((readPerf s).1).trig = (hostTurn s).trig := by simp [readPerf]
@[simp] theorem readPerf_irq (s : State) :
    ((readPerf s).1).irq = s.irq := by simp [readPerf]
@[simp] theorem readPerf_irqActive (s : State) :
    ((readPerf s).1).irqActive = s.irqActive := by simp [readPerf]
@[simp] theorem readPerf_cop (s : State) :
    ((readPerf s).1).cop = s.cop := by simp [readPerf]
@[simp] theorem readPerf_violation (s : State) :
    ((readPerf s).1).violation = (hostTurn s).violation := by simp [readPerf]
@[simp] theorem readPerf_trace (s : State) :
    ((readPerf s).1).trace = s.trace ++ [.memRead s.params.perfAddr 4 (perfValue s).toNat] := by simp [readPerf]
@[simp] theorem readPerf_hostReads (s : State) :
    ((readPerf s).1).hostReads = (hostTurn s).hostReads := by simp [readPerf]
@[simp] theorem readPerf_turns (s : State) :
    ((readPerf s).1).env.turns = s.env.turns.tail := by simp [readPerf]
@[simp] theorem readPerf_perf (s : State) :
    ((readPerf s).1).env.perf = s.env.perf.tail := by simp [readPerf]
@[simp] theorem readPerf_rpc (s : State) :
    ((readPerf s).1).env.rpc = s.env.rpc := by simp [readPerf]
@[simp] theorem readPerf_acks (s : State) :
    ((readPerf s).1).env.acks = s.env.acks := by simp [readPerf]

/-! ### rpcCall -/

@[simp] theorem rpcCall_params (op : RpcOp) (s : State) :
    ((rpcCall op s).1).params = s.params := by simp [rpcCall]
@[simp] theorem rpcCall_phase (op : RpcOp) (s : State) :
    ((rpcCall op s).1).phase = s.phase := by simp [rpcCall]
@[simp] theorem rpcCall_x (op : RpcOp) (s : State) :
    ((rpcCall op s).1).x = s.x := by simp [rpcCall]
@[simp] theorem rpcCall_mem (op : RpcOp) (s : State) :
    ((rpcCall op s).1).mem = (hostTurn s).mem := by simp [rpcCall]
@[simp] theorem rpcCall_trig (op : RpcOp) (s : State) :
    ((rpcCall op s).1).trig = (hostTurn s).trig := by simp [rpcCall]
@[simp] theorem rpcCall_irq (op : RpcOp) (s : State) :
    ((rpcCall op s).1).irq = s.irq := by simp [rpcCall]
@[simp] theorem rpcCall_irqActive (op : RpcOp) (s : State) :
    ((rpcCall op s).1).irqActive = s.irqActive := by simp [rpcCall]
@[simp] theorem rpcCall_cop (op : RpcOp) (s : State) :
    ((rpcCall op s).1).cop = copAfter s.params op (rpcAnswer s).ok s.cop := by simp [rpcCall]
@[simp] theorem rpcCall_violation (op : RpcOp) (s : State) :
    ((rpcCall op s).1).violation = (hostTurn s).violation := by simp [rpcCall]
@[simp] theorem rpcCall_trace (op : RpcOp) (s : State) :
    ((rpcCall op s).1).trace = s.trace ++ [.rpc op (rpcAnswer s)] := by simp [rpcCall]
@[simp] theorem rpcCall_hostReads (op : RpcOp) (s : State) :
    ((rpcCall op s).1).hostReads = (hostTurn s).hostReads := by simp [rpcCall]
@[simp] theorem rpcCall_turns (op : RpcOp) (s : State) :
    ((rpcCall op s).1).env.turns = s.env.turns.tail := by simp [rpcCall]
@[simp] theorem rpcCall_perf (op : RpcOp) (s : State) :
    ((rpcCall op s).1).env.perf = s.env.perf := by simp [rpcCall]
@[simp] theorem rpcCall_rpc (op : RpcOp) (s : State) :
    ((rpcCall op s).1).env.rpc = s.env.rpc.tail := by simp [rpcCall]
@[simp] theorem rpcCall_acks (op : RpcOp) (s : State) :
    ((rpcCall op s).1).env.acks = s.env.acks := by simp [rpcCall]

/-- A power request leaves the duty alone (R247). -/
@[simp] theorem copAfter_setPower_pwm (p : Params) (d : Word) (on w ok : Bool) (c : CopState) :
    (copAfter p (.setPower d on w) ok c).pwm = c.pwm := by cases ok <;> rfl

/-! ### latchClock -/

@[simp] theorem latchClock_params (a : RpcAnswer) (s : State) :
    (latchClock a s).params = s.params := by unfold latchClock; split <;> rfl
@[simp] theorem latchClock_phase (a : RpcAnswer) (s : State) :
    (latchClock a s).phase = s.phase := by unfold latchClock; split <;> rfl
@[simp] theorem latchClock_mem (a : RpcAnswer) (s : State) :
    (latchClock a s).mem = s.mem := by unfold latchClock; split <;> rfl
@[simp] theorem latchClock_trig (a : RpcAnswer) (s : State) :
    (latchClock a s).trig = s.trig := by unfold latchClock; split <;> rfl
@[simp] theorem latchClock_irq (a : RpcAnswer) (s : State) :
    (latchClock a s).irq = s.irq := by unfold latchClock; split <;> rfl
@[simp] theorem latchClock_irqActive (a : RpcAnswer) (s : State) :
    (latchClock a s).irqActive = s.irqActive := by unfold latchClock; split <;> rfl
@[simp] theorem latchClock_cop (a : RpcAnswer) (s : State) :
    (latchClock a s).cop = s.cop := by unfold latchClock; split <;> rfl
@[simp] theorem latchClock_violation (a : RpcAnswer) (s : State) :
    (latchClock a s).violation = s.violation := by unfold latchClock; split <;> rfl
@[simp] theorem latchClock_trace (a : RpcAnswer) (s : State) :
    (latchClock a s).trace = s.trace := by unfold latchClock; split <;> rfl
@[simp] theorem latchClock_hostReads (a : RpcAnswer) (s : State) :
    (latchClock a s).hostReads = s.hostReads := by unfold latchClock; split <;> rfl
@[simp] theorem latchClock_env (a : RpcAnswer) (s : State) :
    (latchClock a s).env = s.env := by unfold latchClock; split <;> rfl

/-! ### gicAck -/

@[simp] theorem gicAck_params (s : State) :
    ((gicAck s).1).params = s.params := by simp [gicAck]
@[simp] theorem gicAck_phase (s : State) :
    ((gicAck s).1).phase = s.phase := by simp [gicAck]
@[simp] theorem gicAck_x (s : State) :
    ((gicAck s).1).x = s.x := by simp [gicAck]
@[simp] theorem gicAck_mem (s : State) :
    ((gicAck s).1).mem = (hostTurn s).mem := by simp [gicAck]
@[simp] theorem gicAck_trig (s : State) :
    ((gicAck s).1).trig = (hostTurn s).trig := by simp [gicAck]
@[simp] theorem gicAck_irq (s : State) :
    ((gicAck s).1).irq = s.irq := by simp [gicAck]
@[simp] theorem gicAck_irqActive (s : State) :
    ((gicAck s).1).irqActive = true := by simp [gicAck]
@[simp] theorem gicAck_cop (s : State) :
    ((gicAck s).1).cop = s.cop := by simp [gicAck]
@[simp] theorem gicAck_violation (s : State) :
    ((gicAck s).1).violation = (hostTurn s).violation := by simp [gicAck]
@[simp] theorem gicAck_trace (s : State) :
    ((gicAck s).1).trace = s.trace ++ [.gicAck (ackId s)] := by simp [gicAck]
@[simp] theorem gicAck_hostReads (s : State) :
    ((gicAck s).1).hostReads = (hostTurn s).hostReads := by simp [gicAck]
@[simp] theorem gicAck_draws (s : State) :
    ((gicAck s).1).draws = s.draws := by simp [gicAck]
@[simp] theorem gicAck_turns (s : State) :
    ((gicAck s).1).env.turns = s.env.turns.tail := by simp [gicAck]
@[simp] theorem gicAck_perf (s : State) :
    ((gicAck s).1).env.perf = s.env.perf := by simp [gicAck]
@[simp] theorem gicAck_rpc (s : State) :
    ((gicAck s).1).env.rpc = s.env.rpc := by simp [gicAck]
@[simp] theorem gicAck_acks (s : State) :
    ((gicAck s).1).env.acks = s.env.acks.tail := by simp [gicAck]

/-! ### gicEoi -/

@[simp] theorem gicEoi_params (id : Word) (s : State) :
    (gicEoi id s).params = s.params := by simp [gicEoi]
@[simp] theorem gicEoi_phase (id : Word) (s : State) :
    (gicEoi id s).phase = s.phase := by simp [gicEoi]
@[simp] theorem gicEoi_x (id : Word) (s : State) :
    (gicEoi id s).x = s.x := by simp [gicEoi]
@[simp] theorem gicEoi_mem (id : Word) (s : State) :
    (gicEoi id s).mem = (hostTurn s).mem := by simp [gicEoi]
@[simp] theorem gicEoi_trig (id : Word) (s : State) :
    (gicEoi id s).trig = (hostTurn s).trig := by simp [gicEoi]
@[simp] theorem gicEoi_irq (id : Word) (s : State) :
    (gicEoi id s).irq = s.irq := by simp [gicEoi]
@[simp] theorem gicEoi_irqActive (id : Word) (s : State) :
    (gicEoi id s).irqActive = (s.irqActive && decide (id ≠ s.params.trigIrqId)) := by simp [gicEoi]
@[simp] theorem gicEoi_cop (id : Word) (s : State) :
    (gicEoi id s).cop = s.cop := by simp [gicEoi]
@[simp] theorem gicEoi_violation (id : Word) (s : State) :
    (gicEoi id s).violation = (hostTurn s).violation := by simp [gicEoi]
@[simp] theorem gicEoi_trace (id : Word) (s : State) :
    (gicEoi id s).trace = s.trace ++ [.gicEoi id] := by simp [gicEoi]
@[simp] theorem gicEoi_hostReads (id : Word) (s : State) :
    (gicEoi id s).hostReads = (hostTurn s).hostReads := by simp [gicEoi]
@[simp] theorem gicEoi_env (id : Word) (s : State) :
    (gicEoi id s).env = (hostTurn s).env := by simp [gicEoi]
@[simp] theorem gicEoi_draws (id : Word) (s : State) :
    (gicEoi id s).draws = s.draws := by simp [gicEoi]

/-! ### Values -/

@[simp] theorem readField_value (c : Chan) (f : Field) (s : State) :
    (readField c f s).2 = fieldValue c f (hostTurn s) := rfl
@[simp] theorem readTrig_value (s : State) : (readTrig s).2 = (hostTurn s).trig := rfl
@[simp] theorem readPerf_value (s : State) : (readPerf s).2 = perfValue s := by simp [readPerf]
@[simp] theorem rpcCall_value (op : RpcOp) (s : State) : (rpcCall op s).2 = rpcAnswer s := by simp [rpcCall]
@[simp] theorem gicAck_value (s : State) : (gicAck s).2 = ackId s := by simp [gicAck]

/-- `x[c]` after a `GET_CLOCK`: the value of a successful call (R144). -/
theorem latchClock_c_of_ok {a : RpcAnswer} (h : a.ok = true) (s : State) : (latchClock a s).x.c = some a.val := by
  simp [latchClock, h]

/-- `x[c]` always holds some word after a `GET_CLOCK`. -/
theorem latchClock_c (a : RpcAnswer) (s : State) : ∃ c, (latchClock a s).x = { s.x with c := some c } := by
  unfold latchClock; split <;> exact ⟨_, rfl⟩

/-! ### Record fields -/

/-- A field lies inside its record. -/
theorem field_in_record (f : Field) : fieldOffset f + fieldBytes f ≤ recordBytes := by cases f <;> decide

/-- Two fields of one record share no byte. -/
theorem offsets_disjoint {f f' : Field} (h : f ≠ f') :
    fieldOffset f + fieldBytes f ≤ fieldOffset f' ∨ fieldOffset f' + fieldBytes f' ≤ fieldOffset f := by
  cases f <;> cases f' <;> first | decide | exact absurd rfl h

/-- The two records share no byte (R27). -/
theorem records_disjoint {p : Params} (hp : p.wf = true) {c c' : Chan} (h : c ≠ c') :
    chanBase p c + recordBytes ≤ chanBase p c' ∨ chanBase p c' + recordBytes ≤ chanBase p c := by
  have hd : disjointRegions p.ch0Base 16 p.ch1Base 16 := (of_decide_eq_true hp).2.2.2.2.1
  cases c <;> cases c'
  · exact absurd rfl h
  · exact hd
  · exact hd.symm
  · exact absurd rfl h

/-- Two fields that are not the same field of the same channel share no byte. -/
theorem fields_disjoint {p : Params} (hp : p.wf = true) {c c' : Chan} {f f' : Field} (h : (c, f) ≠ (c', f')) :
    fieldAddr p c f + fieldBytes f ≤ fieldAddr p c' f' ∨ fieldAddr p c' f' + fieldBytes f' ≤ fieldAddr p c f := by
  unfold fieldAddr
  by_cases hc : c = c'
  · subst hc
    have := offsets_disjoint (f := f) (f' := f') (fun hf => h (by rw [hf]))
    omega
  · have := records_disjoint hp hc
    have := field_in_record f
    have := field_in_record f'
    omega

/-- A field holds what the block last wrote to it. -/
theorem fieldValue_writeField_same {s : State} (hm : memoryWf s.mem = true) (c : Chan) (f : Field) (v : Nat) :
    fieldValue c f (writeField c f v s) = v % 256 ^ fieldBytes f := by
  simp [fieldValue, readLE_writeLE_same (memoryWf_hostTurn hm)]

/-- A write to one field leaves every other field as the host's turn left it. -/
theorem fieldValue_writeField_other {s : State} (hp : s.params.wf = true) {c c' : Chan} {f f' : Field} (v : Nat)
    (h : (c, f) ≠ (c', f')) : fieldValue c' f' (writeField c f v s) = fieldValue c' f' (hostTurn s) := by
  simp only [fieldValue, writeField_mem, writeField_params, hostTurn_params]
  exact readLE_writeLE_disjoint _ _ ((fields_disjoint hp h).symm)

/-- A field write keeps the canonical form. -/
theorem memoryWf_writeField {s : State} (hm : memoryWf s.mem = true) (c : Chan) (f : Field) (v : Nat) :
    memoryWf (writeField c f v s).mem = true := by
  simpa using memoryWf_writeLE (memoryWf_hostTurn hm) _ _ _

end Sys2Proof.Machine
end

