-- ==== Sys2Proof/Laws/PerInstr.lean ====
section
/-! SUPPORT. What holds of every instruction as syntax, one lemma per constructor. -/

/-- The encoding of an instruction, where the spec gives one, is a word of its format's width (30_encoding.md
R103): 32 bits for a trigger class, 16 for a command class. -/
def Sys2Proof.Laws.Encoding.Statement (i : Sys2Proof.Instr) : Prop :=
  ∀ n w, Sys2Proof.encode i = some (n, w) → (n = 32 ∨ n = 16) ∧ w < 2 ^ n

namespace Sys2Proof.Laws.Encoding

theorem trigCnt : Statement .trigCnt := by
  rintro n w h; simp only [encode, Option.some.injEq, Prod.mk.injEq] at h; obtain ⟨rfl, rfl⟩ := h
  exact ⟨.inl rfl, BitVec.isLt _⟩

theorem trigFan : Statement .trigFan := by
  rintro n w h; simp only [encode, Option.some.injEq, Prod.mk.injEq] at h; obtain ⟨rfl, rfl⟩ := h
  exact ⟨.inl rfl, BitVec.isLt _⟩

theorem trigPwm (d : Byte) : Statement (.trigPwm d) := by
  rintro n w h; simp only [encode, Option.some.injEq, Prod.mk.injEq] at h; obtain ⟨rfl, rfl⟩ := h
  exact ⟨.inl rfl, BitVec.isLt _⟩

theorem trigClk (v : Word) : Statement (.trigClk v) := by
  rintro n w h; simp only [encode, Option.some.injEq, Prod.mk.injEq] at h; obtain ⟨rfl, rfl⟩ := h
  exact ⟨.inl rfl, BitVec.isLt _⟩

theorem cmdRead : Statement .cmdRead := by
  rintro n w h; simp only [encode, Option.some.injEq, Prod.mk.injEq] at h; obtain ⟨rfl, rfl⟩ := h
  exact ⟨.inr rfl, by decide⟩

theorem cmdWrite : Statement .cmdWrite := by
  rintro n w h; simp only [encode, Option.some.injEq, Prod.mk.injEq] at h; obtain ⟨rfl, rfl⟩ := h
  exact ⟨.inr rfl, by decide⟩

theorem cmdOther (c : Half) : Statement (.cmdOther c) := by
  rintro n w h; simp only [encode, Option.some.injEq, Prod.mk.injEq] at h; obtain ⟨rfl, rfl⟩ := h
  exact ⟨.inr rfl, BitVec.isLt _⟩

theorem rpcGetBoardRev : Statement .rpcGetBoardRev := by rintro n w h; simp [encode] at h

theorem rpcGetClock : Statement .rpcGetClock := by rintro n w h; simp [encode] at h

theorem rpcGetMaxClock : Statement .rpcGetMaxClock := by rintro n w h; simp [encode] at h

theorem rpcSetClock (hz : Word) : Statement (.rpcSetClock hz) := by rintro n w h; simp [encode] at h

theorem rpcGetPwm : Statement .rpcGetPwm := by rintro n w h; simp [encode] at h

theorem rpcSetPwm (d : Word) : Statement (.rpcSetPwm d) := by rintro n w h; simp [encode] at h

theorem rpcSetPower (d : Word) (on w : Bool) : Statement (.rpcSetPower d on w) := by rintro n k h; simp [encode] at h

end Sys2Proof.Laws.Encoding
end

