-- ==== Sys2Proof/Laws/Turns.lean ====
section
/-! SUPPORT. A host turn depends only on what the host can see: two states that agree there take the same turn.
These lemmas carry "what the host alone would have done" across the block's transactions. -/

namespace Sys2Proof.Machine

/-- Agreement on everything a host turn reads but the record bytes and the host's reads. -/
structure HostView (s t : State) : Prop where
  params : s.params = t.params
  phase : s.phase = t.phase
  trig : s.trig = t.trig
  violation : s.violation = t.violation
  turns : s.env.turns = t.env.turns

theorem HostView.refl (s : State) : HostView s s := ⟨rfl, rfl, rfl, rfl, rfl⟩

/-- One action keeps the agreement, and agreement on any one byte of memory. -/
theorem HostView.hostAct {s t : State} (h : HostView s t) (a : HostAction) :
    HostView (hostAct a s) (hostAct a t) where
  params := by simp [h.params]
  phase := by simp [h.phase]
  trig := by cases a <;> simp [Machine.hostAct, hostEffect, h.trig, h.params]
  violation := by simp [h.violation, h.phase]
  turns := by simp [h.turns]

theorem HostView.hostBatch {s t : State} (h : HostView s t) (b : List HostAction) :
    HostView (hostBatch b s) (hostBatch b t) := by
  induction b generalizing s t with
  | nil => exact h
  | cons a as ih => exact ih (h.hostAct a)

/-- Taking the next schedule entry off both states keeps the agreement. -/
theorem HostView.pop {s t : State} (h : HostView s t) (bs : List (List HostAction)) :
    HostView (s.setEnv { s.env with turns := bs }) (t.setEnv { t.env with turns := bs }) :=
  ⟨h.params, h.phase, h.trig, h.violation, rfl⟩

theorem HostView.hostTurn {s t : State} (h : HostView s t) : HostView (hostTurn s) (hostTurn t) := by
  unfold Machine.hostTurn
  rw [← h.turns]
  split
  · exact h
  · exact (h.pop _).hostBatch _

/-- A little-endian write treats each byte on its own. -/
theorem readByte_writeLE_congr {m m' : List Host.Cell} (hm : memoryWf m = true) (hm' : memoryWf m' = true)
    {a n v k : Nat} (h : readByte m k = readByte m' k) :
    readByte (writeLE m a n v) k = readByte (writeLE m' a n v) k := by
  by_cases hk : a ≤ k ∧ k < a + n
  · obtain ⟨i, rfl⟩ := Nat.exists_eq_add_of_le hk.1
    rw [readByte_writeLE_inside hm v (by omega), readByte_writeLE_inside hm' v (by omega)]
  · rw [readByte_writeLE_outside m v (by omega), readByte_writeLE_outside m' v (by omega), h]

/-- Agreement of two canonical memories at one byte, kept by a host turn. -/
structure ByteView (k : Nat) (s t : State) : Prop extends HostView s t where
  wfl : memoryWf s.mem = true
  wfr : memoryWf t.mem = true
  byte : readByte s.mem k = readByte t.mem k

theorem ByteView.hostAct {k : Nat} {s t : State} (h : ByteView k s t) (a : HostAction) :
    ByteView k (hostAct a s) (hostAct a t) where
  toHostView := h.toHostView.hostAct a
  wfl := memoryWf_hostEffect a (by simpa using h.wfl)
  wfr := memoryWf_hostEffect a (by simpa using h.wfr)
  byte := by
    cases a with
    | writeRec ch sl v =>
      simp only [Machine.hostAct, hostEffect, State.setMem_mem, State.setViolation_mem, State.setViolation_params,
        h.params]
      exact readByte_writeLE_congr h.wfl h.wfr h.byte
    | readRec ch sl => exact h.byte
    | raise v => exact h.byte
    | readTrig => exact h.byte
    | writePerf v => exact h.byte

theorem ByteView.hostBatch {k : Nat} {s t : State} (h : ByteView k s t) (b : List HostAction) :
    ByteView k (hostBatch b s) (hostBatch b t) := by
  induction b generalizing s t with
  | nil => exact h
  | cons a as ih => exact ih (h.hostAct a)

theorem ByteView.hostTurn {k : Nat} {s t : State} (h : ByteView k s t) :
    ByteView k (hostTurn s) (hostTurn t) := by
  unfold Machine.hostTurn
  rw [← h.turns]
  split
  · exact h
  · next b bs _ => exact ByteView.hostBatch ⟨h.toHostView.pop bs, h.wfl, h.wfr, h.byte⟩ b

/-- Agreement on everything a host turn reads or writes. -/
structure FullView (s t : State) : Prop extends HostView s t where
  mem : s.mem = t.mem
  hostReads : s.hostReads = t.hostReads

theorem FullView.hostAct {s t : State} (h : FullView s t) (a : HostAction) :
    FullView (hostAct a s) (hostAct a t) where
  toHostView := h.toHostView.hostAct a
  mem := by cases a <;> simp [Machine.hostAct, hostEffect, h.mem, h.params]
  hostReads := by cases a <;> simp [Machine.hostAct, hostEffect, h.mem, h.params, h.hostReads, h.trig]

theorem FullView.hostBatch {s t : State} (h : FullView s t) (b : List HostAction) :
    FullView (hostBatch b s) (hostBatch b t) := by
  induction b generalizing s t with
  | nil => exact h
  | cons a as ih => exact ih (h.hostAct a)

theorem FullView.hostTurn {s t : State} (h : FullView s t) : FullView (hostTurn s) (hostTurn t) := by
  unfold Machine.hostTurn
  rw [← h.turns]
  split
  · exact h
  · next b bs _ => exact FullView.hostBatch ⟨h.toHostView.pop bs, h.mem, h.hostReads⟩ b

/-- What the host alone decides, one turn at a time. -/
theorem hostTurns_succ (n : Nat) (s : State) : hostTurns (n + 1) s = hostTurn (hostTurns n s) := by
  induction n generalizing s with
  | zero => rfl
  | succ n ih => rw [hostTurns, ih, hostTurns]

@[simp] theorem hostTurns_params (n : Nat) (s : State) : (hostTurns n s).params = s.params := by
  induction n generalizing s with
  | zero => rfl
  | succ n ih => rw [hostTurns, ih, hostTurn_params]

/-- Host turns keep the canonical form. -/
theorem memoryWf_hostTurns {n : Nat} {s : State} (h : memoryWf s.mem = true) :
    memoryWf (hostTurns n s).mem = true := by
  induction n generalizing s with
  | zero => exact h
  | succ n ih => exact ih (memoryWf_hostTurn h)

/-! ### Carrying the host's part across transactions

If a state agrees with what the host alone made of `u` in `n` turns, then after one more transaction of the block it
agrees with `n + 1` turns. -/

variable {n : Nat} {s u : State}

theorem HostView.next (h : HostView s (hostTurns n u)) {t : State} (hp : t.params = s.params) (hq : t.phase = s.phase)
    (ht : t.trig = (Machine.hostTurn s).trig) (hv : t.violation = (Machine.hostTurn s).violation)
    (hn : t.env.turns = (Machine.hostTurn s).env.turns) : HostView t (hostTurns (n + 1) u) := by
  rw [hostTurns_succ]
  have k := h.hostTurn
  exact ⟨by rw [hp, ← hostTurn_params s, k.params], by rw [hq, ← hostTurn_phase s, k.phase], ht.trans k.trig,
    hv.trans k.violation, hn.trans k.turns⟩

theorem HostView.writeField (h : HostView s (hostTurns n u)) (c : Chan) (f : Field) (v : Nat) :
    HostView (writeField c f v s) (hostTurns (n + 1) u) := h.next (by simp) (by simp) (by simp) (by simp) (by simp)
theorem HostView.readField (h : HostView s (hostTurns n u)) (c : Chan) (f : Field) :
    HostView (readField c f s).1 (hostTurns (n + 1) u) := h.next (by simp) (by simp) (by simp) (by simp) (by simp)
theorem HostView.rpcCall (h : HostView s (hostTurns n u)) (op : RpcOp) :
    HostView (rpcCall op s).1 (hostTurns (n + 1) u) := h.next (by simp) (by simp) (by simp) (by simp) (by simp)
theorem HostView.emit {w : State} (h : HostView s w) (e : Event) : HostView (emit e s) w :=
  ⟨h.params, h.phase, h.trig, h.violation, h.turns⟩
theorem HostView.setX {w : State} (h : HostView s w) (x : Latches) : HostView (s.setX x) w :=
  ⟨h.params, h.phase, h.trig, h.violation, h.turns⟩

/-- The host-visible part gives the three fields the host alone decides. -/
theorem hostTurns_turns (n : Nat) (s : State) : (hostTurns n s).env.turns = s.env.turns.drop n := by
  induction n generalizing s with
  | zero => rfl
  | succ n ih => rw [hostTurns, ih, hostTurn_turns, List.drop_tail]

theorem HostView.decides {t : State} (h : HostView t (hostTurns n u)) : HostDecides n u t :=
  ⟨h.trig, h.violation, h.turns.trans (hostTurns_turns n u)⟩

variable {k : Nat}

theorem ByteView.start (k : Nat) (hm : memoryWf s.mem = true) : ByteView k s (hostTurns 0 s) :=
  ⟨HostView.refl s, hm, hm, rfl⟩

theorem ByteView.readField (h : ByteView k s (hostTurns n u)) (c : Chan) (f : Field) :
    ByteView k (readField c f s).1 (hostTurns (n + 1) u) where
  toHostView := h.toHostView.readField c f
  wfl := by simpa using h.hostTurn.wfl
  wfr := by simpa [hostTurns_succ] using h.hostTurn.wfr
  byte := by simpa [hostTurns_succ] using h.hostTurn.byte

theorem ByteView.writeField (h : ByteView k s (hostTurns n u)) (c : Chan) (f : Field) (v : Nat)
    (hk : ¬ inField u.params c f k) : ByteView k (writeField c f v s) (hostTurns (n + 1) u) where
  toHostView := h.toHostView.writeField c f v
  wfl := by simpa using memoryWf_writeLE h.hostTurn.wfl _ _ _
  wfr := by simpa [hostTurns_succ] using h.hostTurn.wfr
  byte := by
    have hp : s.params = u.params := by rw [h.params, hostTurns_params]
    simp only [inField] at hk
    rw [writeField_mem, hp, readByte_writeLE_outside _ _ (by omega), hostTurns_succ]
    exact h.hostTurn.byte

theorem ByteView.rpcCall (h : ByteView k s (hostTurns n u)) (op : RpcOp) :
    ByteView k (rpcCall op s).1 (hostTurns (n + 1) u) where
  toHostView := h.toHostView.rpcCall op
  wfl := by simpa using h.hostTurn.wfl
  wfr := by simpa [hostTurns_succ] using h.hostTurn.wfr
  byte := by simpa [hostTurns_succ] using h.hostTurn.byte

theorem ByteView.emit {w : State} (h : ByteView k s w) (e : Event) : ByteView k (emit e s) w :=
  ⟨h.toHostView.emit e, h.wfl, h.wfr, h.byte⟩
theorem ByteView.setX {w : State} (h : ByteView k s w) (x : Latches) : ByteView k (s.setX x) w :=
  ⟨h.toHostView.setX x, h.wfl, h.wfr, h.byte⟩

/-- Agreement on everything the host sees gives agreement at every byte. -/
theorem FullView.byteView {w : State} (h : FullView s w) (hm : memoryWf w.mem = true) (k : Nat) : ByteView k s w :=
  ⟨h.toHostView, by rw [h.mem]; exact hm, hm, by rw [h.mem]⟩

theorem FullView.trans {w : State} (h : FullView s u) (k : FullView u w) : FullView s w :=
  ⟨⟨h.params.trans k.params, h.phase.trans k.phase, h.trig.trans k.trig, h.violation.trans k.violation,
    h.turns.trans k.turns⟩, h.mem.trans k.mem, h.hostReads.trans k.hostReads⟩

theorem FullView.rpcCall (h : FullView s (hostTurns n u)) (op : RpcOp) :
    FullView (rpcCall op s).1 (hostTurns (n + 1) u) where
  toHostView := h.toHostView.rpcCall op
  mem := by simpa [hostTurns_succ] using h.hostTurn.mem
  hostReads := by simpa [hostTurns_succ] using h.hostTurn.hostReads

/-! ### Host turns that break no rule -/

/-- During an invocation an action that breaks no rule leaves TRIG alone (R62, R213). -/
theorem trig_hostAct_handling {s : State} {h : HStep} (hp : s.phase = .handling h) {a : HostAction}
    (ha : violates s.phase a = false) : (hostAct a s).trig = s.trig := by
  cases a with
  | raise v => rw [hp] at ha; exact nomatch ha
  | readRec ch sl => rfl
  | writeRec ch sl v => rfl
  | readTrig => rfl
  | writePerf v => rfl

theorem trig_hostBatch_handling {b : List HostAction} {s : State} {h : HStep} (hp : s.phase = .handling h)
    (hv : (hostBatch b s).violation = false) : (hostBatch b s).trig = s.trig := by
  induction b generalizing s with
  | nil => rfl
  | cons a as ih =>
    have hv' := violation_of_hostBatch (b := as) (s := hostAct a s) hv
    simp only [hostAct_violation, Bool.or_eq_false_iff] at hv'
    rw [hostBatch, ih (by simpa using hp) hv, trig_hostAct_handling hp hv'.2]

/-- During an invocation a turn that leaves the contract flag clear leaves TRIG alone. -/
theorem trig_hostTurn_handling {s : State} {h : HStep} (hp : s.phase = .handling h)
    (hv : (hostTurn s).violation = false) : (hostTurn s).trig = s.trig := by
  unfold hostTurn at hv ⊢
  split
  · rfl
  · next bs heq =>
    rw [heq] at hv
    exact trig_hostBatch_handling (h := h) hp hv

/-- `n` turns never clear the flag. -/
theorem violation_of_hostTurns {n : Nat} {s : State} (h : (hostTurns n s).violation = false) :
    s.violation = false := by
  induction n generalizing s with
  | zero => exact h
  | succ n ih => exact violation_of_hostTurn (ih h)

@[simp] theorem hostTurns_phase (n : Nat) (s : State) : (hostTurns n s).phase = s.phase := by
  induction n generalizing s with
  | zero => rfl
  | succ n ih => rw [hostTurns, ih, hostTurn_phase]

/-- During an invocation turns that leave the contract flag clear leave TRIG alone. -/
theorem trig_hostTurns_handling {n : Nat} {s : State} {h : HStep} (hp : s.phase = .handling h)
    (hv : (hostTurns n s).violation = false) : (hostTurns n s).trig = s.trig := by
  induction n generalizing s with
  | zero => rfl
  | succ n ih =>
    rw [hostTurns, ih (by simpa using hp) hv, trig_hostTurn_handling hp (violation_of_hostTurns hv)]

end Sys2Proof.Machine
end

