-- ==== Sys2Proof/Laws/Step.lean ====
section
/-! SUPPORT. One equation per sequencer step, startup step and instruction: what it answers, in terms of the
transactions of Ops. Later proofs cite these and never unfold `step` or `exec`. -/

namespace Sys2Proof.Machine

/-! ### Sequencing -/

@[simp] theorem andThen_next (s : State) (f : State → Host.Outcome State Fault Refusal) :
    andThen (.next s) f = f s := rfl
@[simp] theorem andThen_fault (r : Fault) (f : State → Host.Outcome State Fault Refusal) :
    andThen (.fault r) f = .fault r := rfl
@[simp] theorem andThen_refused (r : Refusal) (f : State → Host.Outcome State Fault Refusal) :
    andThen (.refused r) f = .refused r := rfl
@[simp] theorem withLatch_some {α : Type} (l : Latch) (a : α) (f : α → Host.Outcome State Fault Refusal) :
    withLatch l (some a) f = f a := rfl
@[simp] theorem withLatch_none {α : Type} (l : Latch) (f : α → Host.Outcome State Fault Refusal) :
    withLatch l none f = .fault (.latchUnset l) := rfl

/-- What an `andThen` that answers next has done. -/
theorem andThen_eq_next {o : Host.Outcome State Fault Refusal} {f : State → Host.Outcome State Fault Refusal}
    {t : State} (h : andThen o f = .next t) : ∃ s, o = .next s ∧ f s = .next t := by
  cases o with
  | next s => exact ⟨s, rfl, h⟩
  | fault r => exact nomatch h
  | refused r => exact nomatch h

/-- What a `withLatch` that answers next has read. -/
theorem withLatch_eq_next {α : Type} {l : Latch} {v : Option α} {f : α → Host.Outcome State Fault Refusal} {t : State}
    (h : withLatch l v f = .next t) : ∃ a, v = some a ∧ f a = .next t := by
  cases v with
  | some a => exact ⟨a, rfl, h⟩
  | none => exact nomatch h

/-! ### What only depends on memory -/

@[simp] theorem fieldValue_setPhase (c : Chan) (f : Field) (s : State) (ph : Phase) :
    fieldValue c f (s.setPhase ph) = fieldValue c f s := rfl
@[simp] theorem fieldValue_setX (c : Chan) (f : Field) (s : State) (x : Latches) :
    fieldValue c f (s.setX x) = fieldValue c f s := rfl
@[simp] theorem fieldValue_emit (c : Chan) (f : Field) (s : State) (e : Event) :
    fieldValue c f (emit e s) = fieldValue c f s := rfl
@[simp] theorem recordStamped_setPhase (c : Chan) (s : State) (ph : Phase) :
    recordStamped c (s.setPhase ph) ↔ recordStamped c s := Iff.rfl
@[simp] theorem recordsStamped_setPhase (s : State) (ph : Phase) :
    recordsStamped (s.setPhase ph) ↔ recordsStamped s := Iff.rfl
@[simp] theorem recordStamped_setX (c : Chan) (s : State) (x : Latches) :
    recordStamped c (s.setX x) ↔ recordStamped c s := Iff.rfl
@[simp] theorem recordsStamped_setX (s : State) (x : Latches) :
    recordsStamped (s.setX x) ↔ recordsStamped s := Iff.rfl
@[simp] theorem recordStamped_emit (c : Chan) (s : State) (e : Event) :
    recordStamped c (emit e s) ↔ recordStamped c s := Iff.rfl
theorem HostDecides.setPhase {n : Nat} {s t : State} (h : HostDecides n s t) (ph : Phase) :
    HostDecides n s (t.setPhase ph) := ⟨h.trig, h.violation, h.turns⟩
theorem memoryWf_emit {s : State} (h : memoryWf s.mem = true) (e : Event) : memoryWf (emit e s).mem = true := h

/-! ### The channel operations -/

theorem HostView.resetIdle {n : Nat} {s u : State} (h : HostView s (hostTurns n u)) (c : Chan) :
    HostView (resetIdle c s) (hostTurns (n + 2) u) := (h.writeField _ _ _).writeField _ _ _

theorem ByteView.resetIdle {k n : Nat} {s u : State} (h : ByteView k s (hostTurns n u)) (c : Chan)
    (hg : ¬ inField u.params c .signature k) (hs : ¬ inField u.params c .status k) :
    ByteView k (resetIdle c s) (hostTurns (n + 2) u) := (h.writeField _ _ _ hg).writeField _ _ _ hs

@[simp] theorem resetIdle_params (c : Chan) (s : State) : (resetIdle c s).params = s.params := by simp [resetIdle]
@[simp] theorem resetIdle_phase (c : Chan) (s : State) : (resetIdle c s).phase = s.phase := by simp [resetIdle]
@[simp] theorem resetIdle_x (c : Chan) (s : State) : (resetIdle c s).x = s.x := by simp [resetIdle]
@[simp] theorem resetIdle_irq (c : Chan) (s : State) : (resetIdle c s).irq = s.irq := by simp [resetIdle]
@[simp] theorem resetIdle_irqActive (c : Chan) (s : State) : (resetIdle c s).irqActive = s.irqActive := by
  simp [resetIdle]
@[simp] theorem resetIdle_cop (c : Chan) (s : State) : (resetIdle c s).cop = s.cop := by simp [resetIdle]
@[simp] theorem resetIdle_draws (c : Chan) (s : State) : (resetIdle c s).draws = s.draws := by simp [resetIdle]
@[simp] theorem resetIdle_perf (c : Chan) (s : State) : (resetIdle c s).env.perf = s.env.perf := by simp [resetIdle]
@[simp] theorem resetIdle_rpc (c : Chan) (s : State) : (resetIdle c s).env.rpc = s.env.rpc := by simp [resetIdle]
@[simp] theorem resetIdle_acks (c : Chan) (s : State) : (resetIdle c s).env.acks = s.env.acks := by simp [resetIdle]
@[simp] theorem resetIdle_trace (c : Chan) (s : State) : (resetIdle c s).trace = s.trace ++
    [.memWrite (fieldAddr s.params c .signature) 4 (sigOf s.params.sigLayout c).toNat,
     .memWrite (fieldAddr s.params c .status) 2 1] := by
  simp [resetIdle, fieldBytes, idleStatus]

theorem memoryWf_resetIdle {s : State} (h : memoryWf s.mem = true) (c : Chan) :
    memoryWf (resetIdle c s).mem = true := memoryWf_writeField (memoryWf_writeField h _ _ _) _ _ _

/-- A silent turn leaves every field alone. -/
theorem fieldValue_hostTurn_silent {s : State} (h : hostSilent 1 s) (c : Chan) (f : Field) :
    fieldValue c f (hostTurn s) = fieldValue c f s := by
  simp [fieldValue, (hostTurn_silent h).1]

/-- A write after a silent turn leaves every other field alone, `command` included. -/
theorem fieldValue_writeField_silent {s : State} (hp : s.params.wf = true) (hs : hostSilent 1 s) {c c' : Chan}
    {f f' : Field} (v : Nat) (h : (c, f) ≠ (c', f')) : fieldValue c' f' (writeField c f v s) = fieldValue c' f' s := by
  rw [fieldValue_writeField_other hp v h, fieldValue_hostTurn_silent hs]

/-- A read after a silent turn leaves every field alone. -/
theorem fieldValue_readField_silent {s : State} (hs : hostSilent 1 s) (c c' : Chan) (f f' : Field) :
    fieldValue c' f' (readField c f s).1 = fieldValue c' f' s := by
  have := fieldValue_hostTurn_silent hs c' f'
  simpa [fieldValue] using this

/-- `ResetIdle(n)` with no host action leaves every field but signature and status of its channel alone. -/
theorem fieldValue_resetIdle_silent {s : State} (hp : s.params.wf = true) (hs : hostSilent 2 s) {c c' : Chan}
    {f : Field} (h : c = c' → f ≠ .signature ∧ f ≠ .status) :
    fieldValue c' f (resetIdle c s) = fieldValue c' f s := by
  have hp' : (writeField c .signature (sigOf s.params.sigLayout c).toNat s).params.wf = true := by simpa using hp
  rw [resetIdle, fieldValue_writeField_silent hp' (hostSilent_of_turns hs (by simp)),
    fieldValue_writeField_silent hp (hostSilent_mono hs (by omega))]
  · intro he; simp only [Prod.mk.injEq] at he; exact (h he.1).1 he.2.symm
  · intro he; simp only [Prod.mk.injEq] at he; exact (h he.1).2 he.2.symm

/-- After `ResetIdle(n)` with no host action, the record is stamped (R141). -/
theorem recordStamped_resetIdle_silent {s : State} (hp : s.params.wf = true) (hm : memoryWf s.mem = true) (c : Chan)
    (hs : hostSilent 2 s) : recordStamped c (resetIdle c s) := by
  have hp' : (writeField c .signature (sigOf s.params.sigLayout c).toNat s).params.wf = true := by simpa using hp
  constructor
  · have hq : (resetIdle c s).params = s.params := by simp [resetIdle]
    rw [hq, resetIdle, fieldValue_writeField_silent hp' (hostSilent_of_turns hs (by simp)) _ (by simp),
      fieldValue_writeField_same hm]
    exact Nat.mod_eq_of_lt (sigOf _ c).isLt
  · rw [resetIdle, fieldValue_writeField_same (memoryWf_writeField hm _ _ _)]
    rfl

/-- A written field keeps its value through a turn that breaks no rule, and through writes to other fields. -/
theorem fieldValue_writeField_kept {s : State} (hp : s.params.wf = true) {c c' : Chan} {f f' : Field} (v : Nat)
    (h : (c, f) ≠ (c', f')) (hf : f' ≠ .command) (hv : (writeField c f v s).violation = false) :
    fieldValue c' f' (writeField c f v s) = fieldValue c' f' s := by
  rw [fieldValue_writeField_other hp v h, fieldValue_hostTurn hp (by simpa using hv) hf]

/-- No field access clears the contract flag. -/
theorem violation_of_writeField {c : Chan} {f : Field} {v : Nat} {s : State}
    (h : (writeField c f v s).violation = false) : s.violation = false := violation_of_hostTurn (by simpa using h)
theorem violation_of_readField {c : Chan} {f : Field} {s : State} (h : (readField c f s).1.violation = false) :
    s.violation = false := violation_of_hostTurn (by simpa using h)
theorem violation_of_resetIdle {c : Chan} {s : State} (h : (resetIdle c s).violation = false) :
    s.violation = false := violation_of_writeField (violation_of_writeField h)

/-- A field read leaves every field but `command` alone while the host keeps its contract. -/
theorem fieldValue_readField_kept {s : State} (hp : s.params.wf = true) {c c' : Chan} {f f' : Field}
    (hf : f' ≠ .command) (hv : (readField c f s).1.violation = false) :
    fieldValue c' f' (readField c f s).1 = fieldValue c' f' s := by
  have := fieldValue_hostTurn hp (s := s) (by simpa using hv) (c := c') hf
  simpa [fieldValue] using this

theorem sig_mod (l : SigLayout) (c : Chan) : (sigOf l c).toNat % 256 ^ 4 = (sigOf l c).toNat :=
  Nat.mod_eq_of_lt (sigOf l c).isLt

/-- After `ResetIdle(n)`, if the host kept its contract, the record is stamped (R141). -/
theorem recordStamped_resetIdle {s : State} (hp : s.params.wf = true) (hm : memoryWf s.mem = true) (c : Chan)
    (hv : (resetIdle c s).violation = false) : recordStamped c (resetIdle c s) := by
  have hp' : (writeField c .signature (sigOf s.params.sigLayout c).toNat s).params.wf = true := by simpa using hp
  constructor
  · rw [resetIdle_params, resetIdle, fieldValue_writeField_kept hp' _ (by simp) (by simp) hv,
      fieldValue_writeField_same hm]
    exact sig_mod _ _
  · rw [resetIdle, fieldValue_writeField_same (memoryWf_writeField hm _ _ _)]
    rfl

/-- `ResetIdle(n)` leaves every other field but `command` alone while the host keeps its contract. -/
theorem fieldValue_resetIdle_kept {s : State} (hp : s.params.wf = true) {c c' : Chan} {f : Field}
    (h : c = c' → f ≠ .signature ∧ f ≠ .status) (hf : f ≠ .command) (hv : (resetIdle c s).violation = false) :
    fieldValue c' f (resetIdle c s) = fieldValue c' f s := by
  have hp' : (writeField c .signature (sigOf s.params.sigLayout c).toNat s).params.wf = true := by simpa using hp
  have hv' := violation_of_hostTurn (by simpa [resetIdle] using hv)
  rw [resetIdle, fieldValue_writeField_kept hp' _ _ hf hv, fieldValue_writeField_kept hp _ _ hf hv']
  · intro he; simp only [Prod.mk.injEq] at he; exact (h he.1).1 he.2.symm
  · intro he; simp only [Prod.mk.injEq] at he; exact (h he.1).2 he.2.symm

/-! ### The error path and the fan service -/

/-- The four reads of `CNT.ERR` (R147). -/
def errorReads (s : State) : State :=
  (readField .ch0 .payload1 (readField .ch0 .payload0 (readField .ch0 .status (readField .ch0 .signature s).1).1).1).1

/-- The five reads of `FAN.SVC` (R149). -/
def fanReads (s : State) : State :=
  (readField .ch1 .payload1 (readField .ch1 .payload0 (readField .ch1 .status (readField .ch1 .command
    (readField .ch1 .signature s).1).1).1).1).1

/-- What `CNT.ERR` does (R147): four reads, the log event with what they returned, `ResetIdle(0)`. -/
theorem cntError_spec (cmd : Half) (s : State) : ∃ e sg st p0 p1,
    cntError cmd s = resetIdle .ch0 (emit e (errorReads s))
    ∧ e = .log (.protoCnt cmd (BitVec.ofNat 32 sg) (BitVec.ofNat 16 st)
        (BitVec.ofNat 32 p0 ++ BitVec.ofNat 32 p1 : BitVec 64))
    ∧ (errorReads s).trace = s.trace ++
        [.memRead (fieldAddr s.params .ch0 .signature) 4 sg, .memRead (fieldAddr s.params .ch0 .status) 2 st,
         .memRead (fieldAddr s.params .ch0 .payload0) 4 p0, .memRead (fieldAddr s.params .ch0 .payload1) 4 p1]
    ∧ (s.params.wf = true → (errorReads s).violation = false →
        sg = fieldValue .ch0 .signature s ∧ st = fieldValue .ch0 .status s
          ∧ p0 = fieldValue .ch0 .payload0 s ∧ p1 = fieldValue .ch0 .payload1 s) := by
  set r1 := (readField .ch0 .signature s).1 with h1
  set r2 := (readField .ch0 .status r1).1 with h2
  set r3 := (readField .ch0 .payload0 r2).1 with h3
  refine ⟨_, fieldValue .ch0 .signature (hostTurn s), fieldValue .ch0 .status (hostTurn r1),
    fieldValue .ch0 .payload0 (hostTurn r2), fieldValue .ch0 .payload1 (hostTurn r3), ?_, rfl, ?_, ?_⟩
  · simp only [cntError, errorReads, readField_value]; rfl
  · simp [errorReads, h1, h2, h3, fieldBytes]
  · intro hp hv
    have hr : errorReads s = (readField .ch0 .payload1 r3).1 := rfl
    rw [hr, readField_violation] at hv
    have hp1 : r1.params.wf = true := by simpa [h1] using hp
    have hp2 : r2.params.wf = true := by simpa [h2] using hp1
    have hp3 : r3.params.wf = true := by simpa [h3] using hp2
    have v3 : (hostTurn r2).violation = false := by simpa [h3] using violation_of_hostTurn hv
    have v2 : (hostTurn r1).violation = false := by simpa [h2] using violation_of_hostTurn v3
    have v1 : (hostTurn s).violation = false := by simpa [h1] using violation_of_hostTurn v2
    have k1 : ∀ f, f ≠ .command → fieldValue .ch0 f r1 = fieldValue .ch0 f s :=
      fun f hf => fieldValue_readField_kept hp hf (by simpa using v1)
    have k2 : ∀ f, f ≠ .command → fieldValue .ch0 f r2 = fieldValue .ch0 f r1 :=
      fun f hf => fieldValue_readField_kept hp1 hf (by simpa using v2)
    have k3 : ∀ f, f ≠ .command → fieldValue .ch0 f r3 = fieldValue .ch0 f r2 :=
      fun f hf => fieldValue_readField_kept hp2 hf (by simpa using v3)
    refine ⟨fieldValue_hostTurn hp v1 (by simp), ?_, ?_, ?_⟩
    · rw [fieldValue_hostTurn hp1 v2 (by simp), k1 _ (by simp)]
    · rw [fieldValue_hostTurn hp2 v3 (by simp), k2 _ (by simp), k1 _ (by simp)]
    · rw [fieldValue_hostTurn hp3 hv (by simp), k3 _ (by simp), k2 _ (by simp), k1 _ (by simp)]

/-- What `FAN.SVC` does (R149): five reads, the log event with what they returned, `ResetIdle(1)`. -/
theorem fanService_spec (s : State) : ∃ e sg cm st p0 p1,
    fanService s = resetIdle .ch1 (emit e (fanReads s))
    ∧ e = .log (.fanHandshake (BitVec.ofNat 32 sg) (BitVec.ofNat 16 cm) (BitVec.ofNat 16 st)
        (BitVec.ofNat 32 p0 ++ BitVec.ofNat 32 p1 : BitVec 64))
    ∧ (fanReads s).trace = s.trace ++
        [.memRead (fieldAddr s.params .ch1 .signature) 4 sg, .memRead (fieldAddr s.params .ch1 .command) 2 cm,
         .memRead (fieldAddr s.params .ch1 .status) 2 st, .memRead (fieldAddr s.params .ch1 .payload0) 4 p0,
         .memRead (fieldAddr s.params .ch1 .payload1) 4 p1]
    ∧ cm = fieldValue .ch1 .command (hostTurn (readField .ch1 .signature s).1)
    ∧ (s.params.wf = true → (fanReads s).violation = false →
        sg = fieldValue .ch1 .signature s ∧ st = fieldValue .ch1 .status s
          ∧ p0 = fieldValue .ch1 .payload0 s ∧ p1 = fieldValue .ch1 .payload1 s) := by
  set r1 := (readField .ch1 .signature s).1 with h1
  set r2 := (readField .ch1 .command r1).1 with h2
  set r3 := (readField .ch1 .status r2).1 with h3
  set r4 := (readField .ch1 .payload0 r3).1 with h4
  refine ⟨_, fieldValue .ch1 .signature (hostTurn s), fieldValue .ch1 .command (hostTurn r1),
    fieldValue .ch1 .status (hostTurn r2), fieldValue .ch1 .payload0 (hostTurn r3),
    fieldValue .ch1 .payload1 (hostTurn r4), ?_, rfl, ?_, rfl, ?_⟩
  · simp only [fanService, fanReads, readField_value]; rfl
  · simp [fanReads, h1, h2, h3, h4, fieldBytes]
  · intro hp hv
    have hr : fanReads s = (readField .ch1 .payload1 r4).1 := rfl
    rw [hr, readField_violation] at hv
    have hp1 : r1.params.wf = true := by simpa [h1] using hp
    have hp2 : r2.params.wf = true := by simpa [h2] using hp1
    have hp3 : r3.params.wf = true := by simpa [h3] using hp2
    have hp4 : r4.params.wf = true := by simpa [h4] using hp3
    have v4 : (hostTurn r3).violation = false := by simpa [h4] using violation_of_hostTurn hv
    have v3 : (hostTurn r2).violation = false := by simpa [h3] using violation_of_hostTurn v4
    have v2 : (hostTurn r1).violation = false := by simpa [h2] using violation_of_hostTurn v3
    have v1 : (hostTurn s).violation = false := by simpa [h1] using violation_of_hostTurn v2
    have k1 : ∀ f, f ≠ .command → fieldValue .ch1 f r1 = fieldValue .ch1 f s :=
      fun f hf => fieldValue_readField_kept hp hf (by simpa using v1)
    have k2 : ∀ f, f ≠ .command → fieldValue .ch1 f r2 = fieldValue .ch1 f r1 :=
      fun f hf => fieldValue_readField_kept hp1 hf (by simpa using v2)
    have k3 : ∀ f, f ≠ .command → fieldValue .ch1 f r3 = fieldValue .ch1 f r2 :=
      fun f hf => fieldValue_readField_kept hp2 hf (by simpa using v3)
    have k4 : ∀ f, f ≠ .command → fieldValue .ch1 f r4 = fieldValue .ch1 f r3 :=
      fun f hf => fieldValue_readField_kept hp3 hf (by simpa using v4)
    refine ⟨fieldValue_hostTurn hp v1 (by simp), ?_, ?_, ?_⟩
    · rw [fieldValue_hostTurn hp2 v3 (by simp), k2 _ (by simp), k1 _ (by simp)]
    · rw [fieldValue_hostTurn hp3 v4 (by simp), k3 _ (by simp), k2 _ (by simp), k1 _ (by simp)]
    · rw [fieldValue_hostTurn hp4 hv (by simp), k4 _ (by simp), k3 _ (by simp), k2 _ (by simp), k1 _ (by simp)]

variable {n k : Nat} {s u : State}

theorem HostView.errorReads (h : HostView s (hostTurns n u)) : HostView (errorReads s) (hostTurns (n + 4) u) :=
  (((h.readField _ _).readField _ _).readField _ _).readField _ _
theorem ByteView.errorReads (h : ByteView k s (hostTurns n u)) : ByteView k (errorReads s) (hostTurns (n + 4) u) :=
  (((h.readField _ _).readField _ _).readField _ _).readField _ _
theorem HostView.fanReads (h : HostView s (hostTurns n u)) : HostView (fanReads s) (hostTurns (n + 5) u) :=
  ((((h.readField _ _).readField _ _).readField _ _).readField _ _).readField _ _
theorem ByteView.fanReads (h : ByteView k s (hostTurns n u)) : ByteView k (fanReads s) (hostTurns (n + 5) u) :=
  ((((h.readField _ _).readField _ _).readField _ _).readField _ _).readField _ _

@[simp] theorem errorReads_params (s : State) : (errorReads s).params = s.params := by simp [errorReads]
@[simp] theorem errorReads_phase (s : State) : (errorReads s).phase = s.phase := by simp [errorReads]
@[simp] theorem errorReads_x (s : State) : (errorReads s).x = s.x := by simp [errorReads]
@[simp] theorem errorReads_irq (s : State) : (errorReads s).irq = s.irq := by simp [errorReads]
@[simp] theorem errorReads_irqActive (s : State) : (errorReads s).irqActive = s.irqActive := by simp [errorReads]
@[simp] theorem errorReads_cop (s : State) : (errorReads s).cop = s.cop := by simp [errorReads]
@[simp] theorem errorReads_draws (s : State) : (errorReads s).draws = s.draws := by simp [errorReads]
@[simp] theorem errorReads_perf (s : State) : (errorReads s).env.perf = s.env.perf := by simp [errorReads]
@[simp] theorem errorReads_rpc (s : State) : (errorReads s).env.rpc = s.env.rpc := by simp [errorReads]
@[simp] theorem errorReads_acks (s : State) : (errorReads s).env.acks = s.env.acks := by simp [errorReads]
@[simp] theorem fanReads_params (s : State) : (fanReads s).params = s.params := by simp [fanReads]
@[simp] theorem fanReads_phase (s : State) : (fanReads s).phase = s.phase := by simp [fanReads]
@[simp] theorem fanReads_x (s : State) : (fanReads s).x = s.x := by simp [fanReads]
@[simp] theorem fanReads_irq (s : State) : (fanReads s).irq = s.irq := by simp [fanReads]
@[simp] theorem fanReads_irqActive (s : State) : (fanReads s).irqActive = s.irqActive := by simp [fanReads]
@[simp] theorem fanReads_cop (s : State) : (fanReads s).cop = s.cop := by simp [fanReads]
@[simp] theorem fanReads_draws (s : State) : (fanReads s).draws = s.draws := by simp [fanReads]
@[simp] theorem fanReads_perf (s : State) : (fanReads s).env.perf = s.env.perf := by simp [fanReads]
@[simp] theorem fanReads_rpc (s : State) : (fanReads s).env.rpc = s.env.rpc := by simp [fanReads]
@[simp] theorem fanReads_acks (s : State) : (fanReads s).env.acks = s.env.acks := by simp [fanReads]

/-- The error path's reads leave every field but `command` alone while the host keeps its contract. -/
theorem fieldValue_errorReads {c : Chan} {f : Field} (hp : s.params.wf = true) (hf : f ≠ .command)
    (hv : (errorReads s).violation = false) : fieldValue c f (errorReads s) = fieldValue c f s := by
  have v3 := violation_of_readField hv
  have v2 := violation_of_readField v3
  have v1 := violation_of_readField v2
  have e1 := fieldValue_readField_kept (c' := c) hp hf v1
  have e2 := fieldValue_readField_kept (c' := c) (by simpa using hp) hf v2
  have e3 := fieldValue_readField_kept (c' := c) (by simpa using hp) hf v3
  have e4 := fieldValue_readField_kept (c' := c) (by simpa using hp) hf hv
  exact e4.trans (e3.trans (e2.trans e1))

/-- The fan service's reads leave every field but `command` alone while the host keeps its contract. -/
theorem fieldValue_fanReads {c : Chan} {f : Field} (hp : s.params.wf = true) (hf : f ≠ .command)
    (hv : (fanReads s).violation = false) : fieldValue c f (fanReads s) = fieldValue c f s := by
  have v4 := violation_of_readField hv
  have v3 := violation_of_readField v4
  have v2 := violation_of_readField v3
  have v1 := violation_of_readField v2
  have e1 := fieldValue_readField_kept (c' := c) hp hf v1
  have e2 := fieldValue_readField_kept (c' := c) (by simpa using hp) hf v2
  have e3 := fieldValue_readField_kept (c' := c) (by simpa using hp) hf v3
  have e4 := fieldValue_readField_kept (c' := c) (by simpa using hp) hf v4
  have e5 := fieldValue_readField_kept (c' := c) (by simpa using hp) hf hv
  exact e5.trans (e4.trans (e3.trans (e2.trans e1)))

/-- The error path's reads with no host action leave every field alone. -/
theorem fieldValue_errorReads_silent (hs : hostSilent 4 s) (c : Chan) (f : Field) :
    fieldValue c f (errorReads s) = fieldValue c f s := by
  have h1 := hostSilent_of_turns (t := (readField .ch0 .signature s).1) hs (by simp)
  have h2 := hostSilent_of_turns (t := (readField .ch0 .status (readField .ch0 .signature s).1).1) h1 (by simp)
  have h3 := hostSilent_of_turns (n := 1)
    (t := (readField .ch0 .payload0 (readField .ch0 .status (readField .ch0 .signature s).1).1).1) h2 (by simp)
  have e1 := fieldValue_readField_silent (hostSilent_mono hs (by omega)) .ch0 c .signature f
  have e2 := fieldValue_readField_silent (hostSilent_mono h1 (by omega)) .ch0 c .status f
  have e3 := fieldValue_readField_silent (hostSilent_mono h2 (by omega)) .ch0 c .payload0 f
  exact (fieldValue_readField_silent h3 .ch0 c .payload1 f).trans (e3.trans (e2.trans e1))

/-! ### exec -/

@[simp] theorem exec_trigCnt (s : State) : exec .trigCnt s = .next (s.setX { s.x with cnt := some true }) := rfl
@[simp] theorem exec_trigFan (s : State) : exec .trigFan s = .next (s.setX { s.x with fan := some true }) := rfl
@[simp] theorem exec_trigPwm (d : Byte) (s : State) :
    exec (.trigPwm d) s = .next (s.setX { s.x with pwm := some true, duty := some d }) := rfl
@[simp] theorem exec_trigClk (v : Word) (s : State) :
    exec (.trigClk v) s = .next (s.setX { s.x with clk := some true, mhz := some (clampMhz v) }) := rfl
@[simp] theorem exec_cmdWrite (s : State) : exec .cmdWrite s = .next (cntError 0x0001#16 s) := rfl
@[simp] theorem exec_cmdOther (c : Half) (s : State) : exec (.cmdOther c) s = .next (cntError c s) := rfl
@[simp] theorem exec_rpcGetBoardRev (s : State) : exec .rpcGetBoardRev s
    = .next (emit (.log (.diagBoardRev (rpcAnswer s).val (rpcAnswer s).ok)) (rpcCall .getBoardRev s).1) := by
  simp [exec, execRpcGetBoardRev]
@[simp] theorem exec_rpcGetMaxClock (s : State) : exec .rpcGetMaxClock s
    = .next (emit (.log (.diagMaxClock (rpcAnswer s).val (rpcAnswer s).ok))
        (rpcCall (.getMaxClock s.params.clkId) s).1) := by
  simp [exec, execRpcGetMaxClock]
@[simp] theorem exec_rpcSetClock (hz : Word) (s : State) :
    exec (.rpcSetClock hz) s = .next (rpcCall (.setClock s.params.clkId hz) s).1 := rfl
@[simp] theorem exec_rpcGetPwm (s : State) : exec .rpcGetPwm s = .next (rpcCall .getPwm s).1 := rfl
@[simp] theorem exec_rpcSetPwm (d : Word) (s : State) : exec (.rpcSetPwm d) s = .next (rpcCall (.setPwm d) s).1 := rfl
@[simp] theorem exec_rpcSetPower (d : Word) (on w : Bool) (s : State) :
    exec (.rpcSetPower d on w) s = .next (rpcCall (.setPower d on w) s).1 := rfl

/-- `GET_CLOCK` during an invocation. -/
theorem exec_rpcGetClock_handling {s : State} {h : HStep} (hp : s.phase = .handling h) : exec .rpcGetClock s
    = .next (latchClock (rpcAnswer s) (rpcCall (.getClock s.params.clkId) s).1) := by
  simp [exec, execRpcGetClock, hp]

/-- `GET_CLOCK` outside an invocation. -/
theorem exec_rpcGetClock_outside {s : State} (hp : ∀ h, s.phase ≠ .handling h) : exec .rpcGetClock s
    = .next (rpcCall (.getClock s.params.clkId) s).1 := by
  cases hq : s.phase with
  | uninit k => simp [exec, execRpcGetClock, hq]
  | idle => simp [exec, execRpcGetClock, hq]
  | handling h => exact absurd hq (hp h)

/-- The state of `CMD.READ` after the PERF read and `GET_CLOCK`, before the first write: the sampled value and its
call, with the clock word in `x[c]` and `x[d]` computed from the two (R144). -/
theorem cntSample_spec (s : State) : ∃ c a, (∀ b rest, s.env.rpc = b :: rest → a = b) ∧ (a.ok = true → c = a.val)
    ∧ (cntSample s).x = { s.x with r := some (perfValue s), c := some c, d := some (delivered (perfValue s) c) }
    ∧ (cntSample s).trace = s.trace ++ [.memRead s.params.perfAddr 4 (perfValue s).toNat,
        .rpc (.getClock s.params.clkId) a]
    ∧ (cntSample s).params = s.params ∧ (cntSample s).phase = s.phase ∧ (cntSample s).irq = s.irq
    ∧ (cntSample s).irqActive = s.irqActive ∧ (cntSample s).cop = s.cop
    ∧ (cntSample s).env.perf = s.env.perf.tail ∧ (cntSample s).env.rpc = s.env.rpc.tail
    ∧ (cntSample s).env.acks = s.env.acks ∧ FullView (cntSample s) (hostTurns 2 s) := by
  set u := (readPerf s).1.setX { (readPerf s).1.x with r := some (perfValue s) } with hu
  have hfu : FullView u (hostTurn s) := by
    constructor <;> first | (constructor <;> simp [hu]) | simp [hu]
  have hft : FullView (hostTurn u) (hostTurns 2 s) := hfu.hostTurn
  have ha : ∀ b rest, s.env.rpc = b :: rest → rpcAnswer u = b := by
    intro b rest h; simp [rpcAnswer, hu, h]
  have he : cntSample s = (latchClock (rpcAnswer u) (rpcCall (.getClock u.params.clkId) u).1).setX
      { (latchClock (rpcAnswer u) (rpcCall (.getClock u.params.clkId) u).1).x with
        d := (latchClock (rpcAnswer u) (rpcCall (.getClock u.params.clkId) u).1).x.c.map (delivered (perfValue s)) } := by
    simp [cntSample, hu]
  obtain ⟨c, hx⟩ := latchClock_c (rpcAnswer u) (rpcCall (.getClock u.params.clkId) u).1
  refine ⟨c, rpcAnswer u, ha, ?_, ?_, ?_, ?_, ?_, ?_, ?_, ?_, ?_, ?_, ?_, ?_⟩
  · intro hok
    have := latchClock_c_of_ok hok (rpcCall (.getClock u.params.clkId) u).1
    rw [hx] at this
    exact Option.some.inj this
  · rw [he, hx]; simp [hu]
  · rw [he]; simp [hu]
  · rw [he]; simp [hu]
  · rw [he]; simp [hu]
  · rw [he]; simp [hu]
  · rw [he]; simp [hu]
  · rw [he]; simp [copAfter, hu]
  · rw [he]; unfold latchClock; split <;> simp [hu]
  · rw [he]; unfold latchClock; split <;> simp [hu]
  · rw [he]; unfold latchClock; split <;> simp [hu]
  · rw [he]
    have hmem := hft.mem
    have hreads := hft.hostReads
    have htrig := hft.trig
    have hviol := hft.violation
    have hturns := hft.turns
    have hpar := hft.params
    have hph := hft.phase
    refine ⟨⟨?_, ?_, ?_, ?_, ?_⟩, ?_, ?_⟩
    · simpa using hpar
    · simpa using hph
    · simpa using htrig
    · simpa using hviol
    · rw [← hturns]; unfold latchClock; split <;> simp
    · simpa using hmem
    · simpa using hreads

/-- The response of `CMD.READ` (R146): while the host keeps its contract, the payload words, the signature and the
status hold what was written. -/
theorem cntRespond_fields {s : State} {r d : Word} (hp : s.params.wf = true) (hm : memoryWf s.mem = true)
    (hv : (cntRespond r d s).violation = false) :
    fieldValue .ch0 .payload0 (cntRespond r d s) = r.toNat ∧ fieldValue .ch0 .payload1 (cntRespond r d s) = d.toNat
      ∧ recordStamped .ch0 (cntRespond r d s) := by
  have kept : ∀ {f f' : Field} {v : Nat} {u : State}, u.params.wf = true → f ≠ f' → f' ≠ .command →
      (writeField .ch0 f v u).violation = false → fieldValue .ch0 f' (writeField .ch0 f v u) = fieldValue .ch0 f' u :=
    fun hw hne hc hvv => fieldValue_writeField_kept hw _ (by simpa using hne) hc hvv
  set w1 := writeField .ch0 .payload0 r.toNat s with hw1
  set w2 := writeField .ch0 .payload1 d.toNat w1 with hw2
  set w3 := writeField .ch0 .signature (sigOf w2.params.sigLayout .ch0).toNat w2 with hw3
  set w4 := writeField .ch0 .command w2.params.idleCmd.toNat w3 with hw4
  have he : cntRespond r d s = writeField .ch0 .status idleStatus.toNat w4 := rfl
  have m1 : memoryWf w1.mem = true := memoryWf_writeField hm _ _ _
  have m2 : memoryWf w2.mem = true := memoryWf_writeField m1 _ _ _
  have m3 : memoryWf w3.mem = true := memoryWf_writeField m2 _ _ _
  have m4 : memoryWf w4.mem = true := memoryWf_writeField m3 _ _ _
  have p1 : w1.params.wf = true := by simpa [hw1] using hp
  have p2 : w2.params.wf = true := by simpa [hw2] using p1
  have p3 : w3.params.wf = true := by simpa [hw3] using p2
  have p4 : w4.params.wf = true := by simpa [hw4] using p3
  rw [he] at hv ⊢
  have v4 : w4.violation = false := violation_of_writeField hv
  have v3 : w3.violation = false := violation_of_writeField v4
  have v2 : w2.violation = false := violation_of_writeField v3
  refine ⟨?_, ?_, ?_, ?_⟩
  · rw [kept p4 (by simp) (by simp) hv, kept p3 (by simp) (by simp) v4, kept p2 (by simp) (by simp) v3,
      kept p1 (by simp) (by simp) v2, fieldValue_writeField_same hm]
    exact Nat.mod_eq_of_lt r.isLt
  · rw [kept p4 (by simp) (by simp) hv, kept p3 (by simp) (by simp) v4, kept p2 (by simp) (by simp) v3,
      fieldValue_writeField_same m1]
    exact Nat.mod_eq_of_lt d.isLt
  · rw [kept p4 (by simp) (by simp) hv, kept p3 (by simp) (by simp) v4, fieldValue_writeField_same m2]
    have : (writeField .ch0 .status idleStatus.toNat w4).params = w2.params := by simp [hw4, hw3]
    rw [this]
    exact sig_mod _ _
  · rw [fieldValue_writeField_same m4]; rfl

/-- `CMD.READ` always completes: it samples, then responds with the sampled pair. -/
theorem exec_cmdRead {s : State} {r d : Word} (hr : (cntSample s).x.r = some r) (hd : (cntSample s).x.d = some d) :
    exec .cmdRead s = .next (cntRespond r d (cntSample s)) := by
  simp [exec, execCmdRead, hr, hd]

/-- Every instruction answers a next state in every state. -/
theorem exec_answers_next (i : Instr) (s : State) : ∃ t, exec i s = .next t := by
  cases i with
  | cmdRead =>
    obtain ⟨c, a, -, -, hx, -⟩ := cntSample_spec s
    exact ⟨_, exec_cmdRead (r := perfValue s) (d := delivered (perfValue s) c) (by rw [hx]) (by rw [hx])⟩
  | rpcGetClock =>
    cases hq : s.phase with
    | handling h => exact ⟨_, exec_rpcGetClock_handling hq⟩
    | uninit k => exact ⟨_, exec_rpcGetClock_outside (by simp [hq])⟩
    | idle => exact ⟨_, exec_rpcGetClock_outside (by simp [hq])⟩
  | trigCnt => exact ⟨_, rfl⟩
  | trigFan => exact ⟨_, rfl⟩
  | trigPwm d => exact ⟨_, rfl⟩
  | trigClk v => exact ⟨_, rfl⟩
  | cmdWrite => exact ⟨_, rfl⟩
  | cmdOther c => exact ⟨_, rfl⟩
  | rpcGetBoardRev => exact ⟨_, rfl⟩
  | rpcGetMaxClock => exact ⟨_, rfl⟩
  | rpcSetClock hz => exact ⟨_, rfl⟩
  | rpcGetPwm => exact ⟨_, rfl⟩
  | rpcSetPwm d => exact ⟨_, rfl⟩
  | rpcSetPower d on w => exact ⟨_, rfl⟩

/-! ### step -/

/-- A machine with admissible parameters steps by its phase. -/
theorem step_of_wf {s : State} (hw : s.params.wf = true) : step s = agentStep s := by simp [step, hw]

/-- A step that answers next ran with admissible parameters. -/
theorem wf_of_step {s t : State} (h : step s = .next t) : s.params.wf = true := by
  unfold step at h
  split at h
  · assumption
  · exact nomatch h

theorem step_uninit {s : State} {k : SStep} (hw : s.params.wf = true) (hp : s.phase = .uninit k) :
    step s = startupStep k s := by simp [step_of_wf hw, agentStep, hp]
theorem step_idle {s : State} (hw : s.params.wf = true) (hp : s.phase = .idle) : step s = idleStep s := by
  simp [step_of_wf hw, agentStep, hp]
theorem step_handling {s : State} {h : HStep} (hw : s.params.wf = true) (hp : s.phase = .handling h) :
    step s = handlerStep h s := by simp [step_of_wf hw, agentStep, hp]

/-! ### The steps in terms of transactions -/

theorem stepH1_eq (s : State) (h : ackId s = s.params.trigIrqId) :
    stepH1 s = .next (((gicAck s).1.setX { s.x with id := some s.params.trigIrqId }).setPhase (.handling .h2)) := by
  simp [stepH1, h]
theorem stepH1_foreign (s : State) (h : ackId s ≠ s.params.trigIrqId) : stepH1 s = .refused (.foreignAck (ackId s)) := by
  simp [stepH1, h]
theorem stepH2_eq (s : State) :
    stepH2 s = .next (((readTrig s).1.setX { s.x with v := some (hostTurn s).trig }).setPhase (.handling .h3)) := by
  simp [stepH2]
theorem stepH3_eq {s : State} {v : Word} (h : s.x.v = some v) :
    stepH3 s = .next ((writeTrig v s).setPhase (.handling .h4)) := by simp [stepH3, h]

/-- The request latches after all classes of a word have run (R121 to R125). -/
def decodedLatches (g : ClkGate) (v : Word) (x : Latches) : Latches :=
  { x with cnt := some (flagCnt v), fan := some (flagFan v), pwm := some (flagPwm v), clk := some (flagClk g v),
           duty := some (dutyOf v), mhz := some (clampMhz v) }

/-- A word's flag bit is set exactly if its class matches (R98). -/
theorem mask_iff_bit (v : Word) (i : Nat) (hi : i < 32) :
    v &&& BitVec.twoPow 32 i = BitVec.twoPow 32 i ↔ v.getLsbD i = true := by
  constructor
  · intro h
    have := congrArg (·.getLsbD i) h
    simpa [hi] using this
  · intro h
    ext j hj
    simp only [BitVec.getElem_and, BitVec.getElem_twoPow]
    by_cases hji : j = i
    · subst hji; simp [← BitVec.getLsbD_eq_getElem, h]
    · simp [hji]

theorem cnt_match_iff (v : Word) : v &&& cntMask = cntMatch ↔ flagCnt v = true :=
  mask_iff_bit v 28 (by decide)
theorem fan_match_iff (v : Word) : v &&& fanMask = fanMatch ↔ flagFan v = true :=
  mask_iff_bit v 29 (by decide)
theorem pwm_match_iff (v : Word) : v &&& pwmMask = pwmMatch ↔ flagPwm v = true :=
  mask_iff_bit v 30 (by decide)

theorem clk_match_iff (g : ClkGate) (v : Word) : v &&& clkMask g = clkMatch ↔ flagClk g v = true := by
  have hz : ∀ m : Word, v &&& m = 0#32 ↔ ∀ i, i < 32 → m.getLsbD i = true → v.getLsbD i = false := by
    intro m
    constructor
    · intro h i hi hm
      have := congrArg (·.getLsbD i) h
      simpa [hm] using this
    · intro h
      ext j hj
      have := h j hj
      simp only [← BitVec.getLsbD_eq_getElem]
      cases hm : m.getLsbD j with
      | false => simp [hm]
      | true => simp [this hm]
  rw [show clkMatch = 0#32 from rfl, hz]
  cases g with
  | notBit30 =>
    have hb : ∀ i, i < 32 → (clkMask .notBit30).getLsbD i = decide (i = 30) := by decide
    simp only [flagClk, flagPwm, bitPwm, Bool.not_eq_true']
    constructor
    · intro h; exact h 30 (by decide) (by decide)
    · intro h i hi hm
      rw [hb i hi, decide_eq_true_eq] at hm
      rw [hm]; exact h
  | noneOf28_29_30 =>
    have hb : ∀ i, i < 32 → (clkMask .noneOf28_29_30).getLsbD i = (decide (i = 28) || decide (i = 29) || decide (i = 30)) := by
      decide
    simp only [flagClk, flagPwm, flagFan, flagCnt, bitPwm, bitFan, bitCnt, Bool.and_eq_true, Bool.not_eq_true']
    constructor
    · intro h
      exact ⟨⟨h 30 (by decide) (by decide), h 29 (by decide) (by decide)⟩, h 28 (by decide) (by decide)⟩
    · rintro ⟨⟨h30, h29⟩, h28⟩ i hi hm
      rw [hb i hi] at hm
      simp only [Bool.or_eq_true, decide_eq_true_eq] at hm
      rcases hm with (rfl | rfl) | rfl <;> assumption

/-- The decoder's classes by the four flags. -/
theorem decodeTrigger_eq (g : ClkGate) (v : Word) : decodeTrigger g v =
    (if flagCnt v = true then [.trigCnt] else []) ++ (if flagFan v = true then [.trigFan] else [])
      ++ (if flagPwm v = true then [.trigPwm (dutyOf v)] else [])
      ++ (if flagClk g v = true then [.trigClk v] else []) := by
  simp only [decodeTrigger, cnt_match_iff, fan_match_iff, pwm_match_iff, clk_match_iff]

/-- Running the decoded classes on an opened request fills the request latches. -/
theorem execAll_decodeTrigger (g : ClkGate) (v : Word) (s : State) :
    execAll (decodeTrigger g v) (openRequest v s) = .next (s.setX (decodedLatches g v s.x)) := by
  rw [decodeTrigger_eq, decodedLatches, openRequest]
  cases flagCnt v <;> cases flagFan v <;> cases flagPwm v <;> cases flagClk g v <;> rfl

theorem stepH4_eq {s : State} {v : Word} (h : s.x.v = some v) : stepH4 s
    = .next (((hostTurn s).setX (decodedLatches s.params.clkGate v s.x)).setPhase (.handling .h5)) := by
  simp [stepH4, h, execAll_decodeTrigger]
theorem stepH5_skip {s : State} (h : s.x.cnt = some false) :
    stepH5 s = .next ((hostTurn s).setPhase (.handling .h6)) := by simp [stepH5, h]

/-- The state in which H5 runs the command's class: `command` read and latched. -/
def commandRead (s : State) : State :=
  (readField .ch0 .command s).1.setX
    { s.x with cmd0 := some (BitVec.ofNat 16 (fieldValue .ch0 .command (hostTurn s))) }

theorem stepH5_eq {s : State} (h : s.x.cnt = some true) : stepH5 s
    = andThen (exec (decodeCommand (BitVec.ofNat 16 (fieldValue .ch0 .command (hostTurn s)))) (commandRead s))
        fun t => .next (t.setPhase (.handling .h6)) := by
  simp [stepH5, h, cntService, commandRead]
theorem stepH6_skip {s : State} (h : s.x.fan = some false) :
    stepH6 s = .next ((hostTurn s).setPhase (.handling .h7)) := by simp [stepH6, h]
theorem stepH6_eq {s : State} (h : s.x.fan = some true) :
    stepH6 s = .next ((fanService s).setPhase (.handling .h7)) := by simp [stepH6, h]
theorem stepH7_pwm {s : State} {d : Byte} (h : s.x.pwm = some true) (hd : s.x.duty = some d) :
    stepH7 s = .next ((rpcCall (.setPwm (dutyArg d)) s).1.setPhase (.handling .h8)) := by simp [stepH7, h, hd]
theorem stepH7_clk {s : State} {m : Word} (h : s.x.pwm = some false) (hc : s.x.clk = some true)
    (hm : s.x.mhz = some m) :
    stepH7 s = .next ((rpcCall (.setClock s.params.clkId (hzOf m)) s).1.setPhase (.handling .h8)) := by
  simp [stepH7, h, hc, hm]
theorem stepH7_skip {s : State} (h : s.x.pwm = some false) (hc : s.x.clk = some false) :
    stepH7 s = .next ((hostTurn s).setPhase (.handling .h8)) := by simp [stepH7, h, hc]
theorem stepH9_eq {s : State} {i : Word} (h : s.x.id = some i) :
    stepH9 s = .next ((gicEoi i s).setPhase (.handling .h10)) := by simp [stepH9, h]

end Sys2Proof.Machine
end

