-- ==== Sys2Proof/Laws/Services.lean ====
section
/-! SUPPORT. What a service of an invocation (a channel service, a reset, a co-processor call, an empty turn) keeps,
said once for all of them, whatever the host does meanwhile. -/

namespace Sys2Proof.Machine

/-- Signature and status decide whether the records are stamped. -/
theorem recordsStamped_of_fields {s t : State} (hp : t.params = s.params)
    (h : ∀ c f, f ≠ .command → fieldValue c f t = fieldValue c f s) (hs : recordsStamped s) : recordsStamped t := by
  unfold recordsStamped recordStamped at *
  rw [hp, h .ch0 .signature (by simp), h .ch0 .status (by simp), h .ch1 .signature (by simp),
    h .ch1 .status (by simp)]
  exact hs

/-- A turn that leaves the contract flag clear keeps both records stamped. -/
theorem recordsStamped_hostTurn {s t : State} (hpw : s.params.wf = true) (hp : t.params = s.params)
    (hm : t.mem = (hostTurn s).mem) (hv : (hostTurn s).violation = false) (hs : recordsStamped s) :
    recordsStamped t := by
  refine recordsStamped_of_fields hp (fun c f hf => ?_) hs
  rw [← fieldValue_hostTurn hpw hv hf]
  simp [fieldValue, hp, hm]

/-- `RESET.BOTH` stamps both records while the host keeps its contract (R150). -/
theorem recordsStamped_resetBoth {s : State} (hp : s.params.wf = true) (hm : memoryWf s.mem = true)
    (hv : (resetIdle .ch1 (resetIdle .ch0 s)).violation = false) :
    recordsStamped (resetIdle .ch1 (resetIdle .ch0 s)) := by
  have hp0 : (resetIdle .ch0 s).params.wf = true := by simpa using hp
  have h0 := recordStamped_resetIdle hp hm .ch0 (violation_of_resetIdle hv)
  have kept : ∀ f, f ≠ .command →
      fieldValue .ch0 f (resetIdle .ch1 (resetIdle .ch0 s)) = fieldValue .ch0 f (resetIdle .ch0 s) :=
    fun f hf => fieldValue_resetIdle_kept hp0 (by simp) hf hv
  refine ⟨⟨?_, ?_⟩, recordStamped_resetIdle hp0 (memoryWf_resetIdle hm .ch0) .ch1 hv⟩
  · have h := (kept .signature (by simp)).trans h0.1
    simpa using h
  · exact (kept .status (by simp)).trans h0.2

/-- The counter response leaves Channel 1 alone but for `command`. -/
theorem fieldValue_cntRespond_ch1 {s : State} {r d : Word} (hp : s.params.wf = true)
    (hv : (cntRespond r d s).violation = false) (f : Field) (hf : f ≠ .command) :
    fieldValue .ch1 f (cntRespond r d s) = fieldValue .ch1 f s := by
  unfold cntRespond resetIdleCmd at *
  have v4 := violation_of_writeField hv
  have v3 := violation_of_writeField v4
  have v2 := violation_of_writeField v3
  have v1 := violation_of_writeField v2
  rw [fieldValue_writeField_kept (by simpa using hp) _ (by simp) hf hv,
    fieldValue_writeField_kept (by simpa using hp) _ (by simp) hf v4,
    fieldValue_writeField_kept (by simpa using hp) _ (by simp) hf v3,
    fieldValue_writeField_kept (by simpa using hp) _ (by simp) hf v2,
    fieldValue_writeField_kept (by simpa using hp) _ (by simp) hf v1]

/-- What a service of `n` transactions keeps. -/
structure Served (n : Nat) (s t : State) : Prop where
  control : ControlKept s t
  host : HostDecides n s t
  memory : memoryWf t.mem = true
  stamped : t.violation = false → recordsStamped s → recordsStamped t

theorem Served.hostView {n : Nat} {s t : State} (h : Served n s t) : HostView t (hostTurns n s) :=
  ⟨by rw [h.control.params, hostTurns_params], by rw [h.control.phase, hostTurns_phase], h.host.trig,
    h.host.violation, by rw [h.host.turns, hostTurns_turns]⟩

theorem HostView.hostTurns {s t : State} (h : HostView s t) (n : Nat) :
    HostView (hostTurns n s) (hostTurns n t) := by
  induction n generalizing s t with
  | zero => exact h
  | succ n ih => exact ih h.hostTurn

theorem hostTurns_add (n m : Nat) (s : State) : hostTurns (n + m) s = hostTurns m (hostTurns n s) := by
  induction m with
  | zero => rfl
  | succ m ih => rw [← Nat.add_assoc, hostTurns_succ, ih, hostTurns_succ]

/-- Two services one after the other are one service. -/
theorem Served.andThen {n m : Nat} {s t u : State} (h : Served n s t) (k : Served m t u) : Served (n + m) s u where
  control := ⟨k.control.params.trans h.control.params, k.control.phase.trans h.control.phase,
    k.control.irq.trans h.control.irq, k.control.irqActive.trans h.control.irqActive⟩
  host := by
    have v := h.hostView.hostTurns m
    rw [← hostTurns_add] at v
    exact ⟨k.host.trig.trans v.trig, k.host.violation.trans v.violation,
      by rw [k.host.turns, h.host.turns, List.drop_drop]⟩
  memory := k.memory
  stamped := fun hv hs => by
    have ht : t.violation = false := violation_of_hostTurns (by rw [← k.host.violation]; exact hv)
    exact k.stamped hv (h.stamped ht hs)

/-- The error path is a service of six transactions. -/
theorem cntError_served {s : State} (c : Half) (hp : s.params.wf = true) (hm : memoryWf s.mem = true) : Served 6 s (cntError c s) ∧ (cntError c s).x = s.x := by
  obtain ⟨e, sg, st, p0, p1, hc, he, ht, hv⟩ := cntError_spec c s
  have hp' : (emit e (errorReads s)).params.wf = true := by simpa using hp
  have hmm : memoryWf (emit e (errorReads s)).mem = true := memoryWf_emit ((ByteView.start 0 hm).errorReads (n := 0)).wfl e
  rw [hc]
  refine ⟨⟨⟨by simp, by simp, by simp, by simp⟩, ((((ByteView.start 0 hm).errorReads (n := 0)).toHostView.emit e).resetIdle .ch0).decides, memoryWf_resetIdle hmm _, ?_⟩, by simp⟩
  intro h hs
  have hve : (errorReads s).violation = false := by simpa using violation_of_resetIdle h
  refine ⟨recordStamped_resetIdle hp' hmm .ch0 h, ?_, ?_⟩
  · rw [fieldValue_resetIdle_kept hp' (by simp) (by simp) h, fieldValue_emit, fieldValue_errorReads hp (by simp) hve]
    simpa using hs.2.1
  · rw [fieldValue_resetIdle_kept hp' (by simp) (by simp) h, fieldValue_emit, fieldValue_errorReads hp (by simp) hve]
    exact hs.2.2

/-- The fan service is a service of seven transactions. -/
theorem fanService_served {s : State} (hp : s.params.wf = true) (hm : memoryWf s.mem = true) : Served 7 s (fanService s) ∧ (fanService s).x = s.x := by
  obtain ⟨e, sg, cm, st, p0, p1, hc, he, ht, hcm, hv⟩ := fanService_spec s
  have hp' : (emit e (fanReads s)).params.wf = true := by simpa using hp
  have hmm : memoryWf (emit e (fanReads s)).mem = true := memoryWf_emit ((ByteView.start 0 hm).fanReads (n := 0)).wfl e
  rw [hc]
  refine ⟨⟨⟨by simp, by simp, by simp, by simp⟩, ((((ByteView.start 0 hm).fanReads (n := 0)).toHostView.emit e).resetIdle .ch1).decides, memoryWf_resetIdle hmm _, ?_⟩, by simp⟩
  intro h hs
  have hve : (fanReads s).violation = false := by simpa using violation_of_resetIdle h
  refine ⟨⟨?_, ?_⟩, recordStamped_resetIdle hp' hmm .ch1 h⟩
  · rw [fieldValue_resetIdle_kept hp' (by simp) (by simp) h, fieldValue_emit, fieldValue_fanReads hp (by simp) hve]
    simpa using hs.1.1
  · rw [fieldValue_resetIdle_kept hp' (by simp) (by simp) h, fieldValue_emit, fieldValue_fanReads hp (by simp) hve]
    exact hs.1.2

/-- `CMD.READ` is a service of seven transactions. -/
theorem cmdRead_served {s : State} (hp : s.params.wf = true) (hm : memoryWf s.mem = true) : ∃ t, exec .cmdRead s = .next t ∧ Served 7 s t ∧ t.x = { s.x with r := t.x.r, c := t.x.c, d := t.x.d } := by
  obtain ⟨c, a, h1, h2, hx, ht, hpa, hph, hirq, hact, hcop, hperf, hrpc, hacks, hfv⟩ := cntSample_spec s
  have he := exec_cmdRead (r := perfValue s) (d := delivered (perfValue s) c) (s := s) (by rw [hx]) (by rw [hx])
  have hw : (cntSample s).params.wf = true := by rw [hpa]; exact hp
  have hm1 : memoryWf (cntSample s).mem = true := by rw [hfv.mem]; exact memoryWf_hostTurns hm
  have hv : HostView (cntRespond (perfValue s) (delivered (perfValue s) c) (cntSample s)) (hostTurns 7 s) :=
    ((((hfv.toHostView.writeField _ _ _).writeField _ _ _).writeField _ _ _).writeField _ _ _).writeField _ _ _
  refine ⟨_, he, ⟨⟨?_,?_,?_,?_⟩, hv.decides, ?_, ?_⟩, ?_⟩
  · simp [cntRespond, resetIdleCmd, hpa]
  · simp [cntRespond, resetIdleCmd, hph]
  · simp [cntRespond, resetIdleCmd, hirq]
  · simp [cntRespond, resetIdleCmd, hact]
  · exact memoryWf_writeField (memoryWf_writeField (memoryWf_writeField (memoryWf_writeField (memoryWf_writeField hm1 _ _ _) _ _ _) _ _ _) _ _ _) _ _ _
  · intro h hs
    have f0 := (cntRespond_fields hw hm1 h).2.2
    have hvs : (cntSample s).violation = false := 
      violation_of_writeField (violation_of_writeField (violation_of_writeField (violation_of_writeField (violation_of_writeField h))))
    have hv2 : (hostTurns 2 s).violation = false := by rw [← hfv.violation]; exact hvs
    have hv1 : (hostTurn s).violation = false := violation_of_hostTurn hv2
    have hk : ∀ f, f ≠ .command → fieldValue .ch1 f (cntSample s) = fieldValue .ch1 f s := by
      intro f hf
      have e2 := fieldValue_hostTurn (s := hostTurn s) (by simpa using hp) hv2 (c := .ch1) hf
      have e1 := fieldValue_hostTurn hp hv1 (c := .ch1) hf
      rw [← e1, ← e2]
      simp only [fieldValue, hpa, hfv.mem, hostTurn_params]; rfl
    refine ⟨f0, ?_, ?_⟩
    · rw [fieldValue_cntRespond_ch1 hw h _ (by simp), hk _ (by simp)]
      simpa [cntRespond, resetIdleCmd, hpa] using hs.2.1
    · rw [fieldValue_cntRespond_ch1 hw h _ (by simp), hk _ (by simp)]
      exact hs.2.2
  · simp [cntRespond, resetIdleCmd, hx]

/-- A co-processor call is a service of one transaction. -/
theorem rpcCall_served {s : State} (hp : s.params.wf = true) (hm : memoryWf s.mem = true) (op : RpcOp) : Served 1 s (rpcCall op s).1 := by
  refine ⟨⟨by simp, by simp, by simp, by simp⟩, ((HostView.refl s).rpcCall (n := 0) op).decides, by simpa using memoryWf_hostTurn hm, ?_⟩
  intro h hs
  exact recordsStamped_hostTurn hp (by simp) (by simp) (by simpa using h) hs
/-- An empty step is a service of one turn. -/
theorem hostTurn_served {s : State} (hp : s.params.wf = true) (hm : memoryWf s.mem = true) : Served 1 s (hostTurn s) := by
  refine ⟨⟨by simp, by simp, by simp, by simp⟩, ⟨rfl, rfl, by simp⟩, memoryWf_hostTurn hm, ?_⟩
  intro h hs
  exact recordsStamped_hostTurn hp (by simp) (by simp) h hs
/-- `RESET.BOTH` is a service of four transactions. -/
theorem resetBoth_served {s : State} (hp : s.params.wf = true) (hm : memoryWf s.mem = true) : Served 4 s (resetBoth s) := by
  refine ⟨⟨by simp [resetBoth], by simp [resetBoth], by simp [resetBoth], by simp [resetBoth]⟩, (((HostView.refl s).resetIdle (n := 0) .ch0).resetIdle .ch1).decides, memoryWf_resetIdle (memoryWf_resetIdle hm _) _, ?_⟩
  intro h _
  exact recordsStamped_resetBoth hp hm h

end Sys2Proof.Machine
end

