-- ==== Sys2Proof/Tests/Slice0.lean ====
section
/-! SUPPORT. The model's own tests: well-formedness smoke tests, words written out bit by bit from 30_encoding.md,
vectors of 95_test_vectors.md, and for every statement of the obligations a concrete state that meets its
hypotheses. Every expected value is the spec's. -/

namespace Sys2Proof.Tests

open Sys2Proof Sys2Proof.Machine

/-! ### Helpers -/

/-- The two records idle (R141), `command` and payload zero. -/
def primed : List Host.Cell :=
  writeLE (writeLE (writeLE (writeLE [] 0x1000 4 0x50434300) 0x1006 2 1) 0x1010 4 0x50434301) 0x1016 2 1

/-- A small configured state. -/
def mk (ph : Phase) (x : Latches) (env : Env) : State :=
  { State.reset with phase := ph, x := x, irq := triggerLineConfig Params.default, mem := primed,
                     irqActive := activeIn ph, env := env }

/-- The latches after H4 for a trigger word. -/
def latched (v : Word) : Latches := decodedLatches .noneOf28_29_30 v { id := some 0x21#32, v := some v }

/-- Inputs: every call succeeds with 1_500_000_000, PERF reads 1_500_000_000. -/
def feed : Env := { perf := [1500000000#32], rpc := [⟨true, 1500000000#32⟩, ⟨true, 0#32⟩, ⟨true, 0#32⟩] }

/-- A state with command word `c` in Channel 0 and step H5 next. -/
def mkCmd (c : Nat) : State :=
  (mk (.handling .h5) (latched 0x10000000#32) feed).setMem (writeLE primed 0x1004 2 c)

/-- The outcome is a next state that passes a check. -/
def sat (o : Host.Outcome State Fault Refusal) (p : State → Bool) : Bool :=
  match o with
  | .next t => p t
  | .fault _ => false
  | .refused _ => false

/-- The four bytes at an address. -/
def bytes4 (s : State) (a : Nat) : List Byte :=
  [readByte s.mem a, readByte s.mem (a + 1), readByte s.mem (a + 2), readByte s.mem (a + 3)]

/-! ### WellFormed: each check refuses an ill-formed term -/

theorem test_wf_clk_refuses_flag_bit : (Instr.trigClk 0x10000000#32).wf Params.default = false := by decide
theorem test_wf_clk_refuses_bit30_under_either_gate :
    (Instr.trigClk 0x40000000#32).wf { Params.default with clkGate := .notBit30 } = false := by decide
theorem test_wf_other_refuses_read : (Instr.cmdOther 0x0000#16).wf Params.default = false := by decide
theorem test_wf_other_refuses_write : (Instr.cmdOther 0x0001#16).wf Params.default = false := by decide
theorem test_wf_setClock_refuses_low : (Instr.rpcSetClock 599999999#32).wf Params.default = false := by decide
theorem test_wf_setClock_refuses_high : (Instr.rpcSetClock 2200000001#32).wf Params.default = false := by decide
theorem test_wf_setPwm_refuses_256 : (Instr.rpcSetPwm 256#32).wf Params.default = false := by decide
theorem test_wf_setPower_refuses_unknown_domain :
    (Instr.rpcSetPower 9#32 true true).wf Params.default = false := by decide
theorem test_wf_setPower_refuses_wrong_wait :
    (Instr.rpcSetPower 1#32 true false).wf Params.default = false := by decide
theorem test_wf_params_refuses_misaligned : { Params.default with ch0Base := 0x1002 }.wf = false := by decide
theorem test_wf_params_refuses_overlap : { Params.default with ch1Base := 0x100C }.wf = false := by decide
theorem test_wf_params_refuses_narrow_addresses : { Params.default with addrWidth := 31 }.wf = false := by decide
/-- Assumption 3: PERF's last byte past the top of the address space, and at the top. -/
theorem test_wf_params_refuses_region_past_the_top :
    { Params.default with perfAddr := 0x100000000 }.wf = false
      ∧ { Params.default with perfAddr := 0xFFFFFFFC }.wf = true := by decide

/-! ### Decode: words written out from the encodings of 30_encoding.md -/

theorem test_decode_cnt :
    decodeTableWord 32 0b00010000000000000000000000000000 = some .trigCnt := by decide
theorem test_decode_fan :
    decodeTableWord 32 0b00100000000000000000000000000000 = some .trigFan := by decide
theorem test_decode_pwm :
    decodeTableWord 32 0b01000000000000000000000000100000 = some (.trigPwm 32#8) := by decide
theorem test_decode_clk :
    decodeTableWord 32 0b00000000000000000000001010111100 = some (.trigClk 700#32) := by decide
theorem test_decode_read : decodeTableWord 16 0b0000000000000000 = some .cmdRead := by decide
theorem test_decode_write : decodeTableWord 16 0b0000000000000001 = some .cmdWrite := by decide
theorem test_decode_other : decodeTableWord 16 0b1011111011101111 = some (.cmdOther 0xBEEF#16) := by decide

/-- R91: a word is a set of classes, here all three flags (vector `0x70000055`). -/
theorem test_decode_all_flags :
    decodeTrigger .noneOf28_29_30 0x70000055#32 = [.trigCnt, .trigFan, .trigPwm 0x55#8] := by decide
/-- R101: bit 31 is no flag (vectors `0xC00000AB`, `0x80000000`). -/
theorem test_decode_bit31 : decodeTrigger .noneOf28_29_30 0xC00000AB#32 = [.trigPwm 0xAB#8]
    ∧ decodeTrigger .noneOf28_29_30 0x80000000#32 = [.trigClk 0x80000000#32] := by decide
/-- `90_conflicts.md` C1: the alternative gate adds the clock request (vector `0x10000005`). -/
theorem test_decode_notBit30 :
    decodeTrigger .notBit30 0x10000005#32 = [.trigCnt, .trigClk 0x10000005#32] := by decide
/-- The bytes of TRIG `0x40000020` as the bus holds them (R63). -/
theorem test_decode_bytes :
    decode .noneOf28_29_30 [0x20#8, 0x00#8, 0x00#8, 0x40#8] = .ok [.trigPwm 32#8] := by rfl
/-- R103: no other length is a word. -/
theorem test_decode_rejects_length : decode .noneOf28_29_30 [0x20#8] = .error (.badLength 1) := by rfl
/-- R104: `REQ.PWM 0x20` is `0x40000020`. -/
theorem test_encode_pwm : encode (.trigPwm 0x20#8) = some (32, 0x40000020) := by decide
theorem test_encode_clk : encode (.trigClk 700#32) = some (32, 0x2BC) := by decide
/-- R104: `REQ.CNT+FAN` is `0x30000000`. -/
theorem test_encode_cnt_fan : encodeClasses [.trigCnt, .trigFan] = 0x30000000#32 := by decide
theorem test_encode_commands : encode .cmdWrite = some (16, 1) ∧ encode (.cmdOther 7#16) = some (16, 7) := by decide

/-! ### Operands and arithmetic: vectors 2.1 and 2.2 -/

theorem test_clamp : clampMhz 599#32 = 600#32 ∧ clampMhz 600#32 = 600#32 ∧ clampMhz 1500#32 = 1500#32
    ∧ clampMhz 2200#32 = 2200#32 ∧ clampMhz 2201#32 = 2200#32 ∧ clampMhz 0x80000258#32 = 2200#32 := by decide
theorem test_hz : hzOf (clampMhz 3000#32) = 0x83215600#32 ∧ hzOf (clampMhz 100#32) = 0x23C34600#32
    ∧ hzOf 700#32 = 0x29B92700#32 := by decide
theorem test_delivered_truncates : delivered 1000#32 100000000#32 = 66#32
    ∧ delivered 1000#32 99999999#32 = 0#32 ∧ delivered 300000000#32 2200000000#32 = 0x1A39DE00#32 := by decide
theorem test_delivered_order : delivered 10#32 1990000000#32 = 12#32 := by decide
theorem test_delivered_wraps : delivered 0xFFFFFFFF#32 0xFFFFFFFF#32 = 0xCCCCCCCA#32 := by decide
/-- R29: the signature bytes in memory, under either layout. -/
theorem test_signature_bytes :
    (List.range 4).map (leByte (sigOf .acpi .ch1).toNat) = [0x01#8, 0x43#8, 0x43#8, 0x50#8]
      ∧ (List.range 4).map (leByte (sigOf .bytes .ch1).toNat) = [0x50#8, 0x43#8, 0x43#8, 0x01#8] := by decide

/-! ### One step or one instruction -/

/-- R121 and R122: the two flags are separate. -/
theorem test_exec_cnt : sat (exec .trigCnt State.reset) (fun t => decide (t.x.cnt = some true) && t.x.fan.isNone) := by
  decide
theorem test_exec_fan : sat (exec .trigFan State.reset) (fun t => decide (t.x.fan = some true) && t.x.cnt.isNone) := by
  decide
theorem test_exec_pwm : sat (exec (.trigPwm 32#8) State.reset)
    (fun t => decide (t.x.pwm = some true) && decide (t.x.duty = some 32#8)) := by decide
theorem test_exec_clk : sat (exec (.trigClk 3000#32) State.reset)
    (fun t => decide (t.x.clk = some true) && decide (t.x.mhz = some 2200#32)) := by decide

/-- Vector 2.3 CNT.READ (the source's §8.6): payload bytes `00 2F 68 59` twice. -/
theorem test_read_payload : sat (step (mkCmd 0)) (fun t =>
    decide (bytes4 t 0x1008 = [0x00#8, 0x2F#8, 0x68#8, 0x59#8])
      && decide (bytes4 t 0x100C = [0x00#8, 0x2F#8, 0x68#8, 0x59#8])) := by decide
/-- R142: signature, `IDLE_CMD` (here 0xFFFF), status `0x0001`; Channel 1 is left alone. -/
theorem test_read_resets : sat (step (mkCmd 0)) (fun t =>
    decide (bytes4 t 0x1000 = [0x00#8, 0x43#8, 0x43#8, 0x50#8])
      && decide (bytes4 t 0x1004 = [0xFF#8, 0xFF#8, 0x01#8, 0x00#8])
      && decide (fieldValue .ch1 .command t = 0)) := by decide
/-- Vector 2.3 CNT.ERR (write): `command` and payload unchanged, one log event. -/
theorem test_write_logs : sat (step (mkCmd 1)) (fun t =>
    decide (fieldValue .ch0 .command t = 1) && decide (fieldValue .ch0 .payload0 t = 0)
      && decide (Event.log (.protoCnt 1#16 0x50434300#32 1#16 0#64) ∈ t.trace)) := by decide
/-- Vector 2.3 CNT.ERR (other). -/
theorem test_other_logs : sat (step (mkCmd 0xBEEF)) (fun t =>
    decide (fieldValue .ch0 .command t = 0xBEEF)
      && decide (Event.log (.protoCnt 0xBEEF#16 0x50434300#32 1#16 0#64) ∈ t.trace)) := by decide
/-- Vector 2.5: `V = 0x10000000` with command 1 makes no call. -/
theorem test_write_makes_no_call : sat (step (mkCmd 1)) (fun t => decide (requestsOf t.trace = [])) := by decide

theorem test_getBoardRev : sat (exec .rpcGetBoardRev (mk .idle {} feed)) (fun t =>
    decide (t.trace = [.rpc .getBoardRev ⟨true, 1500000000#32⟩, .log (.diagBoardRev 1500000000#32 true)])) := by decide
theorem test_getMaxClock : sat (exec .rpcGetMaxClock (mk .idle {} feed)) (fun t =>
    decide (t.trace = [.rpc (.getMaxClock 3#32) ⟨true, 1500000000#32⟩, .log (.diagMaxClock 1500000000#32 true)])) := by
  decide
/-- R172's example. -/
theorem test_getClock_latches : sat (exec .rpcGetClock (mk (.handling .h5) {} feed)) (fun t =>
    decide (t.x.c = some 1500000000#32)) := by decide
/-- R24: startup writes no latch. -/
theorem test_getClock_startup : sat (exec .rpcGetClock (mk (.uninit .s4) {} feed)) (fun t => decide (t.x = {})) := by
  decide
theorem test_getPwm : sat (exec .rpcGetPwm (mk .idle {} feed)) (fun t =>
    decide (requestsOf t.trace = [.getPwm])) := by decide
/-- Vector 2.5: `V = 700`, the call fails, and the block goes on to H8. -/
theorem test_setClock_failure_ignored : sat
    (step (mk (.handling .h7) (latched 700#32) { rpc := [⟨false, 0#32⟩] }))
    (fun t => decide (requestsOf t.trace = [.setClock 3#32 700000000#32]) && decide (t.phase = .handling .h8)) := by
  decide
/-- R124's example: `SET_PWM(32)`; a success sets the co-processor's duty (R247). -/
theorem test_setPwm : sat (step (mk (.handling .h7) (latched 0x40000020#32) { rpc := [⟨true, 0#32⟩] }))
    (fun t => decide (requestsOf t.trace = [.setPwm 32#32]) && decide (t.cop.pwm = 32#32)) := by decide
/-- Under the default gate H7 issues no call for a counter request (R198). -/
theorem test_h7_no_call : sat (step (mk (.handling .h7) (latched 0x10000000#32) {}))
    (fun t => decide (t.trace = [])) := by decide
/-- R247: a failed `SET_POWER` leaves the domain as it was. -/
theorem test_setPower : sat (exec (.rpcSetPower 2#32 true true) (mk .idle {} { rpc := [⟨true, 0#32⟩] }))
    (fun t => t.cop.pd2On && !t.cop.pd1On) := by decide
theorem test_setPower_fails : sat (exec (.rpcSetPower 2#32 true true) (mk .idle {} { rpc := [⟨false, 0#32⟩] }))
    (fun t => !t.cop.pd2On) := by decide

/-- Vector 2.3 FAN.SVC: one handshake event, signature and status re-written. -/
theorem test_fan : sat (step (mk (.handling .h6) (latched 0x20000000#32) {})) (fun t =>
    decide (Event.log (.fanHandshake 0x50434301#32 0#16 1#16 0#64) ∈ t.trace)
      && decide (bytes4 t 0x1010 = [0x01#8, 0x43#8, 0x43#8, 0x50#8])) := by decide
/-- Vector 2.3, the final reset: a signature the host cleared is restored. -/
theorem test_final_reset_restores :
    sat (step ((mk (.handling .h8) (latched 700#32) {}).setMem [])) (fun t =>
      decide (bytes4 t 0x1000 = [0x00#8, 0x43#8, 0x43#8, 0x50#8])
        && decide (fieldValue .ch1 .status t = 1)) := by decide

/-- Vector 2.6: OR merges two raises before delivery; the merged word is delivered. -/
theorem test_raise_merges :
    sat (step (mk .idle {} { turns := [[.raise 0x10000000#32, .raise 0x300#32]] }))
      (fun t => decide (t.trig = 0x10000300#32) && decide (t.phase = .handling .h1) && !t.violation) := by decide
/-- Vector 2.6: a raise between H2 and H3 survives W1C. -/
theorem test_w1c_keeps_raise :
    sat (step ((mk (.handling .h3) { id := some 0x21#32, v := some 0x40000020#32 }
        { turns := [[.raise 0x300#32]] }).setTrig 0x40000020#32))
      (fun t => decide (t.trig = 0x300#32) && t.violation) := by decide
/-- Vector 2.6: `CLEAR_ALL` loses it. -/
theorem test_clearAll_loses_raise :
    sat (step (((mk (.handling .h3) { id := some 0x21#32, v := some 0x40000020#32 }
        { turns := [[.raise 0x300#32]] }).setTrig 0x40000020#32).setParams
          { Params.default with trigAckMode := .clearAll }))
      (fun t => decide (t.trig = 0#32)) := by decide
/-- R192: a foreign id is refused. -/
theorem test_foreign_ack : sat (step (mk (.handling .h1) {} { acks := [5#32] })) (fun _ => true) = false := by decide
/-- R10: a latch with no value is a fault, not a zero. -/
theorem test_latch_unset : sat (step (mk (.handling .h4) {} {})) (fun _ => true) = false := by decide
/-- R201: every latch is discarded. -/
theorem test_return_discards : sat (step (mk (.handling .h10) (latched 700#32) {}))
    (fun t => decide (t.x = {}) && decide (t.phase = .idle)) := by decide
/-- R242: the configuration of S2. -/
theorem test_configures : sat (step { State.reset with phase := .uninit .s2 })
    (fun t => decide (t.irq.group = .secure) && decide (t.irq.trigger = .level)) := by decide
/-- A table word placed by `withFetchWord` is the very next instruction. -/
theorem test_fetch_trigger : sat (step (State.reset.withFetchWord 32 0x40000020))
    (fun t => decide (t.x.pwm = some true) && decide (t.x.duty = some 0x20#8)) := by decide
theorem test_fetch_command : sat (step (State.reset.withFetchWord 16 0xBEEF))
    (fun t => decide (t.x.cmd0 = some 0xBEEF#16)) := by decide

/-! ### Witnesses: for every statement with hypotheses, a state that meets them together -/

/-- No host action, every latch of a word of all three flags. -/
def mkAll (h : HStep) : State := mk (.handling h) (latched 0x70000055#32) feed

/-- The state before H3 of the invocation for `0x40000020`, with a raise that falls between H2 and H3. -/
def mkRaise (m : TrigAckMode) : State :=
  ((mk (.handling .h3) { id := some 0x21#32, v := some 0x40000020#32 } { turns := [[.raise 0x300#32]] }).setTrig
    0x40000020#32).setParams { Params.default with trigAckMode := m }

theorem witness_PowerOnLeavesHardwareUnspecified : ∃ (e : Env) (d : Word) (rest : List Word), e.perf = d :: rest :=
  ⟨feed, 1500000000#32, [], rfl⟩

theorem witness_StartupEndsIdleWithBothChannelsPrimed : Params.default.wf = true ∧ memoryWf [(0x1004, 7#8)] = true
    ∧ sat (core.run 7 (State.powerOn Params.default [(0x1004, 7#8)] 5 IrqConfig.blank ⟨1, true, false, false⟩
        { rpc := List.replicate 7 ⟨true, 0#32⟩ })) (fun t => !t.violation) := by decide

theorem witness_StartupInitializesAndConfiguresController :
    (∃ s : State, s.params.wf = true ∧ s.phase = .uninit .s1) ∧ ∃ s : State, s.params.wf = true ∧ s.phase = .uninit .s2 :=
  ⟨⟨mk (.uninit .s1) {} {}, by decide, rfl⟩, ⟨mk (.uninit .s2) {} {}, by decide, rfl⟩⟩

theorem witness_InterruptConfigurationWrittenOnlyAtS2 :
    (∃ s t : State, step s = .next t ∧ s.phase ≠ .uninit .s2) ∧ ∃ s t : State, step s = .next t ∧ s.phase = .uninit .s2 :=
  ⟨⟨mk .idle {} {}, _, rfl, by decide⟩, ⟨mk (.uninit .s2) {} {}, _, rfl, rfl⟩⟩

theorem witness_StartupEnablesThreePowerDomains : ∃ s : State, s.params.wf = true ∧ s.phase = .uninit .s3 :=
  ⟨mk (.uninit .s3) {} {}, by decide, rfl⟩
theorem witness_StartupQueriesDiagnostics : ∃ s : State, s.params.wf = true ∧ s.phase = .uninit .s4 :=
  ⟨mk (.uninit .s4) {} {}, by decide, rfl⟩
theorem witness_StartupTurnsFanOff : ∃ s : State, s.params.wf = true ∧ s.phase = .uninit .s5 :=
  ⟨mk (.uninit .s5) {} {}, by decide, rfl⟩

theorem witness_StepsFollowTheFixedOrder :
    (∃ (s t : State) (h : HStep), step s = .next t ∧ s.phase = .handling h)
    ∧ (∃ (s t : State) (k : SStep), step s = .next t ∧ s.phase = .uninit k)
    ∧ (∃ s t : State, step s = .next t ∧ s.phase = .idle)
    ∧ (∃ s : State, s.params.wf = true ∧ s.phase = .handling .h5 ∧ s.x.cnt = some false)
    ∧ (∃ s : State, s.params.wf = true ∧ s.phase = .handling .h6 ∧ s.x.fan = some false)
    ∧ ∃ s : State, s.params.wf = true ∧ s.phase = .handling .h7 ∧ s.x.pwm = some false ∧ s.x.clk = some false :=
  ⟨⟨mk (.handling .h10) {} {}, _, _, rfl, rfl⟩, ⟨mk (.uninit .s7) {} {}, _, _, rfl, rfl⟩,
    ⟨mk .idle {} {}, _, rfl, rfl⟩, ⟨mk (.handling .h5) (latched 700#32) {}, by decide, rfl, by decide⟩,
    ⟨mk (.handling .h6) (latched 700#32) {}, by decide, rfl, by decide⟩,
    ⟨mk (.handling .h7) (latched 0x10000000#32) {}, by decide, rfl, by decide, by decide⟩⟩

theorem witness_DeliveryEntersHandlerAtH1 :
    (∃ s : State, s.params.wf = true ∧ s.phase = .idle ∧ (hostTurn s).trig ≠ 0 ∧ s.irq = triggerLineConfig s.params)
    ∧ (∃ s : State, s.params.wf = true ∧ s.phase = .idle ∧ (hostTurn s).trig = 0)
    ∧ (∃ s : State, s.params.wf = true ∧ s.phase = .idle ∧ (hostTurn s).trig ≠ 0 ∧ s.irq ≠ triggerLineConfig s.params)
    ∧ ∃ s : State, s.phase ≠ .idle :=
  ⟨⟨mk .idle {} { turns := [[.raise 1#32]] }, by decide, rfl, by decide, rfl⟩, ⟨mk .idle {} {}, by decide, rfl, by decide⟩,
    ⟨((mk .idle {} {}).setTrig 1#32).setIrq IrqConfig.blank, by decide, rfl, by decide, by decide⟩,
    ⟨State.reset, by decide⟩⟩

theorem witness_AcknowledgeLatchesTheLineId :
    (∃ s : State, s.params.wf = true ∧ s.phase = .handling .h1 ∧ ackId s = s.params.trigIrqId)
    ∧ ∃ s : State, s.params.wf = true ∧ s.phase = .handling .h1 ∧ ackId s ≠ s.params.trigIrqId :=
  ⟨⟨mk (.handling .h1) {} {}, by decide, rfl, by decide⟩, ⟨mk (.handling .h1) {} { acks := [5#32] }, by decide, rfl, by decide⟩⟩

/-- A state before H2 of the invocation for word 700 meets the invariant, and the host keeps its contract. -/
theorem witness_TriggerReadLatchesTheWord :
    ∃ s : State, s.params.wf = true ∧ s.phase = .handling .h2 ∧ Inv s ∧ sat (step s) (fun t => !t.violation) :=
  ⟨(mk (.handling .h2) { id := some 0x21#32 } {}).setTrig 700#32, by decide, rfl,
    ⟨by decide, by decide, rfl, fun _ => rfl, rfl, fun _ _ => ⟨⟨by decide, by decide⟩, ⟨by decide, by decide⟩⟩,
      fun _ => show (700#32 : Word) ≠ 0 by decide⟩, by decide⟩

theorem witness_TriggerWriteBackClearsTheWord : ∀ m : TrigAckMode,
    (mkRaise m).params.wf = true ∧ (mkRaise m).phase = .handling .h3 ∧ (mkRaise m).x.v = some 0x40000020#32
      ∧ (mkRaise m).params.trigAckMode = m
      ∧ (hostTurn (mkRaise m)).trig.getLsbD 8 = true ∧ (0x40000020#32 : Word).getLsbD 8 = false := by
  intro m; cases m <;> decide

theorem witness_DecodeFillsThePendingRequest :
    ∃ (s : State) (v : Word), s.params.wf = true ∧ s.phase = .handling .h4 ∧ s.x.v = some v :=
  ⟨mk (.handling .h4) { v := some 700#32 } {}, 700#32, by decide, rfl, rfl⟩

theorem witness_StepRunsTheDecodedInstruction :
    (∃ (s : State) (v : Word) (i : Instr), s.params.wf = true ∧ s.phase = .handling .h4 ∧ s.x.v = some v
      ∧ decodeTrigger s.params.clkGate v = [i])
    ∧ (∃ s : State, s.params.wf = true ∧ s.phase = .handling .h5 ∧ s.x.cnt = some true)
    ∧ (∃ (s : State) (d : Byte), s.params.wf = true ∧ s.phase = .handling .h7 ∧ s.x.pwm = some true ∧ s.x.duty = some d)
    ∧ (∃ (s : State) (m : Word), s.params.wf = true ∧ s.phase = .handling .h7 ∧ s.x.pwm = some false
      ∧ s.x.clk = some true ∧ s.x.mhz = some m)
    ∧ (State.reset.params.wf = true ∧ decodeTrigger State.reset.params.clkGate (BitVec.ofNat 32 700) = [.trigClk 700#32])
    ∧ State.reset.params.wf = true ∧ memoryWf State.reset.mem = true ∧ 0xFFFF < 65536 :=
  ⟨⟨mk (.handling .h4) { v := some 700#32 } {}, 700#32, .trigClk 700#32, by decide, rfl, rfl, by decide⟩,
    ⟨mkCmd 0, by decide, rfl, by decide⟩, ⟨mkAll .h7, 0x55#8, by decide, rfl, by decide, by decide⟩,
    ⟨mk (.handling .h7) (latched 700#32) {}, 700#32, by decide, rfl, by decide, by decide, by decide⟩,
    ⟨by decide, by decide⟩, by decide, by decide, by decide⟩

theorem witness_FanServiceLogsAndResetsChannelOne : (mkAll .h6).params.wf = true ∧ memoryWf (mkAll .h6).mem = true
    ∧ (mkAll .h6).phase = .handling .h6 ∧ (mkAll .h6).x.fan = some true
    ∧ sat (step (mkAll .h6)) (fun t => !t.violation) := by decide
theorem witness_FanService_silent : hostSilent 7 (mkAll .h6) ∧ ¬ inField (mkAll .h6).params .ch1 .signature 0x1014
    ∧ ¬ inField (mkAll .h6).params .ch1 .status 0x1014 :=
  ⟨fun _ hb => (nomatch hb), by unfold inField; decide, by unfold inField; decide⟩

theorem witness_RequestStepIssuesPwmOrClock : ∃ (s : State) (pwm clk : Bool) (d : Byte) (m : Word), s.params.wf = true
    ∧ s.phase = .handling .h7 ∧ s.x.pwm = some pwm ∧ s.x.clk = some clk ∧ s.x.duty = some d ∧ s.x.mhz = some m :=
  ⟨mkAll .h7, true, false, 0x55#8, 2200#32, by decide, rfl, by decide, by decide, by decide, by decide⟩

/-- The corner case under the default gate, for the counter bit and for the fan bit. -/
theorem witness_RequestStep_no_call : ∀ v ∈ [0x10000000#32, 0xAFFFFFFF#32],
    (mk (.handling .h7) (latched v) {}).params.wf = true ∧ (mk (.handling .h7) (latched v) {}).phase = .handling .h7
    ∧ (mk (.handling .h7) (latched v) {}).x.v = some v
    ∧ requestLatched .noneOf28_29_30 (mk (.handling .h7) (latched v) {}).x
    ∧ v.getLsbD 30 = false ∧ (v.getLsbD 28 = true ∨ v.getLsbD 29 = true) := by
  intro v hv
  refine ⟨show Params.default.wf = true by decide, rfl, rfl, ⟨v, rfl, rfl, rfl, rfl, rfl, rfl, rfl⟩, ?_⟩
  simp only [List.mem_cons, List.not_mem_nil, or_false] at hv
  rcases hv with rfl | rfl <;> decide

theorem witness_FinalResetStampsBothChannels : (mkAll .h8).params.wf = true ∧ memoryWf (mkAll .h8).mem = true
    ∧ (mkAll .h8).phase = .handling .h8 ∧ sat (step (mkAll .h8)) (fun t => !t.violation) := by decide
theorem witness_FinalReset_silent : hostSilent 4 (mkAll .h8)
    ∧ ∀ c, ¬ inField (mkAll .h8).params c .signature 0x1004 ∧ ¬ inField (mkAll .h8).params c .status 0x1004 :=
  ⟨fun _ hb => (nomatch hb), fun c => by cases c <;> (unfold inField; decide)⟩

theorem witness_EndOfInterruptNamesTheAcknowledgedId : ((mkAll .h9).setTrig 1#32).params.wf = true
    ∧ ((mkAll .h9).setTrig 1#32).phase = .handling .h9
    ∧ ((mkAll .h9).setTrig 1#32).x.id = some ((mkAll .h9).setTrig 1#32).params.trigIrqId
    ∧ sat (step ((mkAll .h9).setTrig 1#32)) (fun t => decide (t.trig ≠ 0)) := by decide

theorem witness_ReturnDiscardsEveryLatch : ((mkAll .h10).setTrig 1#32).params.wf = true
    ∧ ((mkAll .h10).setTrig 1#32).phase = .handling .h10
    ∧ sat (step ((mkAll .h10).setTrig 1#32)) (fun t => decide (t.trig ≠ 0) && lineConfigured t) := by decide

theorem witness_FullClassificationOfTriggerWords : (0x20000000#32 : Word).getLsbD 30 = false
    ∧ (0x20000000#32 : Word).getLsbD 29 = true ∧ (0x40000000#32 : Word).getLsbD 30 = true := by decide

theorem witness_CommandWordHasThreeClasses : (2#16 : Half) ≠ 0x0000#16 ∧ (2#16 : Half) ≠ 0x0001#16 := by decide

/-- The greatest clock word below the flag bits, and a request, which has no word. -/
theorem witness_DecodeOfEncodeIsTheInstruction : (Instr.trigClk 0x8FFFFFFF#32).wf Params.default = true
    ∧ encode (.trigClk 0x8FFFFFFF#32) = some (32, 0x8FFFFFFF)
    ∧ (Instr.rpcSetPwm 255#32).wf Params.default = true ∧ encode (.rpcSetPwm 255#32) = none := by decide

theorem witness_DecodeOfEncodedClassesIsTheSet : ∃ (cnt fan : Bool) (pwm : Option Byte),
    (cnt = true ∨ fan = true ∨ pwm.isSome = true)
    ∧ ∃ is : List Instr, is = (if cnt then [.trigCnt] else []) ++ (if fan then [.trigFan] else [])
        ++ (match pwm with | some d => [.trigPwm d] | none => []) :=
  ⟨true, true, some 0xFF#8, .inl rfl, _, rfl⟩

/-- The lengths next to the two words' lengths, and the empty list. -/
theorem witness_WrittenOutWordsDecode : ∀ n ∈ [0, 1, 3, 5],
    (List.replicate n (0#8 : Byte)).length ≠ 4 ∧ (List.replicate n (0#8 : Byte)).length ≠ 2 := by decide

theorem witness_DutyIsTheLowByte : (0x40000020#32 : Word) &&& 0xFF#32 = 0xA5B6C720#32 &&& 0xFF#32 := by decide

theorem witness_ClockOperandIsClamped : (599#32 : Word).toNat < 600 ∧ 2200 < (2201#32 : Word).toNat
    ∧ (0x80000000#32 : Word).getLsbD 31 = true := by decide

theorem witness_DeliveredCounterArithmetic : (99999999#32 : Word).toNat < 100000000 ∧ (14#32 : Word).toNat < 15
    ∧ (199999999#32 : Word).toNat / 100000000 = 1 ∧ (1599999999#32 : Word).toNat / 100000000 ≤ 15 := by decide

theorem witness_CounterReadSamplesAndResponds : (mkCmd 0).params.wf = true ∧ memoryWf (mkCmd 0).mem = true
    ∧ (mkCmd 0).env.rpc = ⟨true, 1500000000#32⟩ :: [⟨true, 0#32⟩, ⟨true, 0#32⟩]
    ∧ sat (exec .cmdRead (mkCmd 0)) (fun t => !t.violation) := by decide
theorem witness_CounterRead_silent : hostSilent 7 (mkCmd 0) := fun _ hb => (nomatch hb)

theorem witness_CounterReadFrame : ∃ s t : State, memoryWf s.mem = true ∧ exec .cmdRead s = .next t
    ∧ ¬ inRecord s.params .ch0 0x1010 := by
  obtain ⟨t, h⟩ := exec_answers_next .cmdRead (mkCmd 0)
  exact ⟨mkCmd 0, t, by decide, h, by unfold inRecord; decide⟩

theorem witness_CounterErrorLogsAndResets : (mkCmd 1).params.wf = true ∧ memoryWf (mkCmd 1).mem = true
    ∧ sat (exec .cmdWrite (mkCmd 1)) (fun t => !t.violation)
    ∧ sat (exec (.cmdOther 0xFFFF#16) (mkCmd 0xFFFF)) (fun t => !t.violation) := by decide
theorem witness_CounterError_silent : hostSilent 6 (mkCmd 1) := fun _ hb => (nomatch hb)

theorem witness_CounterErrorFrame : (∃ s t : State, memoryWf s.mem = true ∧ exec .cmdWrite s = .next t)
    ∧ (∃ (s t : State) (c : Half), memoryWf s.mem = true ∧ exec (.cmdOther c) s = .next t)
    ∧ ¬ inField Params.default .ch0 .signature 0x1004 ∧ ¬ inField Params.default .ch0 .status 0x1004 :=
  ⟨⟨mkCmd 1, _, by decide, rfl⟩, ⟨mkCmd 7, _, 7#16, by decide, rfl⟩, by unfold inField; decide, by unfold inField; decide⟩

theorem witness_GetClockCallsAndLatches : (mkCmd 0).phase = .handling .h5 ∧ (rpcAnswer (mkCmd 0)).ok = true
    ∧ ∀ h, (mk (.uninit .s4) {} feed).phase ≠ .handling h := ⟨rfl, rfl, fun _ h => (nomatch h)⟩

theorem witness_RequestFrame :
    (∃ s t : State, exec .rpcGetBoardRev s = .next t) ∧ (∃ s t : State, exec .rpcGetClock s = .next t)
    ∧ (∃ s t : State, exec .rpcGetMaxClock s = .next t) ∧ (∃ (s t : State) (hz : Word), exec (.rpcSetClock hz) s = .next t)
    ∧ (∃ s t : State, exec .rpcGetPwm s = .next t) ∧ (∃ (s t : State) (d : Word), exec (.rpcSetPwm d) s = .next t)
    ∧ ∃ (s t : State) (d : Word) (on w : Bool), exec (.rpcSetPower d on w) s = .next t :=
  ⟨⟨mkCmd 0, exec_answers_next _ _⟩, ⟨mkCmd 0, exec_answers_next _ _⟩, ⟨mkCmd 0, exec_answers_next _ _⟩,
    ⟨mkCmd 0, (exec_answers_next (.rpcSetClock 1#32) (mkCmd 0)).imp fun _ h => ⟨_, h⟩⟩, ⟨mkCmd 0, exec_answers_next _ _⟩,
    ⟨mkCmd 0, (exec_answers_next (.rpcSetPwm 1#32) (mkCmd 0)).imp fun _ h => ⟨_, h⟩⟩,
    ⟨mkCmd 0, (exec_answers_next (.rpcSetPower 1#32 true true) (mkCmd 0)).imp fun _ h => ⟨_, _, _, h⟩⟩⟩

theorem witness_AccessesAreLittleEndian : memoryWf primed = true ∧ 3 < 4 ∧ 2 ≤ 4 := by decide

theorem witness_PerfReadIsADraw : ∃ (s : State) (d : Word) (rest : List Word), s.env.perf = d :: rest :=
  ⟨mkCmd 0, 1500000000#32, [], rfl⟩

theorem witness_HostRaiseSetsTrigger :
    State.reset.params.trigRaiseMode = .or
    ∧ (State.reset.setParams { Params.default with trigRaiseMode := .replace }).params.trigRaiseMode = .replace
    ∧ (∃ h, (mkAll .h10).phase = .handling h) ∧ (mk .idle {} {}).phase = .idle := ⟨rfl, rfl, ⟨_, rfl⟩, rfl⟩

/-- The last byte of a slot, in a phase that is not UNINIT. -/
theorem witness_HostBreachSetsTheFlag : (∀ k, Phase.idle ≠ .uninit k) ∧ memoryWf primed = true
    ∧ 3 < slotBytes (.word 3) ∧ (∃ i, i < slotBytes (.word 1) ∧ ¬(4 ≤ slotOffset (.word 1) + i ∧ slotOffset (.word 1) + i < 6))
    ∧ ¬ ∃ i, i < slotBytes (.half 2) ∧ ¬(4 ≤ slotOffset (.half 2) + i ∧ slotOffset (.half 2) + i < 6) := by
  refine ⟨fun _ h => (nomatch h), by decide, by decide, ⟨2, by decide, by decide⟩, ?_⟩
  rintro ⟨i, hi, h⟩
  simp only [slotBytes, slotOffset] at *
  omega

theorem witness_BlockDoesNotDetectBreach : (∃ s t : State, step s = .next t) ∧ (∃ s r, step s = .fault r)
    ∧ ∃ s r, step s = .refused r :=
  ⟨⟨mk .idle {} {}, _, rfl⟩, ⟨mk (.handling .h3) {} {}, .latchUnset .v, rfl⟩,
    ⟨mk (.handling .h1) {} { acks := [5#32] }, .foreignAck 5#32, rfl⟩⟩

theorem witness_ViolationIsSticky : violates (mkAll .h5).phase (.raise 1#32) = true
    ∧ ∃ s t : State, step s = .next t ∧ s.violation = true :=
  ⟨rfl, (mk .idle {} {}).setViolation true, _, rfl, rfl⟩

theorem witness_HostCannotTouchTheBlock : ¬ inRecord Params.default .ch0 0x1020 ∧ ¬ inRecord Params.default .ch1 0x1020
    ∧ ¬ inRecord Params.default .ch0 0xFFF ∧ ¬ inRecord Params.default .ch1 0xFFF := by
  unfold inRecord; decide

/-- An idle state that meets the invariant, with a counter request about to be raised. -/
def idleInv : State := mk .idle {} { feed with turns := [[hostCommand .ch0 0#16, .raise 0x10000000#32]] }

theorem idleInv_inv : Inv idleInv :=
  ⟨by decide, by decide, rfl, fun _ => rfl, rfl, fun _ _ => ⟨⟨by decide, by decide⟩, ⟨by decide, by decide⟩⟩,
    fun _ => trivial⟩

theorem idleInv_delivers : deliverable (hostTurn idleInv) = true := by decide

theorem witness_EveryStepKeepsTheInvariant : ∃ s t : State, Inv s ∧ step s = .next t := by
  refine ⟨idleInv, enterHandler (hostTurn idleInv), idleInv_inv, ?_⟩
  rw [step_idle (by decide) rfl, idleStep]
  simp [idleInv_delivers]

theorem witness_InvariantStatesNeverFault : ∃ s : State, Inv s := ⟨idleInv, idleInv_inv⟩

theorem witness_EveryInvocationTerminatesWithinItsBounds : Inv idleInv ∧ idleInv.phase = .idle
    ∧ deliverable (hostTurn idleInv) = true ∧ ∀ i ∈ idleInv.env.acks.head?, i = idleInv.params.trigIrqId :=
  ⟨idleInv_inv, rfl, idleInv_delivers, fun _ hi => (nomatch hi)⟩

theorem witness_PayloadWrittenOnlyByCounterRead : memoryWf (mkCmd 1).mem = true
    ∧ sat (step (mkCmd 1)) (fun t => !t.violation)
    ∧ ¬((mkCmd 1).phase = .handling .h5 ∧ (mkCmd 1).x.cnt = some true ∧ fieldValue .ch0 .command (hostTurn (mkCmd 1)) = 0) := by
  decide

theorem witness_StepTouchesOnlyTheRecords : ∃ (s t : State) (a : Nat), step s = .next t
    ∧ ¬ inRecord s.params .ch0 a ∧ ¬ inRecord s.params .ch1 a :=
  ⟨mk .idle {} {}, _, 0x1020, rfl, by unfold inRecord; decide, by unfold inRecord; decide⟩

theorem witness_OnlyWriteBackClearsTheTrigger : ∃ s t : State, step s = .next t ∧ (∀ b ∈ s.env.turns, b = [])
    ∧ s.phase ≠ .handling .h3 := ⟨mk (.handling .h10) {} {}, _, rfl, by decide, by decide⟩

theorem witness_LatchesDoNotOutliveAnInvocation :
    (∃ s t : State, step s = .next t ∧ s.phase = .handling .h10) ∧ (∃ s t : State, step s = .next t ∧ ∃ k, s.phase = .uninit k)
    ∧ ∃ s t : State, step s = .next t ∧ s.phase = .idle :=
  ⟨⟨mk (.handling .h10) (latched 700#32) {}, _, rfl, rfl⟩, ⟨mk (.uninit .s1) {} {}, _, rfl, _, rfl⟩,
    ⟨mk .idle {} {}, _, rfl, rfl⟩⟩

theorem witness_HistoryGrowsAndParametersStay : ∃ s t : State, step s = .next t := ⟨mk .idle {} {}, _, rfl⟩

theorem witness_InadmissibleParametersAreRefused :
    (∃ s : State, s.params.wf = false) ∧ Params.default.wf = true ∧ inRecord Params.default .ch1 0x101F :=
  ⟨⟨State.reset.setParams { Params.default with trigAddr := 0x2001 }, by decide⟩, by decide, by unfold inRecord; decide⟩

theorem witness_OnlyAStuckStateStandsStill : (mk .idle {} {}).params.wf = true ∧ stuck (mk .idle {} {}) = true
    ∧ stuck idleInv = false := by decide

end Sys2Proof.Tests
end

section
/-! PROOFS of the family 10_state: which steps write the interrupt configuration (R36) and the latches (R24). Two
layers: the operations keep the configuration, so every handler step does; every startup step and IDLE keep the
latches, and all of them but S2 keep the configuration. -/

namespace Sys2Proof.Machine

/-! ### The operations keep the interrupt configuration -/

@[simp] theorem resetBoth_irq (s : State) : (resetBoth s).irq = s.irq := by simp [resetBoth]
@[simp] theorem resetBoth_x (s : State) : (resetBoth s).x = s.x := by simp [resetBoth]
@[simp] theorem commandRead_irq (s : State) : (commandRead s).irq = s.irq := by simp [commandRead]
@[simp] theorem cntRespond_irq (r d : Word) (s : State) : (cntRespond r d s).irq = s.irq := by
  simp [cntRespond, resetIdleCmd]
@[simp] theorem cntSample_irq (s : State) : (cntSample s).irq = s.irq := by simp [cntSample]

@[simp] theorem cntError_irq (c : Half) (s : State) : (cntError c s).irq = s.irq := by
  obtain ⟨e, _, _, _, _, heq, -⟩ := cntError_spec c s
  simp [heq]

@[simp] theorem fanService_irq (s : State) : (fanService s).irq = s.irq := by
  obtain ⟨e, _, _, _, _, _, heq, -⟩ := fanService_spec s
  simp [heq]

/-- No instruction writes the interrupt configuration. -/
theorem exec_irq {i : Instr} {s t : State} (h : exec i s = .next t) : t.irq = s.irq := by
  cases i with
  | cmdRead =>
    obtain ⟨r, -, hr⟩ := withLatch_eq_next h
    obtain ⟨d, -, hd⟩ := withLatch_eq_next hr
    cases hd
    simp
  | rpcGetClock =>
    cases hq : s.phase with
    | handling k => rw [exec_rpcGetClock_handling hq] at h; cases h; simp
    | uninit k => rw [exec_rpcGetClock_outside (by simp [hq])] at h; cases h; simp
    | idle => rw [exec_rpcGetClock_outside (by simp [hq])] at h; cases h; simp
  | trigCnt => cases h; rfl
  | trigFan => cases h; rfl
  | trigPwm d => cases h; rfl
  | trigClk v => cases h; rfl
  | cmdWrite => cases h; simp
  | cmdOther c => cases h; simp
  | rpcGetBoardRev => cases h; simp
  | rpcGetMaxClock => cases h; simp
  | rpcSetClock hz => cases h; simp
  | rpcGetPwm => cases h; simp
  | rpcSetPwm d => cases h; simp
  | rpcSetPower d on w => cases h; simp

/-! ### The steps of an invocation -/

theorem stepH5_irq {s t : State} (h : stepH5 s = .next t) : t.irq = s.irq := by
  obtain ⟨cnt, hc, -⟩ := withLatch_eq_next h
  cases cnt with
  | false => rw [stepH5_skip hc] at h; cases h; simp
  | true =>
    rw [stepH5_eq hc] at h
    obtain ⟨u, hu, ht⟩ := andThen_eq_next h
    cases ht
    simpa using exec_irq hu

theorem stepH6_irq {s t : State} (h : stepH6 s = .next t) : t.irq = s.irq := by
  obtain ⟨fan, hf, -⟩ := withLatch_eq_next h
  cases fan with
  | false => rw [stepH6_skip hf] at h; cases h; simp
  | true => rw [stepH6_eq hf] at h; cases h; simp

theorem stepH7_irq {s t : State} (h : stepH7 s = .next t) : t.irq = s.irq := by
  obtain ⟨pwm, -, hb⟩ := withLatch_eq_next h
  obtain ⟨u, hu, ht⟩ := andThen_eq_next hb
  cases ht
  rw [State.setPhase_irq]
  cases pwm with
  | true => obtain ⟨d, -, he⟩ := withLatch_eq_next hu; exact exec_irq he
  | false =>
    obtain ⟨clk, -, hc⟩ := withLatch_eq_next hu
    cases clk with
    | true => obtain ⟨m, -, he⟩ := withLatch_eq_next hc; exact exec_irq he
    | false => cases hc; simp

/-- No step of an invocation writes the interrupt configuration. -/
theorem handlerStep_irq {k : HStep} {s t : State} (h : handlerStep k s = .next t) : t.irq = s.irq := by
  cases k with
  | h1 =>
    by_cases hid : ackId s = s.params.trigIrqId
    · rw [handlerStep, stepH1_eq s hid] at h; cases h; simp
    · rw [handlerStep, stepH1_foreign s hid] at h; cases h
  | h2 => rw [handlerStep, stepH2_eq] at h; cases h; simp
  | h3 => obtain ⟨v, -, hv⟩ := withLatch_eq_next h; cases hv; simp
  | h4 =>
    obtain ⟨v, hv, -⟩ := withLatch_eq_next h
    rw [handlerStep, stepH4_eq hv] at h; cases h; simp
  | h5 => exact stepH5_irq h
  | h6 => exact stepH6_irq h
  | h7 => exact stepH7_irq h
  | h8 => cases h; simp
  | h9 => obtain ⟨i, -, hi⟩ := withLatch_eq_next h; cases hi; simp
  | h10 => cases h; simp [returnFromHandler]

/-! ### Startup and IDLE -/

/-- What a startup step writes of the block's latches and the controller's configuration: no latch, and the
configuration at S2 only (R24, R36). -/
theorem startupStep_keeps {k : SStep} {s t : State} (h : startupStep k s = .next t) :
    t.x = s.x ∧ (k ≠ .s2 → t.irq = s.irq) := by
  cases k with
  | s1 => cases h; simp
  | s2 => cases h; simp
  | s3 => cases h; simp
  | s4 => cases h; simp
  | s5 => cases h; simp
  | s6 => cases h; simp
  | s7 => cases h; simp

/-- Waiting and delivery write neither a latch nor the interrupt configuration (R190, R218). -/
theorem idleStep_keeps {s t : State} (h : idleStep s = .next t) : t.x = s.x ∧ t.irq = s.irq := by
  rw [idleStep] at h
  split at h <;> cases h <;> simp [enterHandler]

/-! ### Every step -/

/-- Every step but S2 leaves the interrupt configuration alone. -/
theorem step_irq {s t : State} (h : step s = .next t) (hs2 : s.phase ≠ .uninit .s2) : t.irq = s.irq := by
  have hw := wf_of_step h
  cases hq : s.phase with
  | uninit k =>
    have hk : k ≠ .s2 := by rintro rfl; exact hs2 hq
    exact (startupStep_keeps (step_uninit hw hq ▸ h)).2 hk
  | idle => exact (idleStep_keeps (step_idle hw hq ▸ h)).2
  | handling k => exact handlerStep_irq (step_handling hw hq ▸ h)

/-- S2 writes the configuration of R36. -/
theorem step_irq_s2 {s t : State} (h : step s = .next t) (hs2 : s.phase = .uninit .s2) :
    t.irq = triggerLineConfig s.params := by
  rw [step_uninit (wf_of_step h) hs2] at h
  cases h
  simp

/-- H10 empties every latch. -/
theorem step_x_h10 {s t : State} (h : step s = .next t) (hq : s.phase = .handling .h10) : t.x = {} := by
  rw [step_handling (wf_of_step h) hq] at h
  cases h
  simp [returnFromHandler]

/-- Settles O4: every step but S2 keeps the configuration, and S2 writes the six values of R36. -/
theorem interruptConfigurationWrittenOnlyAtS2 : Obligations.InterruptConfigurationWrittenOnlyAtS2 := by
  unfold Obligations.InterruptConfigurationWrittenOnlyAtS2
  intro s t h
  refine ⟨step_irq h, fun hs2 => ?_⟩
  rw [step_irq_s2 h hs2]
  exact ⟨rfl, rfl, rfl, rfl, rfl, rfl⟩

/-- Settles O57: H10 discards every latch, and the steps of startup and IDLE write none. -/
theorem latchesDoNotOutliveAnInvocation : Obligations.LatchesDoNotOutliveAnInvocation := by
  unfold Obligations.LatchesDoNotOutliveAnInvocation
  intro s t h
  have hw := wf_of_step h
  refine ⟨step_x_h10 h, ?_, fun hq => (idleStep_keeps (step_idle hw hq ▸ h)).1⟩
  rintro ⟨k, hq⟩
  exact (startupStep_keeps (step_uninit hw hq ▸ h)).1

end Sys2Proof.Machine
end

section
/-! PROOFS of the family 20_memory: little-endian accesses (R63). A read is the sum of its bytes; peeling byte `n` off
the top of a wider read shows that the narrower one is its remainder. -/

namespace Sys2Proof.Machine

/-- Byte `i` of a value, as a number: the digit at weight `256 ^ i`. -/
theorem leByte_toNat (v i : Nat) : (leByte v i).toNat = v / 256 ^ i % 256 := by
  rw [leByte, BitVec.toNat_ofNat]

/-- R63: a read is the sum of its bytes, byte `i` weighing `256 ^ i`. -/
theorem readLE_eq_sum (m : List Host.Cell) (a n : Nat) :
    readLE m a n = ∑ i ∈ Finset.range n, (readByte m (a + i)).toNat * 256 ^ i := by
  induction n with
  | zero => rfl
  | succ n ih => rw [readLE, Finset.sum_range_succ, ih]

/-- A byte above the low `k` weighs a multiple of `256 ^ k`, so a wider read agrees with the `k`-byte one modulo
that. -/
theorem readLE_mod (m : List Host.Cell) (a : Nat) {k n : Nat} (h : k ≤ n) :
    readLE m a n % 256 ^ k = readLE m a k := by
  induction n, h using Nat.le_induction with
  | base => exact Nat.mod_eq_of_lt (readLE_lt m a k)
  | succ n h ih =>
    have hdvd : 256 ^ k ∣ (readByte m (a + n)).toNat * 256 ^ n := (pow_dvd_pow 256 h).mul_left _
    obtain ⟨q, hq⟩ := hdvd
    rw [readLE, hq, Nat.add_mul_mod_self_left, ih]

/-- Settles O41: the sum by induction on the width, the written byte by `readByte_writeLE_inside`, the narrower read
by `readLE_mod`. -/
theorem accessesAreLittleEndian : Obligations.AccessesAreLittleEndian := by
  unfold Obligations.AccessesAreLittleEndian
  have hweight (i : Nat) : 2 ^ (8 * i) = 256 ^ i := pow_mul 2 8 i
  simp only [hweight]
  refine ⟨readLE_eq_sum, fun m a n v i hm hi => ?_, fun m a n k hk => (readLE_mod m a hk).symm⟩
  rw [readByte_writeLE_inside hm v hi, leByte_toNat]

end Sys2Proof.Machine
end

section
/-! PROOFS of the family 30_encoding: the classes of a trigger word (R98), the classes of a command word (R92), and the
operands of the PWM and clock requests (R95, R97). -/

namespace Sys2Proof.Machine

/-! ### The classes of a trigger word -/

theorem trigCnt_mem_decodeTrigger (g : ClkGate) (v : Word) :
    .trigCnt ∈ decodeTrigger g v ↔ v &&& cntMask = cntMatch := by simp [decodeTrigger]
theorem trigFan_mem_decodeTrigger (g : ClkGate) (v : Word) :
    .trigFan ∈ decodeTrigger g v ↔ v &&& fanMask = fanMatch := by simp [decodeTrigger]
theorem trigPwm_mem_decodeTrigger (g : ClkGate) (v : Word) (d : Byte) :
    .trigPwm d ∈ decodeTrigger g v ↔ v &&& pwmMask = pwmMatch ∧ d = dutyOf v := by simp [decodeTrigger]
theorem trigClk_mem_decodeTrigger (g : ClkGate) (v f : Word) :
    .trigClk f ∈ decodeTrigger g v ↔ v &&& clkMask g = clkMatch ∧ f = v := by simp [decodeTrigger]

/-- Under either gate a PWM request is no clock request: both gates ask for bit 30 clear (R98, R123). -/
theorem flagClk_eq_false_of_flagPwm {v : Word} (h : flagPwm v = true) (g : ClkGate) : flagClk g v = false := by
  cases g <;> simp [flagClk, h]

/-- Under the default gate a word that sets no flag is a clock request. -/
theorem flagClk_noneOf28_29_30_of_no_flag {v : Word} (hc : flagCnt v = false) (hf : flagFan v = false)
    (hp : flagPwm v = false) : flagClk .noneOf28_29_30 v = true := by
  simp [flagClk, hc, hf, hp]

theorem ite_singleton_sublist {α : Type} (p : Prop) [Decidable p] (a : α) :
    (if p then [a] else []).Sublist [a] := by
  split
  · exact .refl _
  · exact List.nil_sublist _

theorem decodeTrigger_sublist (g : ClkGate) (v : Word) :
    (decodeTrigger g v).Sublist [.trigCnt, .trigFan, .trigPwm (dutyOf v), .trigClk v] :=
  (((ite_singleton_sublist _ _).append (ite_singleton_sublist _ _)).append
    (ite_singleton_sublist _ _)).append (ite_singleton_sublist _ _)

theorem not_trigPwm_and_trigClk_mem (g : ClkGate) (v f : Word) (d : Byte) :
    ¬(.trigPwm d ∈ decodeTrigger g v ∧ .trigClk f ∈ decodeTrigger g v) := by
  rw [trigPwm_mem_decodeTrigger, trigClk_mem_decodeTrigger, pwm_match_iff, clk_match_iff]
  rintro ⟨⟨hp, -⟩, hc, -⟩
  simp [flagClk_eq_false_of_flagPwm hp] at hc

/-- A sublist of the four classes that holds four of them is all of them, and so holds PWM and CLK together. -/
theorem decodeTrigger_length_le (g : ClkGate) (v : Word) : (decodeTrigger g v).length ≤ 3 := by
  by_contra! h
  have hall := (decodeTrigger_sublist g v).eq_of_length_le h
  exact not_trigPwm_and_trigClk_mem g v v (dutyOf v) (by simp [hall])

theorem decodeTrigger_noneOf28_29_30_ne_nil (v : Word) : decodeTrigger .noneOf28_29_30 v ≠ [] := by
  intro h
  simp only [decodeTrigger_eq, List.append_eq_nil_iff, ite_eq_right_iff, List.cons_ne_self, imp_false,
    Bool.not_eq_true] at h
  obtain ⟨⟨⟨hc, hf⟩, hp⟩, hk⟩ := h
  simp [flagClk_noneOf28_29_30_of_no_flag hc hf hp] at hk

/-- Settles O20: the classes are the matches and masks of R98, and PWM excludes CLK by bit 30. -/
theorem triggerClassesMatchOnTheirOwn : Obligations.TriggerClassesMatchOnTheirOwn := by
  unfold Obligations.TriggerClassesMatchOnTheirOwn
  intro g v
  exact ⟨trigCnt_mem_decodeTrigger g v, trigFan_mem_decodeTrigger g v, trigPwm_mem_decodeTrigger g v,
    trigClk_mem_decodeTrigger _ v, trigClk_mem_decodeTrigger _ v, fun d f => not_trigPwm_and_trigClk_mem g v f d,
    decodeTrigger_length_le g v, decodeTrigger_noneOf28_29_30_ne_nil v, decodeTrigger_sublist g v⟩

/-! ### The classes of a command word -/

theorem decodeCommand_read : decodeCommand 0x0000#16 = .cmdRead := rfl
theorem decodeCommand_write : decodeCommand 0x0001#16 = .cmdWrite := rfl
theorem decodeCommand_other {c : Half} (hr : c ≠ 0x0000#16) (hw : c ≠ 0x0001#16) :
    decodeCommand c = .cmdOther c := by rw [decodeCommand, if_neg hr, if_neg hw]

/-- Settles O22: one equation per class. -/
theorem commandWordHasThreeClasses : Obligations.CommandWordHasThreeClasses := by
  unfold Obligations.CommandWordHasThreeClasses
  exact ⟨decodeCommand_read, decodeCommand_write, fun _ => decodeCommand_other⟩

/-! ### The operands of the PWM and clock requests -/

theorem dutyArg_toNat (d : Byte) : (dutyArg d).toNat = d.toNat := BitVec.toNat_setWidth_of_le (by decide)

theorem dutyOf_toNat (v : Word) : (dutyOf v).toNat = v.toNat % 256 := BitVec.toNat_setWidth ..

/-- R95: the argument of `SET_PWM` is the word with bits 31:8 cleared. -/
theorem dutyArg_dutyOf (v : Word) : dutyArg (dutyOf v) = v &&& 0xFF#32 := by
  apply BitVec.eq_of_toNat_eq
  rw [dutyArg_toNat, dutyOf_toNat, BitVec.toNat_and]
  exact (Nat.and_two_pow_sub_one_eq_mod v.toNat 8).symm

/-- Settles O26: the argument is the low byte's value, and the word enters it through that byte only. -/
theorem dutyIsTheLowByte : Obligations.DutyIsTheLowByte := by
  unfold Obligations.DutyIsTheLowByte
  intro v
  have hval : (dutyArg (dutyOf v)).toNat = v.toNat % 256 := by rw [dutyArg_toNat, dutyOf_toNat]
  refine ⟨hval, by omega, fun w hlow => ?_⟩
  rw [dutyArg_dutyOf, dutyArg_dutyOf, hlow]

/-- R96: the clamp fits 32 bits, so its value is the clamped value of the word. -/
theorem clampMhz_toNat (v : Word) : (clampMhz v).toNat = min (max v.toNat mhzMin) mhzMax := by
  rw [clampMhz, BitVec.toNat_ofNat, Nat.mod_eq_of_lt]
  exact (min_le_right _ _).trans_lt (by decide)

theorem clampMhz_bounds (v : Word) : mhzMin ≤ (clampMhz v).toNat ∧ (clampMhz v).toNat ≤ mhzMax := by
  rw [clampMhz_toNat]
  exact ⟨le_min (le_max_right _ _) (by decide), min_le_right _ _⟩

/-- R97: up to the greatest clock request the product in u32 is exact. -/
theorem hzOf_toNat {m : Word} (h : m.toNat ≤ mhzMax) : (hzOf m).toNat = m.toNat * hzPerMhz := by
  have hfit : mhzMax * hzPerMhz < 2 ^ 32 := by decide
  rw [hzOf, BitVec.toNat_mul, BitVec.toNat_ofNat, Nat.mod_eq_of_lt (a := hzPerMhz) (by decide), Nat.mod_eq_of_lt]
  exact (Nat.mul_le_mul_right _ h).trans_lt hfit

/-- Settles O28: the clamp keeps the product within u32, and scales its bounds. -/
theorem clockRequestInHzDoesNotOverflow : Obligations.ClockRequestInHzDoesNotOverflow := by
  unfold Obligations.ClockRequestInHzDoesNotOverflow
  intro v
  obtain ⟨hmin, hmax⟩ := clampMhz_bounds v
  have hval := hzOf_toNat hmax
  refine ⟨hval, ?_, ?_⟩ <;> rw [hval]
  · exact Nat.mul_le_mul_right hzPerMhz hmin
  · exact Nat.mul_le_mul_right hzPerMhz hmax

end Sys2Proof.Machine
end

section
/-! PROOFS of the family 43_dispatch_sequencer: the one order of the steps (R191), and what H2, H3, H7, H9 and H10 do
(R193, R194, R198, R200, R201). The first layer says where a step leaves the sequencer, once per step; then one part per
step. -/

namespace Sys2Proof.Machine

/-! ### The order of the steps -/

/-- A step that ends by moving to a phase ends in that phase. -/
theorem phase_of_andThen_setPhase {o : Host.Outcome State Fault Refusal} {p : Phase} {t : State}
    (h : andThen o (fun s => .next (s.setPhase p)) = .next t) : t.phase = p := by
  obtain ⟨u, -, hu⟩ := andThen_eq_next h
  cases hu
  rfl

/-- R191: a step of an invocation that answers next leaves the sequencer at the following step. -/
theorem handlerStep_phase {k : HStep} {s t : State} (h : handlerStep k s = .next t) : t.phase = nextStep k := by
  cases k with
  | h1 =>
    by_cases hid : ackId s = s.params.trigIrqId
    · rw [handlerStep, stepH1_eq s hid] at h; cases h; rfl
    · rw [handlerStep, stepH1_foreign s hid] at h; cases h
  | h2 => cases h; rfl
  | h3 => obtain ⟨v, -, hv⟩ := withLatch_eq_next h; cases hv; rfl
  | h4 => obtain ⟨v, -, hv⟩ := withLatch_eq_next h; exact phase_of_andThen_setPhase hv
  | h5 => obtain ⟨cnt, -, hc⟩ := withLatch_eq_next h; exact phase_of_andThen_setPhase hc
  | h6 => obtain ⟨fan, -, hf⟩ := withLatch_eq_next h; cases hf; rfl
  | h7 => obtain ⟨pwm, -, hb⟩ := withLatch_eq_next h; exact phase_of_andThen_setPhase hb
  | h8 => cases h; rfl
  | h9 => obtain ⟨i, -, hi⟩ := withLatch_eq_next h; cases hi; rfl
  | h10 => cases h; rfl

/-- R240: a startup step that answers next leaves the sequence at the following step. -/
theorem startupStep_phase {k : SStep} {s t : State} (h : startupStep k s = .next t) : t.phase = nextStartup k := by
  cases k with
  | s1 => cases h; rfl
  | s2 => cases h; rfl
  | s3 => cases h; rfl
  | s4 => cases h; rfl
  | s5 => cases h; rfl
  | s6 => cases h; rfl
  | s7 => cases h; rfl

/-- IDLE waits, or delivery enters the handler at H1 (R190). -/
theorem idleStep_phase {s t : State} (hp : s.phase = .idle) (h : idleStep s = .next t) :
    t.phase = .idle ∨ t.phase = .handling .h1 := by
  rw [idleStep] at h
  split at h
  · cases h; exact .inr rfl
  · cases h; exact .inl (by rw [hostTurn_phase, hp])

/-- Settles O8: the phase after each step by `handlerStep_phase`, `startupStep_phase` and `idleStep_phase`, the steps
whose condition is false by their own equations. -/
theorem stepsFollowTheFixedOrder : Obligations.StepsFollowTheFixedOrder := by
  unfold Obligations.StepsFollowTheFixedOrder
  refine ⟨fun s t h => ?_, fun s hw hp hcnt => ?_, fun s hw hp hfan => ?_, fun s hw hp hpwm hclk => ?_⟩
  · have hw := wf_of_step h
    exact ⟨fun k hp => handlerStep_phase (step_handling hw hp ▸ h),
      fun k hp => startupStep_phase (step_uninit hw hp ▸ h), fun hp => idleStep_phase hp (step_idle hw hp ▸ h)⟩
  · rw [step_handling hw hp, handlerStep, stepH5_skip hcnt]
  · rw [step_handling hw hp, handlerStep, stepH6_skip hfan]
  · rw [step_handling hw hp, handlerStep, stepH7_skip hpwm hclk]

/-! ### H2 reads the trigger word -/

/-- While the host keeps its contract, the word H2 reads is nonzero: the delivery needed one, and no host action
between delivery and H2 may touch TRIG (R102, R193). -/
theorem Inv.trig_ne_zero_h2 {s : State} (hi : Inv s) (hp : s.phase = .handling .h2)
    (hv : (hostTurn s).violation = false) : (hostTurn s).trig ≠ 0 := by
  have hfit : trigFits s := hi.trig (violation_of_hostTurn hv)
  rw [trigFits, hp] at hfit
  rwa [trig_hostTurn_handling hp hv]

/-- Settles O11: the read's own laws, and `Inv.trig_ne_zero_h2` for the word. -/
theorem triggerReadLatchesTheWord : Obligations.TriggerReadLatchesTheWord := by
  unfold Obligations.TriggerReadLatchesTheWord
  intro s hw hp
  refine ⟨_, by rw [step_handling hw hp, handlerStep, stepH2_eq], rfl, rfl, by simp, by simp, by simp, ?_⟩
  intro hi hv
  have hv' : (hostTurn s).violation = false := by simpa using hv
  simpa using hi.trig_ne_zero_h2 hp hv'

/-! ### H3 writes the trigger word back -/

/-- R34: a W1C write clears exactly the bits of the written word. -/
theorem ackedTrig_w1c_getLsbD (t v : Word) {i : Nat} (hi : i < 32) :
    (ackedTrig .w1c t v).getLsbD i = (t.getLsbD i && !v.getLsbD i) := by
  simp [ackedTrig, hi]

theorem lineLevel_of_ne_zero {s : State} (h : s.trig ≠ 0) : lineLevel s = true := decide_eq_true h

/-- R37: one set bit asserts the line. -/
theorem lineLevel_of_getLsbD {s : State} {i : Nat} (h : s.trig.getLsbD i = true) : lineLevel s = true := by
  refine lineLevel_of_ne_zero fun hz => ?_
  simp [hz] at h

/-- Settles O12: `ackedTrig_w1c_getLsbD` gives each bit under W1C, and a bit outside the written word is still set. -/
theorem triggerWriteBackClearsTheWord : Obligations.TriggerWriteBackClearsTheWord := by
  unfold Obligations.TriggerWriteBackClearsTheWord
  intro s v hw hp hv
  refine ⟨_, by rw [step_handling hw hp, handlerStep, stepH3_eq hv], rfl, by simp, fun hmode => ?_, fun hmode => ?_,
    fun w => by rw [hp]; rfl, by simp, by simp⟩
  · have hbit : ∀ i, i < 32 → ((writeTrig v s).setPhase (.handling .h4)).trig.getLsbD i
        = ((hostTurn s).trig.getLsbD i && !v.getLsbD i) := fun i hi => by
      rw [State.setPhase_trig, writeTrig_trig, hmode, ackedTrig_w1c_getLsbD _ _ hi]
    refine ⟨hbit, ?_⟩
    rintro ⟨i, hset, hclear⟩
    have hi : i < 32 := BitVec.lt_of_getLsbD hset
    exact lineLevel_of_getLsbD (i := i) (by rw [hbit i hi, hset, hclear]; rfl)
  · simp [lineLevel, hmode, ackedTrig]

/-! ### H7 issues the request -/

/-- Under the default gate a word with a channel request set is no clock request (R123). -/
theorem flagClk_noneOf28_29_30_of_channel {v : Word} (h : flagCnt v = true ∨ flagFan v = true) :
    flagClk .noneOf28_29_30 v = false := by
  rcases h with h | h <;> simp [flagClk, h]

/-- Settles O16: one equation of H7 per case of `pwm` and `clk`; in the corner case both are false. -/
theorem requestStepIssuesPwmOrClock : Obligations.RequestStepIssuesPwmOrClock := by
  unfold Obligations.RequestStepIssuesPwmOrClock
  constructor
  · intro s pwm clk d m hw hp hpwm hclk hd hm
    rw [step_handling hw hp, handlerStep]
    cases pwm with
    | true => exact ⟨_, stepH7_pwm hpwm hd, rfl, by simp, by simp [dutyArg], by simp, by simp⟩
    | false =>
      cases clk with
      | true => exact ⟨_, stepH7_clk hpwm hclk hm, rfl, by simp, by simp [hzOf, hzPerMhz], by simp, by simp⟩
      | false => exact ⟨_, stepH7_skip hpwm hclk, rfl, by simp, by simp, by simp, by simp⟩
  · intro s v hw hp hv hreq h30 hchan
    obtain ⟨w, hw', -, -, hpwm, hclk, -, -⟩ := hreq
    obtain rfl : w = v := Option.some.inj (hw'.symm.trans hv)
    have hpwm' : s.x.pwm = some false := hpwm.trans (congrArg some h30)
    have hclk' : s.x.clk = some false := hclk.trans (congrArg some (flagClk_noneOf28_29_30_of_channel hchan))
    rw [step_handling hw hp, handlerStep]
    exact ⟨_, stepH7_skip hpwm' hclk', rfl, by simp⟩

/-! ### H9 ends the interrupt, H10 returns -/

/-- H10 makes no transaction: after the host's turn it returns (R201). -/
theorem step_h10_eq {s : State} (hw : s.params.wf = true) (hp : s.phase = .handling .h10) :
    step s = .next (returnFromHandler (hostTurn s)) := by rw [step_handling hw hp, handlerStep, stepH10]

section
variable (s : State)
@[simp] theorem returnFromHandler_phase : (returnFromHandler s).phase = .idle := rfl
@[simp] theorem returnFromHandler_x : (returnFromHandler s).x = {} := rfl
@[simp] theorem returnFromHandler_mem : (returnFromHandler s).mem = s.mem := rfl
@[simp] theorem returnFromHandler_trig : (returnFromHandler s).trig = s.trig := rfl
@[simp] theorem returnFromHandler_trace : (returnFromHandler s).trace = s.trace := rfl
end

/-- R215: with the active state ended, a nonzero TRIG makes the line pending. -/
theorem linePending_of_trig {s : State} (ha : s.irqActive = false) (ht : s.trig ≠ 0) : linePending s = true := by
  simp [linePending, lineLevel_of_ne_zero ht, ha]

/-- R190: in IDLE a configured line with a nonzero TRIG may be delivered. -/
theorem deliverable_of_trig {s : State} (hp : s.phase = .idle) (ht : s.trig ≠ 0) (hc : lineConfigured s = true) :
    deliverable s = true := by
  simp [deliverable, lineLevel_of_ne_zero ht, hp, hc]

/-- Settles O18: the EOI names the line's own id, so its active state ends; the step after it is H10. -/
theorem endOfInterruptNamesTheAcknowledgedId : Obligations.EndOfInterruptNamesTheAcknowledgedId := by
  unfold Obligations.EndOfInterruptNamesTheAcknowledgedId
  intro s hw hp hid
  set t := (gicEoi s.params.trigIrqId s).setPhase (.handling .h10) with ht
  have hstep : step s = .next t := by rw [step_handling hw hp, handlerStep, stepH9_eq hid]
  have hact : t.irqActive = false := by simp [ht]
  have hwt : t.params.wf = true := by simpa [ht] using hw
  exact ⟨t, hstep, rfl, hact, by simp [ht], linePending_of_trig hact, ⟨_, step_h10_eq hwt rfl, by simp, by simp⟩,
    by simp [ht], by simp [ht], by simp [ht]⟩

/-- Settles O19: `step_h10_eq`, and `deliverable_of_trig` for the next delivery. -/
theorem returnDiscardsEveryLatch : Obligations.ReturnDiscardsEveryLatch := by
  unfold Obligations.ReturnDiscardsEveryLatch
  intro s hw hp
  exact ⟨_, step_h10_eq hw hp, rfl, rfl, rfl, rfl, rfl, rfl, rfl, rfl, rfl, rfl, rfl, rfl, rfl, by simp, by simp,
    by simp, deliverable_of_trig rfl⟩

end Sys2Proof.Machine
end

section
/-! PROOFS of the family 70_reset_and_hazards: S5 turns the fan off (R245). S5 is one co-processor call, so its frame
is that of `rpcCall`. -/

namespace Sys2Proof.Machine

/-- One co-processor call leaves to the host's one turn what the host alone decides. -/
theorem rpcCall_hostDecides (op : RpcOp) (s : State) : HostDecides 1 s (rpcCall op s).1 :=
  ((HostView.refl s).rpcCall (n := 0) op).decides

/-- S5 is the call `SET_PWM(0)`, whose answer it does not look at. -/
theorem stepS5_eq (s : State) : stepS5 s = .next ((rpcCall (.setPwm 0) s).1.setPhase (.uninit .s6)) := by
  rw [stepS5, exec_rpcSetPwm, andThen_next]

/-- Settles O7: S5 is one call by `stepS5_eq`, and what the call leaves alone are the laws of `rpcCall`. -/
theorem startupTurnsFanOff : Obligations.StartupTurnsFanOff := by
  unfold Obligations.StartupTurnsFanOff
  intro s hw hp
  have hstep : step s = .next ((rpcCall (.setPwm 0) s).1.setPhase (.uninit .s6)) := by
    rw [step_uninit hw hp, startupStep, stepS5_eq]
  exact ⟨_, hstep, rfl, by simp, by simp, by simp, by simp, by simp, by simp,
    (rpcCall_hostDecides _ s).setPhase _⟩

end Sys2Proof.Machine
end

section
/-! PROOFS of the decoder and encoder round trips (30_encoding.md, 40_trigger_decoder.md): the bytes of a word give the
word back, and the flags of an encoded word are those of the classes it encodes, so decoding finds these classes. -/

namespace Sys2Proof.Machine

/-! ### The bytes of a word -/

@[simp] theorem length_leBytes (n v : Nat) : (leBytes n v).length = n := by
  induction n generalizing v with
  | zero => rfl
  | succ n ih => rw [leBytes, List.length_cons, ih]

/-- R63: the `n` bytes of a value are the value at that width. -/
theorem leValue_leBytes (n v : Nat) : leValue (leBytes n v) = v % 256 ^ n := by
  induction n generalizing v with
  | zero => rw [pow_zero, Nat.mod_one]; rfl
  | succ n ih =>
    have hbyte : (BitVec.ofNat 8 v).toNat = v % 256 := BitVec.toNat_ofNat ..
    rw [leBytes, leValue, ih, hbyte, pow_succ', Nat.mod_mul]

theorem decode_trigger_bytes (g : ClkGate) (v : Word) :
    decode g (leBytes 4 v.toNat) = .ok (decodeTrigger g v) := by
  rw [decode, if_pos (length_leBytes ..), leValue_leBytes, Nat.mod_eq_of_lt (b := 256 ^ 4) v.isLt, BitVec.ofNat_toNat,
    BitVec.setWidth_eq]

theorem decode_command_bytes (g : ClkGate) (c : Half) :
    decode g (leBytes 2 c.toNat) = .ok [decodeCommand c] := by
  have hlen : (leBytes 2 c.toNat).length = 2 := length_leBytes ..
  rw [decode, if_neg (by simp), if_pos hlen, leValue_leBytes, Nat.mod_eq_of_lt (b := 256 ^ 2) c.isLt,
    BitVec.ofNat_toNat, BitVec.setWidth_eq]

/-- A trigger word of the table stands for the class serviced first (assumption 13). -/
theorem decodeTableWord_trigger (v : Word) :
    decodeTableWord 32 v.toNat = (decodeTrigger .noneOf28_29_30 v).head? := by
  rw [decodeTableWord, decode_trigger_bytes]
  change _ = (decodeTrigger Params.default.clkGate v).head?
  cases decodeTrigger Params.default.clkGate v with
  | nil => rfl
  | cons i is => rfl

theorem decodeTableWord_command (c : Half) {w : Nat} (hw : w = c.toNat) :
    decodeTableWord 16 w = some (decodeCommand c) := by
  rw [hw, decodeTableWord, decode_command_bytes]

/-! ### The flags and the operand of an encoded word -/

@[simp] theorem flagCnt_or (v w : Word) : flagCnt (v ||| w) = (flagCnt v || flagCnt w) := BitVec.getLsbD_or
@[simp] theorem flagFan_or (v w : Word) : flagFan (v ||| w) = (flagFan v || flagFan w) := BitVec.getLsbD_or
@[simp] theorem flagPwm_or (v w : Word) : flagPwm (v ||| w) = (flagPwm v || flagPwm w) := BitVec.getLsbD_or
@[simp] theorem dutyOf_or (v w : Word) : dutyOf (v ||| w) = dutyOf v ||| dutyOf w := BitVec.setWidth_or

/-- A duty lies below the flag bits (R90). -/
@[simp] theorem getLsbD_setWidth_byte (d : Byte) {i : Nat} (hi : 8 ≤ i) : (d.setWidth 32).getLsbD i = false := by
  simp [BitVec.getLsbD_of_ge d i hi]

@[simp] theorem flagCnt_duty (d : Byte) : flagCnt (d.setWidth 32) = false := getLsbD_setWidth_byte d (by decide)
@[simp] theorem flagFan_duty (d : Byte) : flagFan (d.setWidth 32) = false := getLsbD_setWidth_byte d (by decide)
@[simp] theorem flagPwm_duty (d : Byte) : flagPwm (d.setWidth 32) = false := getLsbD_setWidth_byte d (by decide)
@[simp] theorem dutyOf_duty (d : Byte) : dutyOf (d.setWidth 32) = d := by simp [dutyOf]

/-- The flags and the duty of the three flag words (R98). -/
@[simp] theorem cntMatch_flags :
    flagCnt cntMatch = true ∧ flagFan cntMatch = false ∧ flagPwm cntMatch = false ∧ dutyOf cntMatch = 0 := by decide
@[simp] theorem fanMatch_flags :
    flagCnt fanMatch = false ∧ flagFan fanMatch = true ∧ flagPwm fanMatch = false ∧ dutyOf fanMatch = 0 := by decide
@[simp] theorem pwmMatch_flags :
    flagCnt pwmMatch = false ∧ flagFan pwmMatch = false ∧ flagPwm pwmMatch = true ∧ dutyOf pwmMatch = 0 := by decide

/-! ### Decode of encode -/

/-- Each class alone: its word decodes to it and to nothing else under the default gate. -/
theorem decodeTrigger_trigCnt : decodeTrigger .noneOf28_29_30 (encodeTrigger .trigCnt) = [.trigCnt] := by
  simp [decodeTrigger_eq, encodeTrigger, flagClk]
theorem decodeTrigger_trigFan : decodeTrigger .noneOf28_29_30 (encodeTrigger .trigFan) = [.trigFan] := by
  simp [decodeTrigger_eq, encodeTrigger, flagClk]
theorem decodeTrigger_trigPwm (d : Byte) :
    decodeTrigger .noneOf28_29_30 (encodeTrigger (.trigPwm d)) = [.trigPwm d] := by
  simp [decodeTrigger_eq, encodeTrigger, flagClk]
theorem decodeTrigger_trigClk {v : Word} (h : flagClk .noneOf28_29_30 v = true) :
    decodeTrigger .noneOf28_29_30 (encodeTrigger (.trigClk v)) = [.trigClk v] := by
  have hflags : (flagPwm v = false ∧ flagFan v = false) ∧ flagCnt v = false := by simpa [flagClk] using h
  simp [decodeTrigger_eq, encodeTrigger, h, hflags]

theorem decodeTableWord_of_class {i : Instr} (h : decodeTrigger .noneOf28_29_30 (encodeTrigger i) = [i]) {w : Nat}
    (hw : w = (encodeTrigger i).toNat) : decodeTableWord 32 w = some i := by
  rw [hw, decodeTableWord_trigger, h, List.head?_cons]

theorem decodeTableWord_of_encode {i : Instr} (hi : i.wf Params.default = true) {n w : Nat}
    (h : encode i = some (n, w)) : decodeTableWord n w = some i := by
  cases i with
  | trigCnt => cases h; exact decodeTableWord_of_class decodeTrigger_trigCnt rfl
  | trigFan => cases h; exact decodeTableWord_of_class decodeTrigger_trigFan rfl
  | trigPwm d => cases h; exact decodeTableWord_of_class (decodeTrigger_trigPwm d) rfl
  | trigClk v =>
    cases h
    exact decodeTableWord_of_class (decodeTrigger_trigClk ((clk_match_iff _ v).1 (of_decide_eq_true hi))) rfl
  | cmdRead => cases h; exact decodeTableWord_command 0x0000#16 rfl
  | cmdWrite => cases h; exact decodeTableWord_command 0x0001#16 rfl
  | cmdOther c =>
    cases h
    simp only [Instr.wf, Bool.and_eq_true, decide_eq_true_eq] at hi
    rw [decodeTableWord_command c rfl, decodeCommand_other hi.1 hi.2]
  | rpcGetBoardRev => cases h
  | rpcGetClock => cases h
  | rpcGetMaxClock => cases h
  | rpcSetClock hz => cases h
  | rpcGetPwm => cases h
  | rpcSetPwm d => cases h
  | rpcSetPower d on w => cases h

/-- Settles O23: `decodeTableWord_of_encode`, and the constructors without a word are the requests. -/
theorem decodeOfEncodeIsTheInstruction : Obligations.DecodeOfEncodeIsTheInstruction := by
  unfold Obligations.DecodeOfEncodeIsTheInstruction
  intro i hi
  refine ⟨fun n w h => decodeTableWord_of_encode hi h, ?_⟩
  cases i <;> simp [encode]

/-! ### Sets of flag classes -/

/-- R91: the word of a set of classes is the OR of the words of its parts. -/
theorem encodeClasses_append (is js : List Instr) :
    encodeClasses (is ++ js) = encodeClasses is ||| encodeClasses js := by
  induction is with
  | nil => exact BitVec.zero_or.symm
  | cons i is ih => rw [List.cons_append, encodeClasses, encodeClasses, ih, BitVec.or_assoc]

/-- The flag classes of a PWM request, if there is one. -/
def pwmClass : Option Byte → List Instr
  | some d => [.trigPwm d]
  | none => []

/-- Each part of a set sets its own flag and no other, and the PWM part alone sets duty bits. -/
theorem encodeClasses_cnt (cnt : Bool) : flagCnt (encodeClasses (if cnt then [.trigCnt] else [])) = cnt
    ∧ flagFan (encodeClasses (if cnt then [.trigCnt] else [])) = false
    ∧ flagPwm (encodeClasses (if cnt then [.trigCnt] else [])) = false
    ∧ dutyOf (encodeClasses (if cnt then [.trigCnt] else [])) = 0 := by cases cnt <;> decide
theorem encodeClasses_fan (fan : Bool) : flagCnt (encodeClasses (if fan then [.trigFan] else [])) = false
    ∧ flagFan (encodeClasses (if fan then [.trigFan] else [])) = fan
    ∧ flagPwm (encodeClasses (if fan then [.trigFan] else [])) = false
    ∧ dutyOf (encodeClasses (if fan then [.trigFan] else [])) = 0 := by cases fan <;> decide
theorem encodeClasses_pwm (pwm : Option Byte) : flagCnt (encodeClasses (pwmClass pwm)) = false
    ∧ flagFan (encodeClasses (pwmClass pwm)) = false
    ∧ flagPwm (encodeClasses (pwmClass pwm)) = pwm.isSome
    ∧ dutyOf (encodeClasses (pwmClass pwm)) = pwm.getD 0 := by
  cases pwm with
  | none => decide
  | some d => simp [pwmClass, encodeClasses, encodeTrigger]

/-- The word of a nonempty set of flag classes decodes to that set. -/
theorem decodeTrigger_encodeClasses {cnt fan : Bool} {pwm : Option Byte}
    (hset : cnt = true ∨ fan = true ∨ pwm.isSome = true) {is : List Instr}
    (his : is = (if cnt then [.trigCnt] else []) ++ (if fan then [.trigFan] else []) ++ pwmClass pwm) :
    decodeTrigger .noneOf28_29_30 (encodeClasses is) = is := by
  have hclk : (!pwm.isSome && !fan && !cnt) = false := by
    rcases hset with rfl | rfl | hp
    · simp
    · simp
    · simp [hp]
  rw [his, encodeClasses_append, encodeClasses_append, decodeTrigger_eq]
  simp only [flagClk, flagCnt_or, flagFan_or, flagPwm_or, dutyOf_or, encodeClasses_cnt, encodeClasses_fan,
    encodeClasses_pwm, Bool.or_false, Bool.false_or, hclk]
  cases pwm with
  | none => simp [pwmClass]
  | some d => simp [pwmClass]

/-- Settles O24: `decodeTrigger_encodeClasses`. -/
theorem decodeOfEncodedClassesIsTheSet : Obligations.DecodeOfEncodedClassesIsTheSet := by
  unfold Obligations.DecodeOfEncodedClassesIsTheSet
  intro cnt fan pwm hset is his
  refine decodeTrigger_encodeClasses hset (his.trans ?_)
  cases pwm with
  | none => rfl
  | some d => rfl

/-! ### The clamp of a clock request -/

theorem clampMhz_of_lt_min {v : Word} (h : v.toNat < mhzMin) : clampMhz v = 600#32 := by
  have hmin : max v.toNat mhzMin = mhzMin := max_eq_right h.le
  rw [clampMhz, hmin]
  rfl

theorem clampMhz_of_max_le {v : Word} (h : mhzMax ≤ v.toNat) : clampMhz v = 2200#32 := by
  have hmax : min (max v.toNat mhzMin) mhzMax = mhzMax := min_eq_right (h.trans (le_max_left _ _))
  rw [clampMhz, hmax]
  rfl

/-- R96: any bit from 12 up lifts the unsigned word past the greatest clock rate. -/
theorem clampMhz_of_high_bit {v : Word} {i : Nat} (hi : 12 ≤ i) (h : v.getLsbD i = true) : clampMhz v = 2200#32 := by
  have hpow : 2 ^ 12 ≤ 2 ^ i := Nat.pow_le_pow_right (by decide) hi
  have hmax : mhzMax ≤ 2 ^ 12 := by decide
  exact clampMhz_of_max_le (hmax.trans (hpow.trans (Nat.ge_two_pow_of_testBit h)))

/-- Settles O27: the value of the clamp, and its constant parts. -/
theorem clockOperandIsClamped : Obligations.ClockOperandIsClamped := by
  unfold Obligations.ClockOperandIsClamped
  intro v
  exact ⟨clampMhz_toNat v, clampMhz_of_lt_min, fun h => clampMhz_of_max_le h.le, clampMhz_of_high_bit (by decide)⟩

/-! ### The classification of trigger words -/

/-- The two gates differ on a word without bit 30 only (R98). -/
theorem decodeTrigger_gates_agree {v : Word} (h : flagPwm v = true) :
    decodeTrigger .notBit30 v = decodeTrigger .noneOf28_29_30 v := by
  rw [decodeTrigger_eq, decodeTrigger_eq, flagClk_eq_false_of_flagPwm h, flagClk_eq_false_of_flagPwm h]

/-- Settles O21: the eight rows are the values of the three flag bits; without bit 30 the gate `NOT_BIT30` makes every
word a clock request, and bit 28 or 29 lifts it past the greatest clock rate. -/
theorem fullClassificationOfTriggerWords : Obligations.FullClassificationOfTriggerWords := by
  unfold Obligations.FullClassificationOfTriggerWords
  intro v
  refine ⟨?_, fun h30 => ⟨?_, ?_⟩, decodeTrigger_gates_agree⟩
  · rcases Bool.eq_false_or_eq_true (v.getLsbD 30) with h30 | h30
    all_goals rcases Bool.eq_false_or_eq_true (v.getLsbD 29) with h29 | h29
    all_goals rcases Bool.eq_false_or_eq_true (v.getLsbD 28) with h28 | h28
    all_goals
      simp only [decodeTrigger_eq, flagClk, flagPwm, flagFan, flagCnt, bitPwm, bitFan, bitCnt, h30, h29, h28]
      rfl
  · have hclk : flagClk .notBit30 v = true := congrArg (!·) h30
    exact (trigClk_mem_decodeTrigger _ v v).2 ⟨(clk_match_iff _ v).2 hclk, rfl⟩
  · rintro (h | h)
    · exact clampMhz_of_high_bit (by decide) h
    · exact clampMhz_of_high_bit (by decide) h

/-! ### Words written out -/

theorem decode_of_other_length (g : ClkGate) {bs : List Byte} (h4 : bs.length ≠ 4) (h2 : bs.length ≠ 2) :
    decode g bs = .error (.badLength bs.length) := by rw [decode, if_neg h4, if_neg h2]

/-- Settles O25: a trigger word decodes by its flags, a command word by its value. -/
theorem writtenOutWordsDecode : Obligations.WrittenOutWordsDecode := by
  unfold Obligations.WrittenOutWordsDecode
  refine ⟨?_, ?_, ?_, ?_, ?_, ?_, ?_, fun g _ => decode_of_other_length g⟩
  · exact decodeTableWord_of_class decodeTrigger_trigCnt (by decide)
  · exact decodeTableWord_of_class decodeTrigger_trigFan (by decide)
  · exact decodeTableWord_of_class (decodeTrigger_trigPwm 0x20#8) (by decide)
  · exact decodeTableWord_of_class (decodeTrigger_trigClk (v := 700#32) (by decide)) (by decide)
  · exact decodeTableWord_command 0x0000#16 (by decide)
  · exact decodeTableWord_command 0x0001#16 (by decide)
  · rw [decodeTableWord_command 0xBEEF#16 (by decide), decodeCommand_other (by decide) (by decide)]

/-! ### The delivered counter -/

/-- R145: a clock rate in u32 is at most 42 units of 100 MHz. -/
theorem hundredMhz_le (c : Word) : hundredMhz c ≤ 42 := by
  have := c.isLt
  simp only [hundredMhz, hzPerHundredMhz]
  omega

/-- R145 item 2: the product is exact in 38 bits. -/
theorem mul_hundredMhz_lt (r c : Word) : r.toNat * hundredMhz c < 2 ^ 38 :=
  calc r.toNat * hundredMhz c ≤ r.toNat * 42 := Nat.mul_le_mul_left _ (hundredMhz_le c)
    _ < 2 ^ 38 := by have := r.isLt; omega

theorem delivered_toNat (r c : Word) :
    (delivered r c).toNat = r.toNat * hundredMhz c / deliveredDivisor % 2 ^ 32 := BitVec.toNat_ofNat ..

theorem delivered_eq_zero {r c : Word} (h : r.toNat * hundredMhz c < deliveredDivisor) : delivered r c = 0 := by
  rw [delivered, Nat.div_eq_of_lt h]
  rfl

/-- Up to 15 units the quotient is no greater than the sampled value, so it fits. -/
theorem delivered_quotient_le (r : Word) {c : Word} (h : hundredMhz c ≤ deliveredDivisor) :
    r.toNat * hundredMhz c / deliveredDivisor ≤ r.toNat :=
  calc r.toNat * hundredMhz c / deliveredDivisor
      ≤ r.toNat * deliveredDivisor / deliveredDivisor := Nat.div_le_div_right (Nat.mul_le_mul_left _ h)
    _ = r.toNat := Nat.mul_div_cancel _ (by decide)

theorem delivered_toNat_exact (r : Word) {c : Word} (h : hundredMhz c ≤ deliveredDivisor) :
    (delivered r c).toNat = r.toNat * hundredMhz c / deliveredDivisor := by
  rw [delivered_toNat, Nat.mod_eq_of_lt ((delivered_quotient_le r h).trans_lt r.isLt)]

/-- Settles O29: the corner cases are products below the divisor, and up to 15 units the quotient fits. -/
theorem deliveredCounterArithmetic : Obligations.DeliveredCounterArithmetic := by
  unfold Obligations.DeliveredCounterArithmetic
  refine ⟨fun r c => ⟨hundredMhz_le c, mul_hundredMhz_lt r c, delivered_toNat r c, fun hc => ?_, fun hr => ?_,
    fun hr hc => ?_, fun hc => ?_⟩, by decide, by decide, by decide⟩
  · have hq : hundredMhz c = 0 := Nat.div_eq_of_lt hc
    exact delivered_eq_zero (by rw [hq, Nat.mul_zero]; decide)
  · exact delivered_eq_zero (by rw [hr]; simp [deliveredDivisor])
  · have hq : hundredMhz c = 1 := hc
    exact delivered_eq_zero (by rwa [hq, Nat.mul_one])
  · have hval := delivered_toNat_exact r hc
    exact ⟨hval ▸ delivered_quotient_le r hc, hval⟩

end Sys2Proof.Machine
end

section
/-! PROOFS about every step: what a step may do at all. A step is a sequence of moves: a host turn, an event, a write
to a record field, a write to TRIG, a change of the controller's active state, a change of latches, or bookkeeping that
none of these see. `step_moves` says once which of them each step may make (its scope); the frames and invariants of the
whole machine follow from it by induction over the moves. -/

namespace Sys2Proof.Machine

/-- What the block may do between its host turns: which values it may write to which record fields, and whether it may
write TRIG, the latches of the invocation or the controller's active state. -/
structure Scope where
  field : Chan → Field → Nat → Prop
  trig : Prop
  latches : Prop
  active : Prop

/-- The latches that the steps read: all but the four a channel service works with (R23). -/
def SameRequest (x y : Latches) : Prop := y = { x with cmd0 := y.cmd0, r := y.r, c := y.c, d := y.d }

/-- Agreement on all that the host sees, the history, the active state and the request latches. -/
structure SameOutside (s t : State) : Prop where
  params : t.params = s.params
  phase : t.phase = s.phase
  mem : t.mem = s.mem
  trig : t.trig = s.trig
  violation : t.violation = s.violation
  trace : t.trace = s.trace
  turns : t.env.turns = s.env.turns
  active : t.irqActive = s.irqActive
  request : SameRequest s.x t.x

/-- One move of the machine within a scope. -/
inductive Move (K : Scope) : State → State → Prop
  | turn (s : State) : Move K s (hostTurn s)
  | event (e : Event) (s : State) : Move K s (emit e s)
  | inner {s t : State} (h : SameOutside s t) : Move K s t
  | field {c : Chan} {f : Field} {v : Nat} (h : K.field c f v) (s : State) :
      Move K s (s.setMem (writeLE s.mem (fieldAddr s.params c f) (fieldBytes f) v))
  | trig (h : K.trig) (v : Word) (s : State) : Move K s (s.setTrig v)
  | latches (h : K.latches) (x : Latches) (s : State) : Move K s (s.setX x)
  | active (h : K.active) (b : Bool) (s : State) : Move K s (s.setIrqActive b)

/-- Any number of moves within a scope. -/
abbrev Moves (K : Scope) : State → State → Prop := Relation.ReflTransGen (Move K)

namespace Moves

variable {K : Scope} {s t : State}

/-! ### The transactions as moves -/

theorem move (h : Moves K s t) {u : State} (hm : Move K t u) : Moves K s u := h.tail hm
theorem turn (h : Moves K s t) : Moves K s (hostTurn t) := h.move (.turn t)
theorem event (h : Moves K s t) (e : Event) : Moves K s (emit e t) := h.move (.event e t)
theorem inner (h : Moves K s t) {u : State} (hu : SameOutside t u) : Moves K s u := h.move (.inner hu)

/-- Bookkeeping: the configuration, the co-processor state and the environment's inputs. -/
theorem setIrq (h : Moves K s t) (q : IrqConfig) : Moves K s (t.setIrq q) :=
  h.inner ⟨rfl, rfl, rfl, rfl, rfl, rfl, rfl, rfl, rfl⟩
theorem setCop (h : Moves K s t) (c : CopState) : Moves K s (t.setCop c) :=
  h.inner ⟨rfl, rfl, rfl, rfl, rfl, rfl, rfl, rfl, rfl⟩
theorem perfConsume (h : Moves K s t) : Moves K s (perfConsume t) :=
  h.inner ⟨by simp, by simp, by simp, by simp, by simp, by simp, by simp, by simp, by simp [SameRequest]⟩
theorem rpcConsume (h : Moves K s t) : Moves K s (rpcConsume t) :=
  h.inner ⟨by simp, by simp, by simp, by simp, by simp, by simp, by simp, by simp, by simp [SameRequest]⟩
theorem ackConsume (h : Moves K s t) : Moves K s (ackConsume t) :=
  h.inner ⟨rfl, rfl, rfl, rfl, rfl, rfl, rfl, rfl, rfl⟩
/-- A channel service's own latches. -/
theorem setWork (h : Moves K s t) {x : Latches} (hx : SameRequest t.x x) : Moves K s (t.setX x) :=
  h.inner ⟨rfl, rfl, rfl, rfl, rfl, rfl, rfl, rfl, hx⟩
theorem latchClock (h : Moves K s t) (a : RpcAnswer) : Moves K s (latchClock a t) := by
  obtain ⟨c, hx⟩ := latchClock_c a t
  exact h.inner ⟨by simp, by simp, by simp, by simp, by simp, by simp, by simp, by simp, by rw [hx]; rfl⟩

theorem setX (h : Moves K s t) (hK : K.latches) (x : Latches) : Moves K s (t.setX x) := h.move (.latches hK x t)

theorem readField (h : Moves K s t) (c : Chan) (f : Field) : Moves K s (readField c f t).1 := h.turn.event _
theorem writeField (h : Moves K s t) {c : Chan} {f : Field} {v : Nat} (hK : K.field c f v) :
    Moves K s (writeField c f v t) := (h.turn.move (.field hK _)).event _
theorem readTrig (h : Moves K s t) : Moves K s (readTrig t).1 := h.turn.event _
theorem writeTrig (h : Moves K s t) (hK : K.trig) (v : Word) : Moves K s (writeTrig v t) :=
  (h.turn.move (.trig hK _ _)).event _
theorem readPerf (h : Moves K s t) : Moves K s (readPerf t).1 := h.turn.perfConsume.event _
theorem rpcCall (h : Moves K s t) (op : RpcOp) : Moves K s (rpcCall op t).1 := (h.turn.rpcConsume.setCop _).event _
theorem gicAck (h : Moves K s t) (hK : K.active) : Moves K s (gicAck t).1 :=
  (h.turn.ackConsume.move (.active hK _ _)).event _
theorem gicEoi (h : Moves K s t) (hK : K.active) (i : Word) : Moves K s (gicEoi i t) :=
  (h.turn.move (.active hK _ _)).event _

end Moves

/-! ### What one move does to the machine -/

section
variable {K : Scope} {s t : State}

theorem Move.params (h : Move K s t) : t.params = s.params := by
  cases h with
  | inner h => exact h.params
  | turn => exact hostTurn_params s
  | event | field | trig | latches | active => rfl

theorem Move.phase (h : Move K s t) : t.phase = s.phase := by
  cases h with
  | inner h => exact h.phase
  | turn => exact hostTurn_phase s
  | event | field | trig | latches | active => rfl

/-- The history only grows (R40). -/
theorem Move.trace (h : Move K s t) : s.trace <+: t.trace := by
  cases h with
  | inner h => rw [h.trace]
  | turn => rw [hostTurn_trace]
  | event e => exact List.prefix_append _ _
  | field | trig | latches | active => exact List.prefix_rfl

/-- No move clears the contract flag (R39). -/
theorem Move.violation (h : Move K s t) (hv : t.violation = false) : s.violation = false := by
  cases h with
  | inner h => rwa [h.violation] at hv
  | turn => exact violation_of_hostTurn hv
  | event | field | trig | latches | active => exact hv

theorem Move.memoryWf (h : Move K s t) (hm : memoryWf s.mem = true) : memoryWf t.mem = true := by
  cases h with
  | inner h => rwa [h.mem]
  | turn => exact memoryWf_hostTurn hm
  | field => exact memoryWf_writeLE hm _ _ _
  | event | trig | latches | active => exact hm

/-- A move outside the scope of the active state leaves it alone. -/
theorem Move.irqActive (h : Move K s t) (hK : ¬ K.active) : t.irqActive = s.irqActive := by
  cases h with
  | inner h => exact h.active
  | turn => exact hostTurn_irqActive s
  | active hK' => exact absurd hK' hK
  | event | field | trig | latches => rfl

theorem SameRequest.refl (x : Latches) : SameRequest x x := rfl
theorem SameRequest.trans {x y z : Latches} (h : SameRequest x y) (k : SameRequest y z) : SameRequest x z := by
  rw [SameRequest] at *
  rw [k, h]

theorem Move.request (h : Move K s t) (hK : ¬ K.latches) : SameRequest s.x t.x := by
  cases h with
  | inner h => exact h.request
  | turn => rw [hostTurn_x]; exact .refl _
  | latches hK' => exact absurd hK' hK
  | event | field | trig | active => exact .refl _

/-- During an invocation a move outside the scope of TRIG leaves it alone while the host keeps its contract. -/
theorem Move.trig_handling (h : Move K s t) (hK : ¬ K.trig) {k : HStep} (hp : s.phase = .handling k)
    (hv : t.violation = false) : t.trig = s.trig := by
  cases h with
  | inner h => exact h.trig
  | turn => exact trig_hostTurn_handling hp hv
  | trig hK' => exact absurd hK' hK
  | event | field | latches | active => rfl

/-- With no host action scheduled a move outside the scope of TRIG leaves it alone, and schedules none. -/
theorem Move.trig_silent (h : Move K s t) (hK : ¬ K.trig) (hs : ∀ b ∈ s.env.turns, b = []) :
    t.trig = s.trig ∧ ∀ b ∈ t.env.turns, b = [] := by
  cases h with
  | inner h => rw [h.trig, h.turns]; exact ⟨rfl, hs⟩
  | turn =>
    refine ⟨(hostTurn_silent fun b hb => hs b (List.mem_of_mem_take hb)).2.1, fun b hb => hs b ?_⟩
    rw [hostTurn_turns] at hb
    exact List.mem_of_mem_tail hb
  | trig hK' => exact absurd hK' hK
  | event | field | latches | active => exact ⟨rfl, hs⟩

theorem readByte_hostBatch_outside (b : List HostAction) (s : State) {n : Nat} (h0 : ¬ inRecord s.params .ch0 n)
    (h1 : ¬ inRecord s.params .ch1 n) : readByte (hostBatch b s).mem n = readByte s.mem n := by
  induction b generalizing s with
  | nil => rfl
  | cons a as ih =>
    rw [hostBatch, ih _ (by simpa using h0) (by simpa using h1), readByte_hostAct_outside a s h0 h1]

/-- A host turn touches only the two records. -/
theorem readByte_hostTurn_outside (s : State) {n : Nat} (h0 : ¬ inRecord s.params .ch0 n)
    (h1 : ¬ inRecord s.params .ch1 n) : readByte (hostTurn s).mem n = readByte s.mem n := by
  unfold hostTurn
  split
  · rfl
  · simpa using readByte_hostBatch_outside _ (s.setEnv _) (by simpa using h0) (by simpa using h1)

theorem Move.readByte_outside (h : Move K s t) {n : Nat} (h0 : ¬ inRecord s.params .ch0 n)
    (h1 : ¬ inRecord s.params .ch1 n) : readByte t.mem n = readByte s.mem n := by
  cases h with
  | inner h => rw [h.mem]
  | turn => exact readByte_hostTurn_outside s h0 h1
  | @field c f v =>
    have hc : ¬ inRecord s.params c n := by cases c <;> assumption
    have hin := field_in_record f
    simp only [inRecord] at hc
    exact readByte_writeLE_outside _ _ (by simp only [fieldAddr]; omega)
  | event | trig | latches | active => rfl

/-- A field that the scope lets be written with one value only, if at all, keeps that value while the host keeps its
contract. -/
theorem Move.fieldValue (h : Move K s t) (hp : s.params.wf = true) (hm : Machine.memoryWf s.mem = true)
    (hv : t.violation = false) {c : Chan} {f : Field} (hf : f ≠ .command) {w : Nat} (hw : w < 256 ^ fieldBytes f)
    (hK : ∀ v, K.field c f v → v = w) (hs : Machine.fieldValue c f s = w) : Machine.fieldValue c f t = w := by
  cases h with
  | inner h => rwa [Machine.fieldValue, h.mem, h.params]
  | turn => rwa [fieldValue_hostTurn hp hv hf]
  | @field c' f' v hK' =>
    by_cases he : (c', f') = (c, f)
    · cases he
      rw [hK v hK']
      exact (readLE_writeLE_same hm _ _ _).trans (Nat.mod_eq_of_lt hw)
    · exact (readLE_writeLE_disjoint _ _ ((fields_disjoint hp he).symm)).trans hs
  | event | trig | latches | active => exact hs

end

/-! ### What moves do to the machine -/

namespace Moves

variable {K : Scope} {s t : State}

theorem params (h : Moves K s t) : t.params = s.params := by
  induction h with
  | refl => rfl
  | tail _ hm ih => exact hm.params.trans ih

theorem phase (h : Moves K s t) : t.phase = s.phase := by
  induction h with
  | refl => rfl
  | tail _ hm ih => exact hm.phase.trans ih

theorem trace (h : Moves K s t) : s.trace <+: t.trace := by
  induction h with
  | refl => exact List.prefix_rfl
  | tail _ hm ih => exact ih.trans hm.trace

theorem violation (h : Moves K s t) (hv : t.violation = false) : s.violation = false := by
  induction h with
  | refl => exact hv
  | tail _ hm ih => exact ih (hm.violation hv)

theorem memoryWf (h : Moves K s t) (hm : memoryWf s.mem = true) : memoryWf t.mem = true := by
  induction h with
  | refl => exact hm
  | tail _ hmove ih => exact hmove.memoryWf ih

theorem irqActive (h : Moves K s t) (hK : ¬ K.active) : t.irqActive = s.irqActive := by
  induction h with
  | refl => rfl
  | tail _ hm ih => exact (hm.irqActive hK).trans ih

theorem request (h : Moves K s t) (hK : ¬ K.latches) : SameRequest s.x t.x := by
  induction h with
  | refl => exact .refl _
  | tail _ hm ih => exact ih.trans (hm.request hK)

theorem trig_handling (h : Moves K s t) (hK : ¬ K.trig) {k : HStep} (hp : s.phase = .handling k)
    (hv : t.violation = false) : t.trig = s.trig := by
  induction h with
  | refl => rfl
  | tail hms hm ih => exact (hm.trig_handling hK ((Moves.phase hms).trans hp) hv).trans (ih (hm.violation hv))

theorem trig_silent (h : Moves K s t) (hK : ¬ K.trig) (hs : ∀ b ∈ s.env.turns, b = []) :
    t.trig = s.trig ∧ ∀ b ∈ t.env.turns, b = [] := by
  induction h with
  | refl => exact ⟨rfl, hs⟩
  | tail _ hm ih =>
    have hlast := hm.trig_silent hK ih.2
    exact ⟨hlast.1.trans ih.1, hlast.2⟩

theorem readByte_outside (h : Moves K s t) {n : Nat} (h0 : ¬ inRecord s.params .ch0 n)
    (h1 : ¬ inRecord s.params .ch1 n) : readByte t.mem n = readByte s.mem n := by
  induction h with
  | refl => rfl
  | tail hms hm ih =>
    have hp := Moves.params hms
    exact (hm.readByte_outside (by rwa [hp]) (by rwa [hp])).trans ih

theorem fieldValue (h : Moves K s t) (hp : s.params.wf = true) (hm : Machine.memoryWf s.mem = true)
    (hv : t.violation = false) {c : Chan} {f : Field} (hf : f ≠ .command) {w : Nat} (hw : w < 256 ^ fieldBytes f)
    (hK : ∀ v, K.field c f v → v = w) (hs : Machine.fieldValue c f s = w) : Machine.fieldValue c f t = w := by
  induction h with
  | refl => exact hs
  | tail hms hmove ih =>
    exact hmove.fieldValue (by rwa [Moves.params hms]) (Moves.memoryWf hms hm) hv hf hw hK (ih (hmove.violation hv))

end Moves

/-! ### The scope of a step -/

/-- H5 serves the command `0x0000` of Channel 0 (R143, R144). -/
def servesCounterRead (s : State) : Prop :=
  s.phase = .handling .h5 ∧ s.x.cnt = some true ∧ fieldValue .ch0 .command (hostTurn s) = 0

/-- The two writes of `ResetIdle(c)`, which any step may make: the channel's own signature and the idle status. -/
def stampWrite (p : Params) (c : Chan) (f : Field) (v : Nat) : Prop :=
  f = .signature ∧ v = (sigOf p.sigLayout c).toNat ∨ f = .status ∧ v = idleStatus.toNat

/-- What a step may do beyond its host turns: stamp the records, respond to a counter read on Channel 0, write TRIG at
H3, write request latches at H1, H2, H4 and H10, and change the active state at H1 and H9. -/
def stepScope (s : State) : Scope where
  field c f v := stampWrite s.params c f v ∨ c = .ch0 ∧ f ≠ .signature ∧ f ≠ .status ∧ servesCounterRead s
  trig := s.phase = .handling .h3
  latches := s.phase = .handling .h1 ∨ s.phase = .handling .h2 ∨ s.phase = .handling .h4 ∨ s.phase = .handling .h10
  active := s.phase = .handling .h1 ∨ s.phase = .handling .h9

namespace Moves

variable {K : Scope} {s t : State}

theorem resetIdle (h : Moves K s t) (c : Chan) (hK : ∀ f v, stampWrite s.params c f v → K.field c f v) :
    Moves K s (resetIdle c t) := by
  have hp := Moves.params h
  exact (h.writeField (hK _ _ (.inl ⟨rfl, by rw [hp]⟩))).writeField (hK _ _ (.inr ⟨rfl, rfl⟩))

theorem resetBoth (h : Moves K s t) (hK : ∀ c f v, stampWrite s.params c f v → K.field c f v) :
    Moves K s (resetBoth t) := (h.resetIdle .ch0 (hK .ch0)).resetIdle .ch1 (hK .ch1)

theorem cntError (h : Moves K s t) (hK : ∀ c f v, stampWrite s.params c f v → K.field c f v) (cmd : Half) :
    Moves K s (cntError cmd t) := by
  obtain ⟨e, -, -, -, -, heq, -⟩ := cntError_spec cmd t
  rw [heq]
  exact (((((h.readField _ _).readField _ _).readField _ _).readField _ _).event e).resetIdle .ch0 (hK .ch0)

theorem fanService (h : Moves K s t) (hK : ∀ c f v, stampWrite s.params c f v → K.field c f v) :
    Moves K s (fanService t) := by
  obtain ⟨e, -, -, -, -, -, heq, -⟩ := fanService_spec t
  rw [heq]
  exact ((((((h.readField _ _).readField _ _).readField _ _).readField _ _).readField _ _).event e).resetIdle .ch1
    (hK .ch1)

theorem cntSample (h : Moves K s t) : Moves K s (cntSample t) := by
  have sampled := h.readPerf.setWork (x := { (Machine.readPerf t).1.x with r := some (Machine.readPerf t).2 }) rfl
  exact setWork ((sampled.rpcCall _).latchClock _) (by rfl)

theorem cntRespond (h : Moves K s t) (hst : ∀ c f v, stampWrite s.params c f v → K.field c f v)
    (hK : ∀ f v, f ≠ .signature → f ≠ .status → K.field .ch0 f v) (r d : Word) : Moves K s (cntRespond r d t) := by
  have hp := Moves.params h
  have payload := (h.writeField (hK .payload0 r.toNat nofun nofun)).writeField (hK .payload1 d.toNat nofun nofun)
  exact ((payload.writeField (hst _ _ _ (.inl ⟨rfl, by simp [hp]⟩))).writeField (hK .command _ nofun nofun)).writeField
    (hst _ _ _ (.inr ⟨rfl, rfl⟩))

/-- `CMD.READ` (R144, R146). -/
theorem cmdRead (h : Moves K s t) (hst : ∀ c f v, stampWrite s.params c f v → K.field c f v)
    (hK : ∀ f v, f ≠ .signature → f ≠ .status → K.field .ch0 f v) {u : State} (hu : exec .cmdRead t = .next u) :
    Moves K s u := by
  obtain ⟨r, -, hr⟩ := withLatch_eq_next hu
  obtain ⟨d, -, hd⟩ := withLatch_eq_next hr
  cases hd
  exact h.cntSample.cntRespond hst hK r d

end Moves

/-- The command H5 finds decides its class: `0x0000` alone is a counter read (R92, R143). -/
theorem decodeCommand_cases (c : Half) :
    c = 0 ∧ decodeCommand c = .cmdRead ∨ decodeCommand c = .cmdWrite ∨ decodeCommand c = .cmdOther c := by
  unfold decodeCommand
  split
  · next h => exact .inl ⟨h, rfl⟩
  · split
    · exact .inr (.inl rfl)
    · exact .inr (.inr rfl)

/-! ### Every step stays within its scope -/

theorem stampWrite_in_scope (s : State) (c : Chan) (f : Field) (v : Nat) (h : stampWrite s.params c f v) :
    (stepScope s).field c f v := .inl h

theorem startupStep_moves {k : SStep} {s t : State} (h : startupStep k s = .next t) :
    ∃ u, Moves (stepScope s) s u ∧ t = u.setPhase t.phase := by
  have start : Moves (stepScope s) s s := .refl
  cases k with
  | s1 => cases h; exact ⟨_, start.turn, rfl⟩
  | s2 => cases h; exact ⟨_, start.turn.setIrq _, rfl⟩
  | s3 => cases h; exact ⟨_, ((start.rpcCall _).rpcCall _).rpcCall _, rfl⟩
  | s4 => cases h; exact ⟨_, (((start.rpcCall _).rpcCall _).rpcCall _).event _, rfl⟩
  | s5 => cases h; exact ⟨_, start.rpcCall _, rfl⟩
  | s6 => cases h; exact ⟨_, start.resetBoth (stampWrite_in_scope s), rfl⟩
  | s7 => cases h; exact ⟨_, start.turn, rfl⟩

theorem idleStep_moves {s t : State} (h : idleStep s = .next t) :
    ∃ u, Moves (stepScope s) s u ∧ t = u.setPhase t.phase := by
  have start : Moves (stepScope s) s s := .refl
  rw [idleStep] at h
  split at h <;> cases h <;> exact ⟨_, start.turn, rfl⟩

theorem stepH5_moves {s t : State} (hp : s.phase = .handling .h5) (h : stepH5 s = .next t) :
    ∃ u, Moves (stepScope s) s u ∧ t = u.setPhase t.phase := by
  have start : Moves (stepScope s) s s := .refl
  obtain ⟨cnt, hc, -⟩ := withLatch_eq_next h
  cases cnt with
  | false => rw [stepH5_skip hc] at h; cases h; exact ⟨_, start.turn, rfl⟩
  | true =>
    rw [stepH5_eq hc] at h
    obtain ⟨u, hu, ht⟩ := andThen_eq_next h
    cases ht
    refine ⟨u, ?_, rfl⟩
    have read : Moves (stepScope s) s (commandRead s) := (start.readField _ _).setWork (by simp [SameRequest])
    rcases decodeCommand_cases (BitVec.ofNat 16 (fieldValue .ch0 .command (hostTurn s))) with ⟨hz, hd⟩ | hd | hd
    · rw [hd] at hu
      have hcmd : fieldValue .ch0 .command (hostTurn s) = 0 := by
        have hlt : fieldValue .ch0 .command (hostTurn s) < 2 ^ 16 := readLE_lt _ _ _
        have hnat := congrArg BitVec.toNat hz
        rwa [BitVec.toNat_ofNat, Nat.mod_eq_of_lt hlt] at hnat
      exact read.cmdRead (stampWrite_in_scope s) (fun f v hsig hst => .inr ⟨rfl, hsig, hst, hp, hc, hcmd⟩) hu
    · rw [hd] at hu; cases hu; exact read.cntError (stampWrite_in_scope s) _
    · rw [hd] at hu; cases hu; exact read.cntError (stampWrite_in_scope s) _

theorem stepH7_moves {s t : State} (h : stepH7 s = .next t) :
    ∃ u, Moves (stepScope s) s u ∧ t = u.setPhase t.phase := by
  have start : Moves (stepScope s) s s := .refl
  obtain ⟨pwm, -, hb⟩ := withLatch_eq_next h
  obtain ⟨u, hu, ht⟩ := andThen_eq_next hb
  cases ht
  refine ⟨u, ?_, rfl⟩
  cases pwm with
  | true => obtain ⟨d, -, he⟩ := withLatch_eq_next hu; cases he; exact start.rpcCall _
  | false =>
    obtain ⟨clk, -, hc⟩ := withLatch_eq_next hu
    cases clk with
    | true => obtain ⟨m, -, he⟩ := withLatch_eq_next hc; cases he; exact start.rpcCall _
    | false => cases hc; exact start.turn

theorem handlerStep_moves {k : HStep} {s t : State} (hp : s.phase = .handling k) (h : handlerStep k s = .next t) :
    ∃ u, Moves (stepScope s) s u ∧ t = u.setPhase t.phase := by
  have start : Moves (stepScope s) s s := .refl
  cases k with
  | h1 =>
    by_cases hid : ackId s = s.params.trigIrqId
    · rw [handlerStep, stepH1_eq s hid] at h; cases h
      exact ⟨_, (start.gicAck (.inl hp)).setX (.inl hp) _, rfl⟩
    · rw [handlerStep, stepH1_foreign s hid] at h; cases h
  | h2 =>
    rw [handlerStep, stepH2_eq] at h; cases h
    exact ⟨_, start.readTrig.setX (.inr (.inl hp)) _, rfl⟩
  | h3 => obtain ⟨v, -, hv⟩ := withLatch_eq_next h; cases hv; exact ⟨_, start.writeTrig hp v, rfl⟩
  | h4 =>
    obtain ⟨v, hv, -⟩ := withLatch_eq_next h
    rw [handlerStep, stepH4_eq hv] at h; cases h
    exact ⟨_, start.turn.setX (.inr (.inr (.inl hp))) _, rfl⟩
  | h5 => exact stepH5_moves hp h
  | h6 =>
    obtain ⟨fan, -, hf⟩ := withLatch_eq_next h
    cases fan with
    | false => cases hf; exact ⟨_, start.turn, rfl⟩
    | true => cases hf; exact ⟨_, start.fanService (stampWrite_in_scope s), rfl⟩
  | h7 => exact stepH7_moves h
  | h8 => cases h; exact ⟨_, start.resetBoth (stampWrite_in_scope s), rfl⟩
  | h9 => obtain ⟨i, -, hi⟩ := withLatch_eq_next h; cases hi; exact ⟨_, start.gicEoi (.inr hp) i, rfl⟩
  | h10 => cases h; exact ⟨_, start.turn.setX (.inr (.inr (.inr hp))) _, rfl⟩

/-- Every step is a sequence of moves within its scope, and then the sequencer's advance. -/
theorem step_moves {s t : State} (h : step s = .next t) : ∃ u, Moves (stepScope s) s u ∧ t = u.setPhase t.phase := by
  have hw := wf_of_step h
  cases hp : s.phase with
  | uninit k => exact startupStep_moves (step_uninit hw hp ▸ h)
  | idle => exact idleStep_moves (step_idle hw hp ▸ h)
  | handling k => exact handlerStep_moves hp (step_handling hw hp ▸ h)

/-! ### Frames of every step -/

theorem step_params {s t : State} (h : step s = .next t) : t.params = s.params := by
  obtain ⟨u, hm, ht⟩ := step_moves h
  rw [ht]
  exact hm.params

theorem step_memoryWf {s t : State} (h : step s = .next t) (hm : memoryWf s.mem = true) : memoryWf t.mem = true := by
  obtain ⟨u, hmoves, ht⟩ := step_moves h
  rw [ht]
  exact hmoves.memoryWf hm

theorem step_violation {s t : State} (h : step s = .next t) (hv : t.violation = false) : s.violation = false := by
  obtain ⟨u, hm, ht⟩ := step_moves h
  rw [ht] at hv
  exact hm.violation hv

/-- A field that the step may write with one value only, if at all, keeps that value while the host keeps its
contract. -/
theorem step_fieldValue {s t : State} (h : step s = .next t) (hm : memoryWf s.mem = true) (hv : t.violation = false)
    {c : Chan} {f : Field} (hf : f ≠ .command) {w : Nat} (hw : w < 256 ^ fieldBytes f)
    (hK : ∀ v, (stepScope s).field c f v → v = w) (hs : fieldValue c f s = w) : fieldValue c f t = w := by
  obtain ⟨u, hmoves, ht⟩ := step_moves h
  rw [ht] at hv ⊢
  exact hmoves.fieldValue (wf_of_step h) hm hv hf hw hK hs

/-- Settles O47: the flag is false at power-on, and every move keeps it set. -/
theorem violationIsSticky : Obligations.ViolationIsSticky := by
  unfold Obligations.ViolationIsSticky
  refine ⟨fun p m v q c e => rfl, fun s a ha => ?_, fun s t h hv => ?_⟩
  · rw [hostAct_violation, ha, Bool.or_true]
  · by_contra ht
    rw [step_violation h (by simpa using ht)] at hv
    cases hv

/-- Settles O54: the scope of a step holds no write to a payload field but the response to a counter read. -/
theorem payloadWrittenOnlyByCounterRead : Obligations.PayloadWrittenOnlyByCounterRead := by
  unfold Obligations.PayloadWrittenOnlyByCounterRead
  intro s t hm h hv
  have kept : ∀ c, ∀ f ∈ [Field.payload0, Field.payload1], (∀ v, ¬ (stepScope s).field c f v) →
      fieldValue c f t = fieldValue c f s := by
    intro c f hf hK
    have hcmd : f ≠ .command := by rintro rfl; simp at hf
    exact step_fieldValue h hm hv hcmd (readLE_lt _ _ _) (fun v hw => absurd hw (hK v)) rfl
  have unstamped : ∀ c, ∀ f ∈ [Field.payload0, Field.payload1], ∀ v, ¬ stampWrite s.params c f v := by
    rintro c f hf v (⟨rfl, -⟩ | ⟨rfl, -⟩) <;> simp at hf
  refine ⟨fun f hf => kept .ch1 f hf ?_, fun hread f hf => kept .ch0 f hf ?_⟩
  · rintro v (hw | ⟨hc, -⟩)
    · exact unstamped _ f hf v hw
    · cases hc
  · rintro v (hw | ⟨-, -, -, hr⟩)
    · exact unstamped _ f hf v hw
    · exact hread hr

/-- Settles O55: no move touches a byte outside the records. -/
theorem stepTouchesOnlyTheRecords : Obligations.StepTouchesOnlyTheRecords := by
  unfold Obligations.StepTouchesOnlyTheRecords
  intro s t a h h0 h1
  obtain ⟨u, hm, ht⟩ := step_moves h
  rw [ht]
  exact hm.readByte_outside h0 h1

/-- Settles O56: TRIG is in the scope of H3 alone. -/
theorem onlyWriteBackClearsTheTrigger : Obligations.OnlyWriteBackClearsTheTrigger := by
  unfold Obligations.OnlyWriteBackClearsTheTrigger
  intro s t h hs hp
  obtain ⟨u, hm, ht⟩ := step_moves h
  rw [ht]
  exact (hm.trig_silent hp hs).1

/-- Settles O58: no move shortens the history or changes the parameters. -/
theorem historyGrowsAndParametersStay : Obligations.HistoryGrowsAndParametersStay := by
  unfold Obligations.HistoryGrowsAndParametersStay
  intro s t h
  obtain ⟨u, hm, ht⟩ := step_moves h
  obtain ⟨evs, htrace⟩ := hm.trace
  exact ⟨step_params h, evs, by rw [ht]; exact htrace.symm⟩

/-- Settles O48: the laws of a host turn. -/
theorem hostCannotTouchTheBlock : Obligations.HostCannotTouchTheBlock := by
  unfold Obligations.HostCannotTouchTheBlock
  intro s
  exact ⟨hostTurn_phase s, hostTurn_x s, hostTurn_irq s, hostTurn_irqActive s, hostTurn_params s, hostTurn_cop s,
    hostTurn_trace s, fun a => readByte_hostTurn_outside s⟩

end Sys2Proof.Machine
end

section
/-! PROOFS of the invariant (10_state.md, 43_dispatch_sequencer.md, 60_exceptions.md): every step keeps `Inv`, and from
a state of `Inv` a step goes on. Parameters, memory and stamped records follow from the scope of a step; the latches,
TRIG and the active state from the order of the steps. -/

namespace Sys2Proof.Machine

/-! ### What a step outside its scope leaves -/

theorem step_phase_handling {s t : State} (h : step s = .next t) {k : HStep} (hp : s.phase = .handling k) :
    t.phase = nextStep k := handlerStep_phase (step_handling (wf_of_step h) hp ▸ h)

theorem step_phase_uninit {s t : State} (h : step s = .next t) {k : SStep} (hp : s.phase = .uninit k) :
    t.phase = nextStartup k := startupStep_phase (step_uninit (wf_of_step h) hp ▸ h)

theorem step_phase_idle {s t : State} (h : step s = .next t) (hp : s.phase = .idle) :
    t.phase = .idle ∨ t.phase = .handling .h1 := idleStep_phase hp (step_idle (wf_of_step h) hp ▸ h)

theorem step_irqActive {s t : State} (h : step s = .next t) (hK : ¬ (stepScope s).active) :
    t.irqActive = s.irqActive := by
  obtain ⟨u, hm, ht⟩ := step_moves h
  rw [ht]
  exact hm.irqActive hK

theorem step_request {s t : State} (h : step s = .next t) (hK : ¬ (stepScope s).latches) :
    SameRequest s.x t.x := by
  obtain ⟨u, hm, ht⟩ := step_moves h
  rw [ht]
  exact hm.request hK

theorem step_trig_handling {s t : State} (h : step s = .next t) {k : HStep} (hp : s.phase = .handling k)
    (hk : k ≠ .h3) (hv : t.violation = false) : t.trig = s.trig := by
  obtain ⟨u, hm, ht⟩ := step_moves h
  rw [ht] at hv ⊢
  exact hm.trig_handling (fun h3 : s.phase = .handling .h3 => hk (by simpa [hp] using h3)) hp hv

/-! ### The equations of H1 to H4 and H9 -/

section
variable {s t : State} (h : step s = .next t)
include h

theorem step_h1 (hp : s.phase = .handling .h1) : ackId s = s.params.trigIrqId
    ∧ t = ((gicAck s).1.setX { s.x with id := some s.params.trigIrqId }).setPhase (.handling .h2) := by
  rw [step_handling (wf_of_step h) hp, handlerStep] at h
  by_cases hid : ackId s = s.params.trigIrqId
  · rw [stepH1_eq s hid] at h; cases h; exact ⟨hid, rfl⟩
  · rw [stepH1_foreign s hid] at h; cases h

theorem step_h2 (hp : s.phase = .handling .h2) :
    t = ((readTrig s).1.setX { s.x with v := some (hostTurn s).trig }).setPhase (.handling .h3) := by
  rw [step_handling (wf_of_step h) hp, handlerStep, stepH2_eq] at h
  cases h
  rfl

theorem step_h3 (hp : s.phase = .handling .h3) :
    ∃ v, s.x.v = some v ∧ t = (writeTrig v s).setPhase (.handling .h4) := by
  rw [step_handling (wf_of_step h) hp] at h
  obtain ⟨v, hv, ht⟩ := withLatch_eq_next h
  cases ht
  exact ⟨v, hv, rfl⟩

theorem step_h4 (hp : s.phase = .handling .h4) : ∃ v, s.x.v = some v
    ∧ t = ((hostTurn s).setX (decodedLatches s.params.clkGate v s.x)).setPhase (.handling .h5) := by
  rw [step_handling (wf_of_step h) hp] at h
  obtain ⟨v, hv, -⟩ := withLatch_eq_next h
  rw [handlerStep, stepH4_eq hv] at h
  cases h
  exact ⟨v, hv, rfl⟩

theorem step_h9 (hp : s.phase = .handling .h9) :
    ∃ i, s.x.id = some i ∧ t = (gicEoi i s).setPhase (.handling .h10) := by
  rw [step_handling (wf_of_step h) hp] at h
  obtain ⟨i, hi, ht⟩ := withLatch_eq_next h
  cases ht
  exact ⟨i, hi, rfl⟩

end

/-! ### The parts of the invariant -/

/-- The latches that `latchesFit` names are request latches. -/
theorem SameRequest.fit {g : ClkGate} {i : Word} {x y : Latches} (h : SameRequest x y)
    (hx : x.id = some i ∧ requestLatched g x) : y.id = some i ∧ requestLatched g y := by
  rw [SameRequest] at h
  rw [h]
  exact hx

theorem requestLatched_decodedLatches {g : ClkGate} {v : Word} {x : Latches} (h : x.v = some v) :
    requestLatched g (decodedLatches g v x) := ⟨v, h, rfl, rfl, rfl, rfl, rfl, rfl⟩

theorem latchesFit_step {s t : State} (hi : Inv s) (h : step s = .next t) : latchesFit t := by
  have hw := wf_of_step h
  have hfit := hi.latches
  cases hp : s.phase with
  | uninit k =>
    have ht := step_phase_uninit h hp
    have hx := (startupStep_keeps (step_uninit hw hp ▸ h)).1
    rw [latchesFit, hp] at hfit
    cases k <;> (rw [latchesFit, ht]; exact hx.trans hfit)
  | idle =>
    have hx := (idleStep_keeps (step_idle hw hp ▸ h)).1
    rw [latchesFit, hp] at hfit
    rcases step_phase_idle h hp with ht | ht <;> (rw [latchesFit, ht]; exact hx.trans hfit)
  | handling k =>
    have ht := step_phase_handling h hp
    have kept (hk : ¬ (stepScope s).latches) := step_request h hk
    rw [latchesFit, hp] at hfit
    rw [latchesFit, ht, step_params h]
    cases k with
    | h1 => obtain ⟨-, rfl⟩ := step_h1 h hp; change s.x = {} at hfit; simp [nextStep, hfit]
    | h2 => rw [step_h2 h hp]; change s.x = _ at hfit; exact ⟨_, by simp [hfit]; rfl⟩
    | h3 => obtain ⟨v, -, rfl⟩ := step_h3 h hp; simpa [nextStep] using hfit
    | h4 =>
      obtain ⟨v, hv, rfl⟩ := step_h4 h hp
      obtain ⟨w, hx⟩ := hfit
      exact ⟨by simp [decodedLatches, hx], requestLatched_decodedLatches hv⟩
    | h5 => exact (kept (by simp [stepScope, hp])).fit hfit
    | h6 => exact (kept (by simp [stepScope, hp])).fit hfit
    | h7 => exact (kept (by simp [stepScope, hp])).fit hfit
    | h8 => exact (kept (by simp [stepScope, hp])).fit hfit
    | h9 => exact (kept (by simp [stepScope, hp])).fit hfit
    | h10 => exact step_x_h10 h hp

theorem configured_before_nextStartup {k : SStep} (hk : k ≠ .s2) (h : beforeConfiguration (nextStartup k) = false) :
    beforeConfiguration (.uninit k) = false := by
  cases k <;> simp_all [nextStartup, beforeConfiguration]

theorem primed_before_nextStartup {k : SStep} (hk : k ≠ .s6) (h : beforePriming (nextStartup k) = false) :
    beforePriming (.uninit k) = false := by
  cases k <;> simp_all [nextStartup, beforePriming]

/-- Once S2 has configured the line, no step changes the configuration (R36). -/
theorem configured_step {s t : State} (hi : Inv s) (h : step s = .next t)
    (ht : beforeConfiguration t.phase = false) : t.irq = triggerLineConfig t.params := by
  rw [step_params h]
  by_cases hs2 : s.phase = .uninit .s2
  · exact step_irq_s2 h hs2
  · rw [step_irq h hs2]
    refine hi.configured ?_
    cases hp : s.phase with
    | uninit k =>
      rw [step_phase_uninit h hp] at ht
      exact configured_before_nextStartup (by rintro rfl; exact hs2 hp) ht
    | idle => rfl
    | handling k => rfl

/-- The active state begins at H1 and ends at H9 (R215). -/
theorem active_step {s t : State} (hi : Inv s) (h : step s = .next t) : t.irqActive = activeIn t.phase := by
  have hact := hi.active
  have hfit := hi.latches
  cases hp : s.phase with
  | uninit k =>
    rw [step_irqActive h (by simp [stepScope, hp]), hact, step_phase_uninit h hp, hp]
    cases k <;> rfl
  | idle =>
    rw [step_irqActive h (by simp [stepScope, hp]), hact, hp]
    rcases step_phase_idle h hp with ht | ht
    · rw [ht]
    · rw [ht]; rfl
  | handling k =>
    rw [step_phase_handling h hp]
    have kept (hk : ¬ (stepScope s).active) : t.irqActive = activeIn (.handling k) := by
      rw [step_irqActive h hk, hact, hp]
    rw [latchesFit, hp] at hfit
    cases k with
    | h1 => obtain ⟨-, rfl⟩ := step_h1 h hp; simp [nextStep, activeIn]
    | h2 => exact kept (by simp [stepScope, hp])
    | h3 => exact kept (by simp [stepScope, hp])
    | h4 => exact kept (by simp [stepScope, hp])
    | h5 => exact kept (by simp [stepScope, hp])
    | h6 => exact kept (by simp [stepScope, hp])
    | h7 => exact kept (by simp [stepScope, hp])
    | h8 => exact kept (by simp [stepScope, hp])
    | h9 =>
      obtain ⟨i, hid, rfl⟩ := step_h9 h hp
      obtain rfl : i = s.params.trigIrqId := Option.some.inj (hid.symm.trans hfit.1)
      simp [nextStep, activeIn]
    | h10 => exact kept (by simp [stepScope, hp])

/-- The scope of a step lets signature and status be written with the idle values only (R141, R151). -/
theorem step_recordStamped {s t : State} (h : step s = .next t) (hm : memoryWf s.mem = true)
    (hv : t.violation = false) {c : Chan} (hs : recordStamped c s) : recordStamped c t := by
  obtain ⟨hsig, hst⟩ := hs
  rw [recordStamped, step_params h]
  constructor
  · refine step_fieldValue h hm hv (by simp) (sigOf _ c).isLt ?_ hsig
    rintro v ((⟨-, rfl⟩ | ⟨hf, -⟩) | ⟨-, hf, -⟩)
    · rfl
    · cases hf
    · exact absurd rfl hf
  · refine step_fieldValue h hm hv (by simp) (by decide) ?_ hst
    rintro v ((⟨hf, -⟩ | ⟨-, rfl⟩) | ⟨-, -, hf, -⟩)
    · cases hf
    · rfl
    · exact absurd rfl hf

/-- S6 stamps both records, and no later step spoils them while the host keeps its contract. -/
theorem stamped_step {s t : State} (hi : Inv s) (h : step s = .next t) (hv : t.violation = false)
    (ht : beforePriming t.phase = false) : recordsStamped t := by
  by_cases hs6 : s.phase = .uninit .s6
  · rw [step_uninit (wf_of_step h) hs6] at h
    cases h
    exact recordsStamped_resetBoth hi.params hi.memory hv
  · have hprimed : beforePriming s.phase = false := by
      cases hp : s.phase with
      | uninit k =>
        rw [step_phase_uninit h hp] at ht
        exact primed_before_nextStartup (by rintro rfl; exact hs6 hp) ht
      | idle => rfl
      | handling k => rfl
    obtain ⟨h0, h1⟩ := hi.stamped (step_violation h hv) hprimed
    exact ⟨step_recordStamped h hi.memory hv h0, step_recordStamped h hi.memory hv h1⟩

/-- Either write-back clears TRIG when it still holds the written word (R194). -/
theorem ackedTrig_self (m : TrigAckMode) (v : Word) : ackedTrig m v v = 0 := by
  cases m with
  | w1c => exact BitVec.and_not_self v
  | clearAll => rfl

/-- A delivery needs the line asserted (R190). -/
theorem trig_ne_zero_of_delivered {s t : State} (h : step s = .next t) (hp : s.phase = .idle)
    (ht : t.phase = .handling .h1) : t.trig ≠ 0 := by
  rw [step_idle (wf_of_step h) hp, idleStep] at h
  split at h
  · next hd =>
    cases h
    simp only [deliverable, lineLevel, Bool.and_eq_true, decide_eq_true_eq] at hd
    exact hd.1.2
  · cases h
    rw [hostTurn_phase, hp] at ht
    cases ht

theorem trigFits_step {s t : State} (hi : Inv s) (h : step s = .next t) (hv : t.violation = false) : trigFits t := by
  have hfit : trigFits s := hi.trig (step_violation h hv)
  cases hp : s.phase with
  | uninit k => rw [trigFits, step_phase_uninit h hp]; cases k <;> trivial
  | idle =>
    rcases step_phase_idle h hp with ht | ht
    · rw [trigFits, ht]; trivial
    · rw [trigFits, ht]; exact trig_ne_zero_of_delivered h hp ht
  | handling k =>
    have kept (hk : k ≠ .h3) : t.trig = s.trig := step_trig_handling h hp hk hv
    rw [trigFits, hp] at hfit
    rw [trigFits, step_phase_handling h hp]
    cases k with
    | h1 => exact fun hz => hfit ((kept nofun).symm.trans hz)
    | h2 =>
      have htrig := kept nofun
      refine ⟨fun hz => hfit (htrig.symm.trans hz), ?_⟩
      rw [step_h2 h hp]
      simp
    | h3 =>
      obtain ⟨v, hx, rfl⟩ := step_h3 h hp
      obtain ⟨-, hlatched⟩ := hfit
      obtain rfl : v = s.trig := Option.some.inj (hx.symm.trans hlatched)
      have hturn : (hostTurn s).trig = s.trig := trig_hostTurn_handling hp (by simpa using hv)
      simp [nextStep, hturn, ackedTrig_self]
    | h4 => exact (kept nofun).trans hfit
    | h5 => exact (kept nofun).trans hfit
    | h6 => exact (kept nofun).trans hfit
    | h7 => exact (kept nofun).trans hfit
    | h8 => exact (kept nofun).trans hfit
    | h9 => exact (kept nofun).trans hfit
    | h10 => trivial

/-- The invariant is kept part by part. -/
theorem Inv.step {s t : State} (hi : Inv s) (h : step s = .next t) : Inv t where
  params := by rw [step_params h]; exact hi.params
  memory := step_memoryWf h hi.memory
  latches := latchesFit_step hi h
  configured := configured_step hi h
  active := active_step hi h
  stamped := stamped_step hi h
  trig := trigFits_step hi h

/-- Settles O51: `Inv.step`. -/
theorem everyStepKeepsTheInvariant : Obligations.EveryStepKeepsTheInvariant := by
  unfold Obligations.EveryStepKeepsTheInvariant
  exact fun _ _ => Inv.step

/-- Settles O50: at reset no clause about a later phase applies. -/
theorem resetMeetsTheInvariant : Obligations.ResetMeetsTheInvariant := by
  unfold Obligations.ResetMeetsTheInvariant
  exact {
    params := by decide
    memory := reset_memory_wf
    latches := rfl
    configured := nofun
    active := rfl
    stamped := nofun
    trig := fun _ => trivial }

/-! ### A step goes on -/

theorem startupStep_answers_next (k : SStep) (s : State) : ∃ t, startupStep k s = .next t := by
  cases k <;> exact ⟨_, rfl⟩

theorem idleStep_answers_next (s : State) : ∃ t, idleStep s = .next t := by
  rw [idleStep]
  split
  · exact ⟨_, rfl⟩
  · exact ⟨_, rfl⟩

theorem stepH5_answers_next {s : State} {cnt : Bool} (h : s.x.cnt = some cnt) : ∃ t, stepH5 s = .next t := by
  cases cnt with
  | false => exact ⟨_, stepH5_skip h⟩
  | true =>
    obtain ⟨u, hu⟩ := exec_answers_next (decodeCommand (BitVec.ofNat 16 (fieldValue .ch0 .command (hostTurn s))))
      (commandRead s)
    exact ⟨_, by rw [stepH5_eq h, hu, andThen_next]⟩

theorem stepH6_answers_next {s : State} {fan : Bool} (h : s.x.fan = some fan) : ∃ t, stepH6 s = .next t := by
  cases fan with
  | false => exact ⟨_, stepH6_skip h⟩
  | true => exact ⟨_, stepH6_eq h⟩

theorem stepH7_answers_next {s : State} {g : ClkGate} (h : requestLatched g s.x) : ∃ t, stepH7 s = .next t := by
  obtain ⟨v, -, -, -, hpwm, hclk, hduty, hmhz⟩ := h
  cases hp : flagPwm v with
  | true => exact ⟨_, stepH7_pwm (hp ▸ hpwm) hduty⟩
  | false =>
    cases hc : flagClk g v with
    | true => exact ⟨_, stepH7_clk (hp ▸ hpwm) (hc ▸ hclk) hmhz⟩
    | false => exact ⟨_, stepH7_skip (hp ▸ hpwm) (hc ▸ hclk)⟩

/-- With the latches of its step, an invocation goes on at every step but the acknowledge. -/
theorem handlerStep_answers_next {s : State} {k : HStep} (hp : s.phase = .handling k) (hk : k ≠ .h1)
    (hfit : latchesFit s) : ∃ t, handlerStep k s = .next t := by
  rw [latchesFit, hp] at hfit
  cases k with
  | h1 => exact absurd rfl hk
  | h2 => exact ⟨_, stepH2_eq s⟩
  | h3 => obtain ⟨v, hx⟩ := hfit; exact ⟨_, stepH3_eq (v := v) (by rw [hx])⟩
  | h4 => obtain ⟨v, hx⟩ := hfit; exact ⟨_, stepH4_eq (v := v) (by rw [hx])⟩
  | h5 => obtain ⟨-, v, -, hcnt, -⟩ := hfit; exact stepH5_answers_next hcnt
  | h6 => obtain ⟨-, v, -, -, hfan, -⟩ := hfit; exact stepH6_answers_next hfan
  | h7 => exact stepH7_answers_next hfit.2
  | h8 => exact ⟨_, rfl⟩
  | h9 => exact ⟨_, stepH9_eq hfit.1⟩
  | h10 => exact ⟨_, rfl⟩

/-- Settles O52: the latches of the invariant are all that a step reads, so only H1 can refuse. -/
theorem invariantStatesNeverFault : Obligations.InvariantStatesNeverFault := by
  unfold Obligations.InvariantStatesNeverFault
  intro s hi
  cases hp : s.phase with
  | uninit k => exact .inl (by rw [step_uninit hi.params hp]; exact startupStep_answers_next k s)
  | idle => exact .inl (by rw [step_idle hi.params hp]; exact idleStep_answers_next s)
  | handling k =>
    rw [step_handling hi.params hp]
    by_cases hk : k = .h1
    · subst hk
      by_cases hid : ackId s = s.params.trigIrqId
      · exact .inl ⟨_, stepH1_eq s hid⟩
      · exact .inr ⟨rfl, hid, stepH1_foreign s hid⟩
    · exact .inl (handlerStep_answers_next hp hk hi.latches)

end Sys2Proof.Machine
end

section
/-! PROOFS that the block detects no breach (60_exceptions.md): two states that differ in the contract flag at most
answer alike, transaction by transaction, and so step by step. -/

namespace Sys2Proof.Machine

/-- Two states that differ in the contract flag at most. -/
def Twin (s t : State) : Prop := ∃ b, t = s.setViolation b

/-- Two results of a transaction: states that differ in the flag at most, and one value. -/
def TwinWith {α : Type} (p q : State × α) : Prop := Twin p.1 q.1 ∧ p.2 = q.2

/-- Two answers of a step that differ in the flag at most. -/
inductive TwinAnswer : Host.Outcome State Fault Refusal → Host.Outcome State Fault Refusal → Prop
  | next {s t : State} (h : Twin s t) : TwinAnswer (.next s) (.next t)
  | fault (r : Fault) : TwinAnswer (.fault r) (.fault r)
  | refused (r : Refusal) : TwinAnswer (.refused r) (.refused r)

theorem TwinAnswer.andThen {o o' : Host.Outcome State Fault Refusal}
    {f g : State → Host.Outcome State Fault Refusal} (h : TwinAnswer o o')
    (hfg : ∀ s t, Twin s t → TwinAnswer (f s) (g t)) : TwinAnswer (andThen o f) (andThen o' g) := by
  cases h with
  | next h => exact hfg _ _ h
  | fault r => exact .fault r
  | refused r => exact .refused r

theorem TwinAnswer.withLatch {α : Type} (l : Latch) (v : Option α)
    {f g : α → Host.Outcome State Fault Refusal} (hfg : ∀ a, TwinAnswer (f a) (g a)) :
    TwinAnswer (withLatch l v f) (withLatch l v g) := by
  cases v with
  | some a => exact hfg a
  | none => exact .fault _

section
variable {o : Host.Outcome State Fault Refusal}

theorem TwinAnswer.of_next {t : State} (h : TwinAnswer (.next t) o) : ∃ v, o = .next (t.setViolation v) := by
  cases h with
  | next hu => obtain ⟨v, rfl⟩ := hu; exact ⟨v, rfl⟩
theorem TwinAnswer.of_fault {r : Fault} (h : TwinAnswer (.fault r) o) : o = .fault r := by cases h; rfl
theorem TwinAnswer.of_refused {r : Refusal} (h : TwinAnswer (.refused r) o) : o = .refused r := by cases h; rfl

end

namespace Twin

variable {s t : State}

/-! ### What twins share -/

theorem refl (s : State) : Twin s s := ⟨s.violation, rfl⟩
theorem params (h : Twin s t) : s.params = t.params := by obtain ⟨b, rfl⟩ := h; rfl
theorem phase (h : Twin s t) : s.phase = t.phase := by obtain ⟨b, rfl⟩ := h; rfl
theorem x (h : Twin s t) : s.x = t.x := by obtain ⟨b, rfl⟩ := h; rfl
theorem fieldValue (h : Twin s t) (c : Chan) (f : Field) : fieldValue c f s = fieldValue c f t := by
  obtain ⟨b, rfl⟩ := h; rfl
theorem deliverable (h : Twin s t) : deliverable s = deliverable t := by obtain ⟨b, rfl⟩ := h; rfl

/-- An update that neither reads nor writes the flag keeps twins twins. -/
theorem map (h : Twin s t) (f : State → State) (hf : ∀ s b, f (s.setViolation b) = (f s).setViolation b) :
    Twin (f s) (f t) := by
  obtain ⟨b, rfl⟩ := h
  exact ⟨b, hf s b⟩

theorem emit (h : Twin s t) (e : Event) : Twin (emit e s) (emit e t) := h.map _ fun _ _ => rfl
theorem setX (h : Twin s t) (x : Latches) : Twin (s.setX x) (t.setX x) := h.map (·.setX x) fun _ _ => rfl
theorem mapX (h : Twin s t) (g : Latches → Latches) : Twin (s.setX (g s.x)) (t.setX (g t.x)) :=
  h.map (fun u => u.setX (g u.x)) fun _ _ => rfl
theorem setPhase (h : Twin s t) (p : Phase) : Twin (s.setPhase p) (t.setPhase p) :=
  h.map (·.setPhase p) fun _ _ => rfl

/-! ### The host's turn -/

theorem hostEffect_setViolation (a : HostAction) (s : State) (b : Bool) :
    hostEffect a (s.setViolation b) = (hostEffect a s).setViolation b := by cases a <;> rfl

theorem hostAct (h : Twin s t) (a : HostAction) : Twin (hostAct a s) (hostAct a t) := by
  obtain ⟨b, rfl⟩ := h
  refine ⟨b || violates s.phase a, ?_⟩
  simp only [Machine.hostAct, hostEffect_setViolation]
  rfl

theorem hostBatch (h : Twin s t) (b : List HostAction) : Twin (hostBatch b s) (hostBatch b t) := by
  induction b generalizing s t with
  | nil => exact h
  | cons a as ih => exact ih (h.hostAct a)

theorem hostTurn (h : Twin s t) : Twin (hostTurn s) (hostTurn t) := by
  have henv : t.env = s.env := by obtain ⟨b, rfl⟩ := h; rfl
  unfold Machine.hostTurn
  rw [henv]
  split
  · exact h
  · exact (h.map (·.setEnv _) fun _ _ => rfl).hostBatch _

/-! ### The block's transactions -/

theorem perfConsume (h : Twin s t) : Twin (perfConsume s) (perfConsume t) := by
  refine h.map _ fun s b => ?_
  simp only [Machine.perfConsume, State.setViolation_env]
  split <;> rfl

theorem rpcConsume (h : Twin s t) : Twin (rpcConsume s) (rpcConsume t) := by
  refine h.map _ fun s b => ?_
  simp only [Machine.rpcConsume, State.setViolation_env]
  split <;> rfl

theorem perfValue (h : Twin s t) : perfValue s = perfValue t := by obtain ⟨b, rfl⟩ := h; rfl
theorem rpcAnswer (h : Twin s t) : rpcAnswer s = rpcAnswer t := by obtain ⟨b, rfl⟩ := h; rfl
theorem ackId (h : Twin s t) : ackId s = ackId t := by obtain ⟨b, rfl⟩ := h; rfl

theorem readField (h : Twin s t) (c : Chan) (f : Field) : TwinWith (readField c f s) (readField c f t) := by
  refine ⟨?_, h.hostTurn.fieldValue c f⟩
  exact h.hostTurn.map
    (fun u => Machine.emit (.memRead (fieldAddr u.params c f) (fieldBytes f) (Machine.fieldValue c f u)) u)
    fun _ _ => rfl

theorem writeField (h : Twin s t) (c : Chan) (f : Field) (v : Nat) : Twin (writeField c f v s) (writeField c f v t) :=
  h.hostTurn.map
    (fun u => Machine.emit (.memWrite (fieldAddr u.params c f) (fieldBytes f) v)
      (u.setMem (writeLE u.mem (fieldAddr u.params c f) (fieldBytes f) v)))
    fun _ _ => rfl

theorem readTrig (h : Twin s t) : TwinWith (readTrig s) (readTrig t) := by
  obtain ⟨b, hb⟩ := h.hostTurn
  simp only [Machine.readTrig, hb]
  exact ⟨⟨b, rfl⟩, rfl⟩

theorem writeTrig (h : Twin s t) (v : Word) : Twin (writeTrig v s) (writeTrig v t) := by
  obtain ⟨b, hb⟩ := h.hostTurn
  simp only [Machine.writeTrig, hb]
  exact ⟨b, rfl⟩

theorem readPerf (h : Twin s t) : TwinWith (readPerf s) (readPerf t) := by
  have hturn := h.hostTurn
  refine ⟨?_, hturn.perfValue⟩
  simp only [Machine.readPerf, hturn.params, hturn.perfValue]
  exact hturn.perfConsume.emit _

theorem rpcCall (h : Twin s t) (op : RpcOp) : TwinWith (rpcCall op s) (rpcCall op t) := by
  have hturn := h.hostTurn
  have hcop : (Machine.hostTurn s).cop = (Machine.hostTurn t).cop := by obtain ⟨b, hb⟩ := hturn; rw [hb]; rfl
  refine ⟨?_, hturn.rpcAnswer⟩
  simp only [Machine.rpcCall, hturn.params, hturn.rpcAnswer, hcop]
  exact (hturn.rpcConsume.map (·.setCop _) fun _ _ => rfl).emit _

theorem latchClock (h : Twin s t) (a : RpcAnswer) : Twin (latchClock a s) (latchClock a t) := by
  refine h.map _ fun s b => ?_
  simp only [Machine.latchClock]
  split <;> rfl

theorem latchAnswer {p q : State × RpcAnswer} (h : TwinWith p q) :
    Twin (Machine.latchClock p.2 p.1) (Machine.latchClock q.2 q.1) := by
  obtain ⟨htwin, hval⟩ := h
  rw [hval]
  exact htwin.latchClock _

theorem gicAck (h : Twin s t) : TwinWith (gicAck s) (gicAck t) := by
  obtain ⟨b, hb⟩ := h.hostTurn
  simp only [Machine.gicAck, hb]
  exact ⟨⟨b, rfl⟩, rfl⟩

theorem gicEoi (h : Twin s t) (i : Word) : Twin (gicEoi i s) (gicEoi i t) := by
  obtain ⟨b, hb⟩ := h.hostTurn
  simp only [Machine.gicEoi, hb]
  exact ⟨b, rfl⟩

/-! ### The channel operations -/

theorem resetIdle (h : Twin s t) (c : Chan) : Twin (resetIdle c s) (resetIdle c t) := by
  simp only [Machine.resetIdle, h.params]
  exact (h.writeField ..).writeField ..

theorem resetBoth (h : Twin s t) : Twin (resetBoth s) (resetBoth t) := (h.resetIdle .ch0).resetIdle .ch1

theorem cntError (h : Twin s t) (cmd : Half) : Twin (cntError cmd s) (cntError cmd t) := by
  obtain ⟨h1, e1⟩ := h.readField .ch0 .signature
  obtain ⟨h2, e2⟩ := h1.readField .ch0 .status
  obtain ⟨h3, e3⟩ := h2.readField .ch0 .payload0
  obtain ⟨h4, e4⟩ := h3.readField .ch0 .payload1
  simp only [Machine.cntError, e1, e2, e3, e4]
  exact (h4.emit _).resetIdle .ch0

theorem fanService (h : Twin s t) : Twin (fanService s) (fanService t) := by
  obtain ⟨h1, e1⟩ := h.readField .ch1 .signature
  obtain ⟨h2, e2⟩ := h1.readField .ch1 .command
  obtain ⟨h3, e3⟩ := h2.readField .ch1 .status
  obtain ⟨h4, e4⟩ := h3.readField .ch1 .payload0
  obtain ⟨h5, e5⟩ := h4.readField .ch1 .payload1
  simp only [Machine.fanService, e1, e2, e3, e4, e5]
  exact (h5.emit _).resetIdle .ch1

theorem cntSample (h : Twin s t) : Twin (cntSample s) (cntSample t) := by
  obtain ⟨h1, e1⟩ := h.readPerf
  have h2 := h1.mapX fun x => { x with r := some (Machine.readPerf s).2 }
  have h3 := latchAnswer (h2.rpcCall (.getClock (Machine.readPerf s).1.params.clkId))
  have h4 := h3.mapX fun x => { x with d := x.c.map (delivered (Machine.readPerf s).2) }
  simp only [Machine.cntSample, State.setX_params, ← e1, ← h1.params]
  exact h4

theorem cntRespond (h : Twin s t) (r d : Word) : Twin (cntRespond r d s) (cntRespond r d t) := by
  have h1 := (h.writeField .ch0 .payload0 r.toNat).writeField .ch0 .payload1 d.toNat
  simp only [Machine.cntRespond, resetIdleCmd, h1.params]
  exact ((h1.writeField ..).writeField ..).writeField ..

/-! ### The instructions and the steps -/

theorem openRequest (h : Twin s t) (v : Word) : Twin (openRequest v s) (openRequest v t) :=
  h.map (Machine.openRequest v) fun _ _ => rfl

theorem exec (h : Twin s t) (i : Instr) : TwinAnswer (exec i s) (exec i t) := by
  have call (op : RpcOp) : Twin (Machine.rpcCall op s).1 (Machine.rpcCall op t).1 := (h.rpcCall op).1
  cases i with
  | trigCnt => exact .next (h.mapX fun x => { x with cnt := some true })
  | trigFan => exact .next (h.mapX fun x => { x with fan := some true })
  | trigPwm d => exact .next (h.mapX fun x => { x with pwm := some true, duty := some d })
  | trigClk v => exact .next (h.mapX fun x => { x with clk := some true, mhz := some (clampMhz v) })
  | cmdRead =>
    have hs := h.cntSample
    simp only [Machine.exec, execCmdRead, hs.x]
    exact .withLatch _ _ fun r => .withLatch _ _ fun d => .next (hs.cntRespond r d)
  | cmdWrite => exact .next (h.cntError _)
  | cmdOther c => exact .next (h.cntError c)
  | rpcGetBoardRev => simp only [exec_rpcGetBoardRev, h.rpcAnswer]; exact .next ((call _).emit _)
  | rpcGetClock =>
    simp only [Machine.exec, execRpcGetClock, rpcCall_value, h.phase, h.params, h.rpcAnswer]
    split
    · exact .next ((call _).latchClock _)
    · exact .next (call _)
    · exact .next (call _)
  | rpcGetMaxClock => simp only [exec_rpcGetMaxClock, h.rpcAnswer, h.params]; exact .next ((call _).emit _)
  | rpcSetClock hz => simp only [exec_rpcSetClock, h.params]; exact .next (call _)
  | rpcGetPwm => exact .next (call _)
  | rpcSetPwm d => exact .next (call _)
  | rpcSetPower d on w => exact .next (call _)

theorem execAll (h : Twin s t) (is : List Instr) : TwinAnswer (execAll is s) (execAll is t) := by
  induction is generalizing s t with
  | nil => exact .next h
  | cons i is ih => exact (h.exec i).andThen fun _ _ hu => ih hu

/-- After its service a step advances the sequencer. -/
theorem advance {o o' : Host.Outcome State Fault Refusal} (h : TwinAnswer o o') (p : Phase) :
    TwinAnswer (andThen o fun u => .next (u.setPhase p)) (andThen o' fun u => .next (u.setPhase p)) :=
  h.andThen fun _ _ hu => .next (hu.setPhase p)

theorem startupStep (h : Twin s t) (k : SStep) : TwinAnswer (startupStep k s) (startupStep k t) := by
  cases k with
  | s1 => exact .next (h.hostTurn.setPhase _)
  | s2 =>
    simp only [Machine.startupStep, stepS2, h.params]
    exact .next ((h.hostTurn.map (·.setIrq _) fun _ _ => rfl).setPhase _)
  | s3 => simp only [Machine.startupStep, stepS3, h.params]; exact advance (h.execAll _) _
  | s4 =>
    obtain ⟨h1, e1⟩ := h.rpcCall .getBoardRev
    obtain ⟨h2, e2⟩ := h1.rpcCall (.getClock t.params.clkId)
    obtain ⟨h3, e3⟩ := h2.rpcCall (.getMaxClock t.params.clkId)
    simp only [Machine.startupStep, stepS4, h.params, e1, e2, e3]
    exact .next ((h3.emit _).setPhase _)
  | s5 => simp only [Machine.startupStep, stepS5]; exact advance (h.exec _) _
  | s6 => exact .next (h.resetBoth.setPhase _)
  | s7 => exact .next (h.hostTurn.setPhase _)

theorem idleStep (h : Twin s t) : TwinAnswer (idleStep s) (idleStep t) := by
  simp only [Machine.idleStep, h.hostTurn.deliverable]
  split
  · exact .next (h.hostTurn.setPhase _)
  · exact .next h.hostTurn

theorem cntService (h : Twin s t) : TwinAnswer (cntService s) (cntService t) := by
  obtain ⟨h1, e1⟩ := h.readField .ch0 .command
  simp only [Machine.cntService, e1]
  exact (h1.mapX fun x => { x with cmd0 := some (BitVec.ofNat 16 (Machine.readField .ch0 .command t).2) }).exec _

theorem handlerStep (h : Twin s t) (k : HStep) : TwinAnswer (handlerStep k s) (handlerStep k t) := by
  cases k with
  | h1 =>
    obtain ⟨h1, e1⟩ := h.gicAck
    simp only [Machine.handlerStep, stepH1, h.params, e1]
    split
    · exact .next ((h1.mapX fun x => { x with id := some (Machine.gicAck t).2 }).setPhase _)
    · exact .refused _
  | h2 =>
    obtain ⟨h1, e1⟩ := h.readTrig
    simp only [Machine.handlerStep, stepH2, e1]
    exact .next ((h1.mapX fun x => { x with v := some (Machine.readTrig t).2 }).setPhase _)
  | h3 =>
    simp only [Machine.handlerStep, stepH3, h.x]
    exact .withLatch _ _ fun v => .next ((h.writeTrig v).setPhase _)
  | h4 =>
    simp only [Machine.handlerStep, stepH4, h.x, h.params]
    exact .withLatch _ _ fun v => advance ((h.hostTurn.openRequest v).execAll _) _
  | h5 =>
    simp only [Machine.handlerStep, stepH5, h.x]
    refine .withLatch _ _ fun cnt => advance ?_ _
    split
    · exact h.cntService
    · exact .next h.hostTurn
  | h6 =>
    simp only [Machine.handlerStep, stepH6, h.x]
    refine .withLatch _ _ fun fan => .next (.setPhase ?_ _)
    split
    · exact h.fanService
    · exact h.hostTurn
  | h7 =>
    simp only [Machine.handlerStep, stepH7, h.x]
    refine .withLatch _ _ fun pwm => advance ?_ _
    split
    · exact .withLatch _ _ fun d => h.exec _
    · refine .withLatch _ _ fun clk => ?_
      split
      · exact .withLatch _ _ fun m => h.exec _
      · exact .next h.hostTurn
  | h8 => exact .next (h.resetBoth.setPhase _)
  | h9 =>
    simp only [Machine.handlerStep, stepH9, h.x]
    exact .withLatch _ _ fun i => .next ((h.gicEoi i).setPhase _)
  | h10 =>
    exact .next ((h.hostTurn.setX {}).setPhase _)

theorem step (h : Twin s t) : TwinAnswer (step s) (step t) := by
  simp only [Machine.step, agentStep, h.params, h.phase]
  split
  · split
    · exact h.startupStep _
    · exact h.idleStep
    · exact h.handlerStep _
  · exact .refused _

end Twin

/-- Settles O46: a state and the same state with another flag are twins, so they answer alike. -/
theorem blockDoesNotDetectBreach : Obligations.BlockDoesNotDetectBreach := by
  unfold Obligations.BlockDoesNotDetectBreach
  intro s b
  have htwin : TwinAnswer (step s) (step (s.setViolation b)) := Twin.step ⟨b, rfl⟩
  exact ⟨fun t h => (h ▸ htwin).of_next, fun r h => (h ▸ htwin).of_fault, fun r h => (h ▸ htwin).of_refused⟩

end Sys2Proof.Machine
end

section
/-! PROOFS about the host, the registers and the parameters (20_memory.md, 60_exceptions.md, 00_scope.md): what one host
action does, which of them break the contract, what a stuck state is, and which parameter sets are refused. -/

namespace Sys2Proof.Machine

/-! ### TRIG and PERF -/

theorem ackedTrig_idempotent (m : TrigAckMode) (t v : Word) : ackedTrig m (ackedTrig m t v) v = ackedTrig m t v := by
  cases m with
  | w1c => rw [ackedTrig, ackedTrig, BitVec.and_assoc, BitVec.and_self]
  | clearAll => rfl

/-- Settles O42: `ackedTrig_idempotent`, and a read's frame is the host's turn. -/
theorem triggerWriteBackIsIdempotent : Obligations.TriggerWriteBackIsIdempotent := by
  unfold Obligations.TriggerWriteBackIsIdempotent
  exact ⟨ackedTrig_idempotent, fun s => ⟨readTrig_trig s, readTrig_mem s⟩,
    fun s c f => ⟨readField_mem c f s, readField_trig c f s⟩⟩

theorem perfValue_of_waiting {s : State} {d : Word} {rest : List Word} (h : s.env.perf = d :: rest) :
    perfValue s = d := by rw [perfValue, h]

/-- Settles O43: a waiting input is what the read returns, and with two inputs waiting the two reads return them. -/
theorem perfReadIsADraw : Obligations.PerfReadIsADraw := by
  unfold Obligations.PerfReadIsADraw
  refine ⟨fun s d rest h => ?_, fun d1 d2 => ?_, fun s v => rfl⟩
  · rw [readPerf_value, readPerf_perf, h]
    exact ⟨perfValue_of_waiting h, rfl⟩
  · refine ⟨State.reset.setEnv { perf := [d1, d2] }, ?_, ?_⟩
    · rw [readPerf_value]; exact perfValue_of_waiting rfl
    · rw [readPerf_value]; exact perfValue_of_waiting (rest := []) (by simp)

/-! ### One host action -/

/-- Settles O44: the mode decides the new TRIG, the phase the flag, and no other field changes. -/
theorem hostRaiseSetsTrigger : Obligations.HostRaiseSetsTrigger := by
  unfold Obligations.HostRaiseSetsTrigger
  intro s v
  have htrig : (hostAct (.raise v) s).trig = raisedTrig s.params.trigRaiseMode s.trig v := rfl
  refine ⟨_, rfl, fun hm => ?_, fun hm => ?_, ?_, fun hp => ?_, rfl⟩
  · rw [htrig, hm]; rfl
  · rw [htrig, hm]; rfl
  · rintro ⟨k, hp⟩
    rw [hostAct_violation, hp]
    exact Bool.or_true _
  · rw [hostAct_violation, hp]
    exact Bool.or_false _

/-- Settles O49: a host read appends what it sees to the host's reads and touches nothing else but the flag. -/
theorem hostReadsSeeCurrentMemory : Obligations.HostReadsSeeCurrentMemory := by
  unfold Obligations.HostReadsSeeCurrentMemory
  exact ⟨fun s ch sl => ⟨_, rfl, rfl, rfl⟩, fun s => ⟨_, rfl, rfl, rfl⟩⟩

theorem slotBytes_pos (sl : RecSlot) : 0 < slotBytes sl := by cases sl <;> simp [slotBytes]

/-- A slot is outside the `command` field exactly if one of its bytes is (R33). -/
theorem slotInCommand_eq_false_iff (sl : RecSlot) : slotInCommand sl = false ↔
    ∃ i, i < slotBytes sl ∧ ¬(4 ≤ slotOffset sl + i ∧ slotOffset sl + i < 6) := by
  have hpos := slotBytes_pos sl
  constructor
  · intro h
    by_cases hlo : 4 ≤ slotOffset sl
    · refine ⟨slotBytes sl - 1, by omega, fun hin => ?_⟩
      have hcmd : slotInCommand sl = true := by
        rw [slotInCommand, Bool.and_eq_true]
        exact ⟨decide_eq_true hlo, decide_eq_true (show slotOffset sl + slotBytes sl ≤ 6 by omega)⟩
      rw [h] at hcmd
      cases hcmd
    · exact ⟨0, hpos, by omega⟩
  · rintro ⟨i, hi, hout⟩
    by_contra h
    have hin := slotInCommand_spec (Bool.eq_true_of_not_eq_false h)
    omega

/-- After startup a record write breaks the contract exactly if it leaves the `command` field. -/
theorem violates_writeRec {ph : Phase} (h : ∀ k, ph ≠ .uninit k) (ch : Chan) (sl : RecSlot) (v : Word) :
    violates ph (.writeRec ch sl v) = !slotInCommand sl := by
  cases ph with
  | uninit k => exact absurd rfl (h k)
  | idle => rfl
  | handling k => rfl

/-- After startup a read or a PERF write breaks no rule. -/
theorem violates_harmless {ph : Phase} (h : ∀ k, ph ≠ .uninit k) (ch : Chan) (sl : RecSlot) (v : Word) :
    violates ph (.readRec ch sl) = false ∧ violates ph .readTrig = false ∧ violates ph (.writePerf v) = false := by
  cases ph with
  | uninit k => exact absurd rfl (h k)
  | idle => exact ⟨rfl, rfl, rfl⟩
  | handling k => exact ⟨rfl, rfl, rfl⟩

/-- Settles O45: the three items of R213 by phase, and the write's effect by `readByte_writeLE_inside`. -/
theorem hostBreachSetsTheFlag : Obligations.HostBreachSetsTheFlag := by
  unfold Obligations.HostBreachSetsTheFlag
  refine ⟨fun s a => hostAct_violation a s, fun k a => rfl, fun h v => rfl, fun v => rfl,
    fun ph ch sl v hph => ?_, fun ph ch sl v hph => violates_harmless hph ch sl v, fun s ch sl v i hm hi => ?_⟩
  · rw [violates_writeRec hph, Bool.not_eq_true', slotInCommand_eq_false_iff]
  · exact readByte_writeLE_inside hm v.toNat hi

/-! ### Stuck states -/

theorem nextStartup_ne (k : SStep) : nextStartup k ≠ .uninit k := by cases k <;> decide
theorem nextStep_ne (k : HStep) : nextStep k ≠ .handling k := by cases k <;> decide

/-- IDLE stands still exactly if the host has nothing scheduled and nothing can be delivered. -/
theorem idleStep_eq_self_iff {s : State} (hp : s.phase = .idle) :
    idleStep s = .next s ↔ deliverable s = false ∧ s.env.turns = [] := by
  constructor
  · intro h
    rw [idleStep] at h
    split at h
    · have hphase := congrArg State.phase (Host.Outcome.next.inj h)
      rw [hp] at hphase
      cases hphase
    · next hd =>
      have hself : hostTurn s = s := Host.Outcome.next.inj h
      have hturns : s.env.turns.tail = s.env.turns := by rw [← hostTurn_turns, hself]
      refine ⟨by rwa [hself, Bool.not_eq_true] at hd, ?_⟩
      cases ht : s.env.turns with
      | nil => rfl
      | cons b bs => rw [ht, List.tail_cons] at hturns; exact absurd hturns.symm (List.cons_ne_self b bs)
  · rintro ⟨hd, ht⟩
    rw [idleStep, hostTurn_of_no_turns ht, hd]
    rfl

/-- Settles O60: every step but one of IDLE moves on in the order of the steps. -/
theorem onlyAStuckStateStandsStill : Obligations.OnlyAStuckStateStandsStill := by
  unfold Obligations.OnlyAStuckStateStandsStill
  intro s hw
  cases hp : s.phase with
  | uninit k =>
    have hmoves : step s ≠ .next s := fun h => nextStartup_ne k ((step_phase_uninit h hp).symm.trans hp)
    simp [hmoves, stuck, hp]
  | idle =>
    rw [step_idle hw hp, idleStep_eq_self_iff hp]
    simp [stuck, hp]
  | handling k =>
    have hmoves : step s ≠ .next s := fun h => nextStep_ne k ((step_phase_handling h hp).symm.trans hp)
    simp [hmoves, stuck, hp]

/-! ### Parameter sets -/

/-- Settles O59: the check comes first, and it is the conjunction of the constraints. -/
theorem inadmissibleParametersAreRefused : Obligations.InadmissibleParametersAreRefused := by
  unfold Obligations.InadmissibleParametersAreRefused
  refine ⟨fun s hw => by simp [step, hw], fun p hw => ?_⟩
  obtain ⟨a0, a1, at_, ap, d01, d0t, d0p, d1t, d1p, dtp, hwidth, r0, r1, rt, rp⟩ : p.Admissible := of_decide_eq_true hw
  refine ⟨by simp [a0, a1, at_, ap], ?_, ?_, ?_, hwidth, r0, r1, rt, rp⟩
  · simp only [inRecord, chanBase, recordBytes]; omega
  · intro a c
    cases c <;> (simp only [inRecord, chanBase, recordBytes]; omega)
  · omega

end Sys2Proof.Machine
end

section
/-! PROOFS about the instructions that make one transaction or none (40_trigger_decoder.md, 42_rpc_requests.md) and the
startup steps made of them (70_reset_and_hazards.md). A request is one call, so each statement about it is a law of
`rpcCall`. -/

namespace Sys2Proof.Machine

/-! ### The trigger classes -/

/-- Settles O30: one equation of `exec` per class. -/
theorem triggerClassesWriteOnlyTheirLatches : Obligations.TriggerClassesWriteOnlyTheirLatches := by
  unfold Obligations.TriggerClassesWriteOnlyTheirLatches
  intro s
  exact ⟨⟨_, exec_trigCnt s, rfl, rfl⟩, ⟨_, exec_trigFan s, rfl, rfl⟩, fun d => ⟨_, exec_trigPwm d s, rfl, rfl, rfl⟩,
    fun v => ⟨_, clampMhz v, exec_trigClk v s, rfl, rfl, clampMhz_toNat v, rfl⟩⟩

/-! ### The requests -/

/-- Settles O35: during an invocation the answer goes to `latchClock`, outside one to no latch. -/
theorem getClockCallsAndLatches : Obligations.GetClockCallsAndLatches := by
  unfold Obligations.GetClockCallsAndLatches
  intro s
  by_cases hp : ∃ h, s.phase = .handling h
  · obtain ⟨k, hk⟩ := hp
    refine ⟨_, exec_rpcGetClock_handling hk, by simp, fun h _ => ⟨?_, ?_⟩, fun hout => absurd hk (hout k)⟩
    · simpa using latchClock_c (rpcAnswer s) (rpcCall (.getClock s.params.clkId) s).1
    · exact fun hok => latchClock_c_of_ok hok _
  · push Not at hp
    exact ⟨_, exec_rpcGetClock_outside hp, by simp, fun h hk => absurd hk (hp h), fun _ => by simp⟩

/-- Settles O36: one call, which names no co-processor state, and the bounds of the clamp in Hz. -/
theorem setClockCallsWithHz : Obligations.SetClockCallsWithHz := by
  unfold Obligations.SetClockCallsWithHz
  exact ⟨fun s hz => ⟨_, exec_rpcSetClock hz s, by simp, by simp [copAfter]⟩,
    fun v => (clockRequestInHzDoesNotOverflow v).2⟩

/-- Settles O37: one call, whose success sets the duty. -/
theorem setPwmCallsWithDuty : Obligations.SetPwmCallsWithDuty := by
  unfold Obligations.SetPwmCallsWithDuty
  intro s d
  refine ⟨_, exec_rpcSetPwm d s, by simp, ?_⟩
  rw [rpcCall_cop]
  cases (rpcAnswer s).ok <;> rfl

/-- Settles O38: one call, whose success sets the domains of that id. -/
theorem setPowerCallsWithDomain : Obligations.SetPowerCallsWithDomain := by
  unfold Obligations.SetPowerCallsWithDomain
  intro s d on w
  refine ⟨_, exec_rpcSetPower d on w s, by simp, by simp, ?_⟩
  rw [rpcCall_cop]
  cases (rpcAnswer s).ok <;> simp [copAfter]

/-- Settles O39: one call each, and the two queries' own event. -/
theorem queriesCallAndLog : Obligations.QueriesCallAndLog := by
  unfold Obligations.QueriesCallAndLog
  intro s
  exact ⟨⟨_, exec_rpcGetBoardRev s, by simp, by simp [copAfter], by simp⟩,
    ⟨_, exec_rpcGetMaxClock s, by simp, by simp [copAfter], by simp⟩,
    ⟨_, exec_rpcGetPwm s, by simp, by simp [copAfter], by simp⟩⟩

/-- What one call leaves, whatever follows it in the trace or in the latches (R170, R171). -/
structure Called (op : RpcOp) (s t : State) : Prop where
  control : ControlKept s t
  host : HostDecides 1 s t
  mem : t.mem = (hostTurn s).mem
  hostReads : t.hostReads = (hostTurn s).hostReads
  cop : t.cop = copAfter s.params op (rpcAnswer s).ok s.cop
  perf : t.env.perf = s.env.perf
  acks : t.env.acks = s.env.acks
  rpc : t.env.rpc = s.env.rpc.tail

theorem rpcCall_called (op : RpcOp) (s : State) : Called op s (rpcCall op s).1 :=
  ⟨⟨by simp, by simp, by simp, by simp⟩, rpcCall_hostDecides op s, by simp, by simp, by simp, by simp, by simp,
    by simp⟩

section
variable {op : RpcOp} {s t : State}

theorem Called.emit (h : Called op s t) (e : Event) : Called op s (emit e t) :=
  ⟨⟨h.control.params, h.control.phase, h.control.irq, h.control.irqActive⟩,
    ⟨h.host.trig, h.host.violation, h.host.turns⟩, h.mem, h.hostReads, h.cop, h.perf, h.acks, h.rpc⟩

theorem Called.latchClock (h : Called op s t) (a : RpcAnswer) : Called op s (latchClock a t) :=
  ⟨⟨by simp [h.control.params], by simp [h.control.phase], by simp [h.control.irq], by simp [h.control.irqActive]⟩,
    ⟨by simp [h.host.trig], by simp [h.host.violation], by simp [h.host.turns]⟩, by simp [h.mem],
    by simp [h.hostReads], by simp [h.cop], by simp [h.perf], by simp [h.acks], by simp [h.rpc]⟩

end

/-- Every request is one call, and only `GET_CLOCK` in an invocation latches the answer. -/
theorem exec_called {s t : State} {i : Instr} (h : exec i s = .next t)
    (hi : i = .rpcGetBoardRev ∨ i = .rpcGetClock ∨ i = .rpcGetMaxClock ∨ (∃ hz, i = .rpcSetClock hz)
      ∨ i = .rpcGetPwm ∨ (∃ d, i = .rpcSetPwm d) ∨ ∃ d on w, i = .rpcSetPower d on w) :
    ∃ op, Called op s t ∧ t.x = { s.x with c := t.x.c } ∧ (i ≠ .rpcGetClock → t.x = s.x)
      ∧ ((∀ d, i ≠ .rpcSetPwm d) → (∀ d on w, i ≠ .rpcSetPower d on w) → t.cop = s.cop) := by
  have call (op : RpcOp) := rpcCall_called op s
  rcases hi with rfl | rfl | rfl | ⟨hz, rfl⟩ | rfl | ⟨d, rfl⟩ | ⟨d, on, w, rfl⟩
  · cases h
    exact ⟨_, (call .getBoardRev).emit _, by simp, by simp, by simp [copAfter]⟩
  · by_cases hp : ∃ k, s.phase = .handling k
    · obtain ⟨k, hk⟩ := hp
      rw [exec_rpcGetClock_handling hk] at h
      cases h
      obtain ⟨c, hx⟩ := latchClock_c (rpcAnswer s) (rpcCall (.getClock s.params.clkId) s).1
      exact ⟨_, (call _).latchClock _, by rw [hx]; simp, by simp, by simp [copAfter]⟩
    · push Not at hp
      rw [exec_rpcGetClock_outside hp] at h
      cases h
      exact ⟨_, call _, by simp, by simp, by simp [copAfter]⟩
  · cases h
    exact ⟨_, (call (.getMaxClock _)).emit _, by simp, by simp, by simp [copAfter]⟩
  · cases h
    exact ⟨_, call _, by simp, by simp, by simp [copAfter]⟩
  · cases h
    exact ⟨_, call _, by simp, by simp, by simp [copAfter]⟩
  · cases h
    exact ⟨_, call _, by simp, by simp, by simp⟩
  · cases h
    exact ⟨_, call _, by simp, by simp, by simp⟩

/-- Settles O40: `exec_called`. -/
theorem requestFrame : Obligations.RequestFrame := by
  unfold Obligations.RequestFrame
  intro s t i h hi
  obtain ⟨op, hc, hlatch, hx, hcop⟩ := exec_called h hi
  exact ⟨hc.control, hc.host, hc.mem, hc.hostReads, hlatch, hx, hcop, hc.perf, hc.acks, hc.rpc⟩

/-! ### Startup -/

/-- Settles O1: power-on takes what the spec leaves free as arguments. -/
theorem powerOnLeavesHardwareUnspecified : Obligations.PowerOnLeavesHardwareUnspecified := by
  unfold Obligations.PowerOnLeavesHardwareUnspecified
  refine ⟨fun p m v q c e => ⟨rfl, rfl, rfl, rfl, rfl, rfl, rfl, fun d rest he => ?_⟩, _, _, _, _, _, _, rfl⟩
  rw [readPerf_value]
  exact perfValue_of_waiting he

/-- Settles O3: S1 and S2 take the host's turn and advance; S2 writes the six fields of R36 between. -/
theorem startupInitializesAndConfiguresController : Obligations.StartupInitializesAndConfiguresController := by
  unfold Obligations.StartupInitializesAndConfiguresController
  refine ⟨fun s hw hp => by rw [step_uninit hw hp]; rfl, fun s hw hp => ?_⟩
  exact ⟨_, by rw [step_uninit hw hp]; rfl, rfl, rfl, rfl, rfl, rfl, rfl, rfl⟩

/-- Three calls one after another, as S3 and S4 make them. -/
def threeCalls (op1 op2 op3 : RpcOp) (s : State) : State := (rpcCall op3 (rpcCall op2 (rpcCall op1 s).1).1).1

section
variable (op1 op2 op3 : RpcOp) (s : State)

theorem threeCalls_view : FullView (threeCalls op1 op2 op3 s) (hostTurns 3 s) :=
  ((FullView.rpcCall (n := 0) ⟨HostView.refl s, rfl, rfl⟩ op1).rpcCall op2).rpcCall op3

theorem threeCalls_trace : (threeCalls op1 op2 op3 s).trace = s.trace ++
    [.rpc op1 (rpcAnswer s), .rpc op2 (rpcAnswer (rpcCall op1 s).1),
     .rpc op3 (rpcAnswer (rpcCall op2 (rpcCall op1 s).1).1)] := by simp [threeCalls]

@[simp] theorem threeCalls_x : (threeCalls op1 op2 op3 s).x = s.x := by simp [threeCalls]
@[simp] theorem threeCalls_irq : (threeCalls op1 op2 op3 s).irq = s.irq := by simp [threeCalls]
@[simp] theorem threeCalls_irqActive : (threeCalls op1 op2 op3 s).irqActive = s.irqActive := by simp [threeCalls]

end

/-- S3 is the three power requests (R243). -/
theorem stepS3_eq (s : State) : stepS3 s = .next ((threeCalls (.setPower s.params.pd1 true s.params.pdWait1)
    (.setPower s.params.pd2 true s.params.pdWait2) (.setPower s.params.pd3 true s.params.pdWait3) s).setPhase
      (.uninit .s4)) := rfl

/-- Settles O5: the three calls of `stepS3_eq`, none of which touches the duty. -/
theorem startupEnablesThreePowerDomains : Obligations.StartupEnablesThreePowerDomains := by
  unfold Obligations.StartupEnablesThreePowerDomains
  intro s hw hp
  have hstep := (step_uninit hw hp).trans (stepS3_eq s)
  have view := threeCalls_view (.setPower s.params.pd1 true s.params.pdWait1)
    (.setPower s.params.pd2 true s.params.pdWait2) (.setPower s.params.pd3 true s.params.pdWait3) s
  exact ⟨_, _, _, _, hstep, rfl, threeCalls_trace .., by simp, by simp, by simp, by simp [threeCalls], view.mem,
    view.hostReads, view.toHostView.decides.setPhase _⟩

/-- S4 is the three queries and their one event (R244, assumption 9). -/
theorem stepS4_eq (s : State) : ∃ a1 a2 a3 : RpcAnswer, ∃ u, u = threeCalls .getBoardRev (.getClock s.params.clkId)
    (.getMaxClock s.params.clkId) s
    ∧ u.trace = s.trace ++ [.rpc .getBoardRev a1, .rpc (.getClock s.params.clkId) a2,
        .rpc (.getMaxClock s.params.clkId) a3]
    ∧ stepS4 s = .next ((emit (.log (.diag a1.val a2.val a3.val a1.ok a2.ok a3.ok)) u).setPhase (.uninit .s5)) :=
  ⟨_, _, _, _, rfl, threeCalls_trace .., by simp only [stepS4, rpcCall_value]; rfl⟩

/-- Settles O6: the three calls of `stepS4_eq`, which are queries, and their event. -/
theorem startupQueriesDiagnostics : Obligations.StartupQueriesDiagnostics := by
  unfold Obligations.StartupQueriesDiagnostics
  intro s hw hp
  obtain ⟨a1, a2, a3, u, hu, htrace, hs4⟩ := stepS4_eq s
  have view : FullView u (hostTurns 3 s) := hu ▸ threeCalls_view _ _ _ s
  exact ⟨_, a1, a2, a3, (step_uninit hw hp).trans hs4, rfl, by simp [htrace], by simp [hu], by simp [hu],
    by simp [hu], by simp [hu, threeCalls, copAfter], view.mem, view.hostReads,
    (view.toHostView.emit _).decides.setPhase _⟩

end Sys2Proof.Machine
end

section
/-! PROOFS about single steps of the sequencer (43_dispatch_sequencer.md, 41_channel_responder.md): delivery, the
acknowledge, the decode step, that a step runs what it decodes, and the two resets with their frames. -/

namespace Sys2Proof.Machine

/-! ### Delivery and acknowledge -/

theorem deliverable_iff (s : State) :
    deliverable s = true ↔ s.phase = .idle ∧ s.trig ≠ 0 ∧ s.irq = triggerLineConfig s.params := by
  simp [deliverable, lineLevel, lineConfigured, and_assoc]

/-- IDLE waits when the controller has nothing to deliver. -/
theorem step_idle_waits {s : State} (hw : s.params.wf = true) (hp : s.phase = .idle)
    (hd : ¬ deliverable (hostTurn s) = true) : step s = .next (hostTurn s) := by
  rw [step_idle hw hp, idleStep, if_neg hd]

theorem step_idle_delivers {s : State} (hw : s.params.wf = true) (hp : s.phase = .idle)
    (hd : deliverable (hostTurn s) = true) : step s = .next ((hostTurn s).setPhase (.handling .h1)) := by
  rw [step_idle hw hp, idleStep, if_pos hd, enterHandler]

/-- Settles O9: `deliverable_iff` after the host's turn, which keeps phase and configuration. -/
theorem deliveryEntersHandlerAtH1 : Obligations.DeliveryEntersHandlerAtH1 := by
  unfold Obligations.DeliveryEntersHandlerAtH1
  refine ⟨fun s hw hp => ⟨?_, fun ht => ?_, fun hq => ?_⟩, fun s hp => ?_⟩
  · rintro ⟨ht, hq⟩
    exact step_idle_delivers hw hp ((deliverable_iff _).2 ⟨by simpa using hp, ht, by simpa using hq⟩)
  · exact step_idle_waits hw hp fun hd => ((deliverable_iff _).1 hd).2.1 ht
  · exact step_idle_waits hw hp fun hd => hq (by simpa using ((deliverable_iff _).1 hd).2.2)
  · rw [← Bool.not_eq_true]
    exact fun hd => hp ((deliverable_iff s).1 hd).1

/-- Settles O10: H1 by the id that the acknowledge returns. -/
theorem acknowledgeLatchesTheLineId : Obligations.AcknowledgeLatchesTheLineId := by
  unfold Obligations.AcknowledgeLatchesTheLineId
  intro s hw hp
  rw [step_handling hw hp, handlerStep]
  exact ⟨fun hid => ⟨_, stepH1_eq s hid, rfl, by simp, rfl, by simp [hid], by simp, by simp⟩, stepH1_foreign s⟩

/-! ### A step runs what it decodes -/

/-- Settles O13: `stepH4_eq`; the clock latch is the gate's own formula. -/
theorem decodeFillsThePendingRequest : Obligations.DecodeFillsThePendingRequest := by
  unfold Obligations.DecodeFillsThePendingRequest
  intro s v hw hp hv
  rw [step_handling hw hp, handlerStep, stepH4_eq hv]
  cases s.params.clkGate with
  | noneOf28_29_30 => rfl
  | notBit30 => rfl

theorem step_h4_runs {s : State} {v : Word} (hw : s.params.wf = true) (hp : s.phase = .handling .h4)
    (hv : s.x.v = some v) : step s = andThen (execAll (decodeTrigger s.params.clkGate v) (openRequest v (hostTurn s)))
      fun t => .next (t.setPhase (.handling .h5)) := by
  rw [step_handling hw hp, handlerStep, stepH4, hv, withLatch_some]

theorem execAll_singleton (i : Instr) (s : State) : execAll [i] s = exec i s := by
  obtain ⟨t, ht⟩ := exec_answers_next i s
  rw [execAll, ht]
  rfl

theorem step_h5_runs {s : State} (hw : s.params.wf = true) (hp : s.phase = .handling .h5) (hc : s.x.cnt = some true) :
    step s = andThen (exec (decodeCommand (BitVec.ofNat 16 (fieldValue .ch0 .command (hostTurn s)))) (commandRead s))
      fun t => .next (t.setPhase (.handling .h6)) := by
  rw [step_handling hw hp, handlerStep, stepH5_eq hc]

/-- A turn with an empty schedule entry in front takes just that entry. -/
theorem hostTurn_quietTurn (s : State) : hostTurn (quietTurn s) = s := rfl

theorem withFetchWord_32 (s : State) (w : Nat) : s.withFetchWord 32 w = quietTurn (placeTrigger s w) := rfl
theorem withFetchWord_16 (s : State) (w : Nat) : s.withFetchWord 16 w = quietTurn (placeCommand s w) := rfl

/-- The command that `placeCommand` puts into Channel 0's record. -/
theorem fieldValue_placeCommand {s : State} (hm : memoryWf s.mem = true) {w : Nat} (hw : w < 65536) :
    fieldValue .ch0 .command (placeCommand s w) = w :=
  (readLE_writeLE_same hm _ _ _).trans (Nat.mod_eq_of_lt hw)

/-- Settles O14: H4, H5 and H7 by their equations; a placed word is decoded after a quiet turn. -/
theorem stepRunsTheDecodedInstruction : Obligations.StepRunsTheDecodedInstruction := by
  unfold Obligations.StepRunsTheDecodedInstruction
  refine ⟨?_, ?_, ?_, ?_, ?_, ?_, ?_⟩
  · rintro s v is hw hp hv rfl
    exact step_h4_runs hw hp hv
  · intro s v i hw hp hv hd
    rw [step_h4_runs hw hp hv, hd, execAll_singleton]
  · intro s hw hp hc
    rw [step_h5_runs hw hp hc]
    simp only [commandRead, readField, hostTurn_params]
    rfl
  · intro s d hw hp hpwm hd
    rw [step_handling hw hp, handlerStep, stepH7_pwm hpwm hd]
    rfl
  · intro s m hw hp hpwm hclk hm
    rw [step_handling hw hp, handlerStep, stepH7_clk hpwm hclk hm]
    rfl
  · intro s w i hw hd
    have hclasses : decodeTrigger (quietTurn (placeTrigger s w)).params.clkGate (BitVec.ofNat 32 w) = [i] := hd
    rw [withFetchWord_32, step_h4_runs (s := quietTurn (placeTrigger s w)) hw rfl rfl, hclasses, execAll_singleton]
  · intro s w hw hm hlt
    have hcmd : fieldValue .ch0 .command (hostTurn (s.withFetchWord 16 w)) = w := by
      rw [withFetchWord_16, hostTurn_quietTurn, fieldValue_placeCommand hm hlt]
    have hread : (commandRead (s.withFetchWord 16 w)).trace
        = s.trace ++ [.memRead (s.params.ch0Base + 4) 2 (fieldValue .ch0 .command (hostTurn (s.withFetchWord 16 w)))] :=
      rfl
    refine ⟨commandRead (s.withFetchWord 16 w), ?_, rfl, rfl, ?_, ?_⟩
    · exact congrArg (fun n => some (BitVec.ofNat 16 n)) hcmd
    · rw [hread, hcmd]
    · rw [step_h5_runs (s := s.withFetchWord 16 w) hw rfl rfl, hcmd]

/-! ### The fan service and the final reset -/

/-- After the first `n` transactions of a silent stretch the rest of it is silent. -/
theorem hostSilent_of_drop {n m : Nat} {s t : State} (h : hostSilent (n + m) s)
    (ht : t.env.turns = s.env.turns.drop n) : hostSilent m t := by
  intro b hb
  rw [ht, List.take_drop] at hb
  exact h b (List.mem_of_mem_drop hb)

/-- `RESET.BOTH` with no host action stamps both records (R150). -/
theorem recordsStamped_resetBoth_silent {s : State} (hp : s.params.wf = true) (hm : memoryWf s.mem = true)
    (hs : hostSilent 4 s) : recordsStamped (resetBoth s) := by
  have hp0 : (resetIdle .ch0 s).params.wf = true := by simpa using hp
  have hs0 : hostSilent 2 (resetIdle .ch0 s) :=
    hostSilent_of_drop (n := 2) hs ((HostView.refl s).resetIdle (n := 0) .ch0).decides.turns
  obtain ⟨hsig, hst⟩ := recordStamped_resetIdle_silent hp hm .ch0 (hostSilent_mono hs (by omega))
  have kept (f : Field) : fieldValue .ch0 f (resetBoth s) = fieldValue .ch0 f (resetIdle .ch0 s) :=
    fieldValue_resetIdle_silent hp0 hs0 (by simp)
  refine ⟨⟨?_, (kept .status).trans hst⟩, recordStamped_resetIdle_silent hp0 (memoryWf_resetIdle hm .ch0) .ch1 hs0⟩
  rw [kept, hsig]
  simp [resetBoth]

/-- Settles O15: five reads, their event and `ResetIdle(1)` by `fanService_spec`, and the frame of its seven
transactions. -/
theorem fanServiceLogsAndResetsChannelOne : Obligations.FanServiceLogsAndResetsChannelOne := by
  unfold Obligations.FanServiceLogsAndResetsChannelOne
  intro s hw hm hp hfan
  obtain ⟨e, sg, cm, st, p0, p1, heq, he, htrace, hcm, hvalues⟩ := fanService_spec s
  have hstep : step s = .next ((fanService s).setPhase (.handling .h7)) := by
    rw [step_handling hw hp, handlerStep, stepH6_eq hfan]
  obtain ⟨hserved, hx⟩ := fanService_served hw hm
  have hmReads : memoryWf (emit e (fanReads s)).mem = true := ((ByteView.start 0 hm).fanReads (n := 0)).wfl
  refine ⟨_, sg, cm, st, p0, p1, hstep, rfl, ?_, fun hv => ?_, fun hs => ?_, fun a hsig hst => ?_, hx, ?_,
    hserved.host.setPhase _⟩
  · simp [heq, htrace, he, fieldAddr, fieldOffset, chanBase]
  · rw [State.setPhase_violation, heq] at hv
    have hread : (fanReads s).violation = false := by simpa using violation_of_resetIdle hv
    obtain ⟨hsg, hst, hp0, hp1⟩ := hvalues hw hread
    refine ⟨hsg, hst, hp0, hp1, ?_⟩
    rw [recordStamped_setPhase, heq]
    exact recordStamped_resetIdle (by simpa using hw) hmReads .ch1 hv
  · have hturn : hostSilent 1 s := hostSilent_mono hs (by omega)
    have hafter : hostSilent 6 (readField .ch1 .signature s).1 := hostSilent_of_turns hs (by simp)
    refine ⟨?_, ?_⟩
    · rw [hcm, fieldValue_hostTurn_silent (hostSilent_mono hafter (by omega)), fieldValue_readField_silent hturn]
    · rw [recordStamped_setPhase, heq]
      have hturns : (emit e (fanReads s)).env.turns = s.env.turns.drop 5 :=
        (((HostView.refl s).fanReads (n := 0)).emit e).decides.turns
      exact recordStamped_resetIdle_silent (by simpa using hw) hmReads .ch1 (hostSilent_of_drop hs hturns)
  · rw [State.setPhase_mem, heq]
    exact ((((ByteView.start a hm).fanReads (n := 0)).emit e).resetIdle .ch1 hsig hst).byte
  · simp [heq]

/-- Settles O17: `RESET.BOTH` is four writes, and each `ResetIdle` stamps its record. -/
theorem finalResetStampsBothChannels : Obligations.FinalResetStampsBothChannels := by
  unfold Obligations.FinalResetStampsBothChannels
  intro s hw hm hp
  have hstep : step s = .next ((resetBoth s).setPhase (.handling .h9)) := by
    rw [step_handling hw hp]; rfl
  refine ⟨_, hstep, rfl, ?_, fun hv => ?_, fun hs => ?_, fun a ha => ?_, ?_, ?_,
    (resetBoth_served hw hm).host.setPhase _⟩
  · simp [resetBoth, fieldAddr, fieldOffset, chanBase]
  · exact recordsStamped_resetBoth hw hm hv
  · exact recordsStamped_resetBoth_silent hw hm hs
  · obtain ⟨hsig0, hst0⟩ := ha .ch0
    obtain ⟨hsig1, hst1⟩ := ha .ch1
    exact (((ByteView.start a hm).resetIdle (n := 0) .ch0 hsig0 hst0).resetIdle .ch1 hsig1 hst1).byte
  · simp
  · simp [resetBoth]

end Sys2Proof.Machine
end

section
/-! PROOFS about the commands of Channel 0 (41_channel_responder.md R144 to R148): what `CMD.READ` and the error path
do, and their frames. `CMD.READ` is two transactions that sample and five writes; the error path is four reads, an event and
`ResetIdle(0)`. -/

namespace Sys2Proof.Machine

/-! ### The response to a counter read -/

section
variable (r d : Word) (s : State)

@[simp] theorem cntRespond_params : (cntRespond r d s).params = s.params := by simp [cntRespond, resetIdleCmd]
@[simp] theorem cntRespond_phase : (cntRespond r d s).phase = s.phase := by simp [cntRespond, resetIdleCmd]
@[simp] theorem cntRespond_x : (cntRespond r d s).x = s.x := by simp [cntRespond, resetIdleCmd]
@[simp] theorem cntRespond_irqActive : (cntRespond r d s).irqActive = s.irqActive := by
  simp [cntRespond, resetIdleCmd]
@[simp] theorem cntRespond_cop : (cntRespond r d s).cop = s.cop := by simp [cntRespond, resetIdleCmd]
@[simp] theorem cntRespond_perf : (cntRespond r d s).env.perf = s.env.perf := by simp [cntRespond, resetIdleCmd]
@[simp] theorem cntRespond_rpc : (cntRespond r d s).env.rpc = s.env.rpc := by simp [cntRespond, resetIdleCmd]
@[simp] theorem cntRespond_acks : (cntRespond r d s).env.acks = s.env.acks := by simp [cntRespond, resetIdleCmd]
theorem cntRespond_trace : (cntRespond r d s).trace = s.trace ++
    [.memWrite (fieldAddr s.params .ch0 .payload0) 4 r.toNat, .memWrite (fieldAddr s.params .ch0 .payload1) 4 d.toNat,
     .memWrite (fieldAddr s.params .ch0 .signature) 4 (sigOf s.params.sigLayout .ch0).toNat,
     .memWrite (fieldAddr s.params .ch0 .command) 2 s.params.idleCmd.toNat,
     .memWrite (fieldAddr s.params .ch0 .status) 2 1] := by
  simp [cntRespond, resetIdleCmd, fieldBytes, idleStatus]

end

/-- The response is five transactions for the host (R146). -/
theorem HostView.cntRespond {n : Nat} {s u : State} (h : HostView s (Machine.hostTurns n u)) (r d : Word) :
    HostView (cntRespond r d s) (Machine.hostTurns (n + 5) u) :=
  ((((h.writeField ..).writeField ..).writeField ..).writeField ..).writeField ..

theorem memoryWf_cntRespond {s : State} (hm : memoryWf s.mem = true) (r d : Word) :
    memoryWf (cntRespond r d s).mem = true :=
  memoryWf_writeField (memoryWf_writeField (memoryWf_writeField (memoryWf_writeField (memoryWf_writeField hm ..) ..)
    ..) ..) ..

/-- A byte outside a record is outside each of its fields. -/
theorem not_inField_of_not_inRecord {p : Params} {c : Chan} {a : Nat} (h : ¬ inRecord p c a) (f : Field) :
    ¬ inField p c f a := by
  have := field_in_record f
  simp only [inRecord, inField, fieldAddr] at *
  omega

/-- The response leaves every byte outside Channel 0's record to the host. -/
theorem ByteView.cntRespond {n k : Nat} {s u : State} (h : ByteView k s (hostTurns n u))
    (hk : ¬ inRecord u.params .ch0 k) (r d : Word) : ByteView k (cntRespond r d s) (hostTurns (n + 5) u) := by
  have out (f : Field) := not_inField_of_not_inRecord hk f
  exact ((((h.writeField _ _ _ (out _)).writeField _ _ _ (out _)).writeField _ _ _ (out _)).writeField _ _ _
    (out _)).writeField _ _ _ (out _)

/-- With no host action, `command` holds `IDLE_CMD` after the response (R142). -/
theorem cntRespond_command_silent {s : State} (hp : s.params.wf = true) (hm : memoryWf s.mem = true)
    (hs : hostSilent 5 s) (r d : Word) :
    fieldValue .ch0 .command (cntRespond r d s) = s.params.idleCmd.toNat := by
  set w2 := writeField .ch0 .payload1 d.toNat (writeField .ch0 .payload0 r.toNat s) with hw2
  set w3 := writeField .ch0 .signature (sigOf w2.params.sigLayout .ch0).toNat w2 with hw3
  set w4 := writeField .ch0 .command w2.params.idleCmd.toNat w3 with hw4
  have he : cntRespond r d s = writeField .ch0 .status idleStatus.toNat w4 := rfl
  have hm3 : memoryWf w3.mem = true := memoryWf_writeField (memoryWf_writeField (memoryWf_writeField hm ..) ..) ..
  have hturns : w4.env.turns = s.env.turns.drop 4 :=
    (((((HostView.refl s).writeField (n := 0) ..).writeField ..).writeField ..).writeField ..).decides.turns
  have hfit : w2.params.idleCmd.toNat < 256 ^ fieldBytes .command := w2.params.idleCmd.isLt
  rw [he, fieldValue_writeField_silent (by simpa [hw4, hw3, hw2] using hp) (hostSilent_of_drop hs hturns) _ (by simp),
    fieldValue_writeField_same hm3, Nat.mod_eq_of_lt hfit]
  simp [hw2]

/-- Settles O31: `cntSample_spec`, then the response with the sampled pair. -/
theorem counterReadSamplesAndResponds : Obligations.CounterReadSamplesAndResponds := by
  unfold Obligations.CounterReadSamplesAndResponds
  intro s hw hm
  obtain ⟨c, a, ha, hc, hx, htrace, hpar, -, -, -, -, -, -, -, hview⟩ := cntSample_spec s
  have hexec : exec .cmdRead s = .next (cntRespond (perfValue s) (delivered (perfValue s) c) (cntSample s)) :=
    exec_cmdRead (by rw [hx]) (by rw [hx])
  have hws : (cntSample s).params.wf = true := by rwa [hpar]
  have hms : memoryWf (cntSample s).mem = true := by rw [hview.mem]; exact memoryWf_hostTurns hm
  refine ⟨_, c, a, hexec, ha, hc, by simp [hx], by simp [hx], by simp [hx], ?_, cntRespond_fields hws hms, fun hs => ?_⟩
  · simp [cntRespond_trace, htrace, hpar, fieldAddr, fieldOffset, chanBase]
  · have hrest : hostSilent 5 (cntSample s) := hostSilent_of_drop hs hview.toHostView.decides.turns
    rw [cntRespond_command_silent hws hms hrest, hpar]

/-- Settles O32: the sample agrees with two host turns, and the response writes within the record. -/
theorem counterReadFrame : Obligations.CounterReadFrame := by
  unfold Obligations.CounterReadFrame
  intro s t hm h
  obtain ⟨c, a, -, -, hx, -, hpar, hph, -, hact, hcop, hperf, hrpc, hacks, hview⟩ := cntSample_spec s
  have hexec : exec .cmdRead s = .next (cntRespond (perfValue s) (delivered (perfValue s) c) (cntSample s)) :=
    exec_cmdRead (by rw [hx]) (by rw [hx])
  rw [hexec] at h
  cases h
  have hbytes (k : Nat) : ByteView k (cntSample s) (hostTurns 2 s) := hview.byteView (memoryWf_hostTurns hm) k
  refine ⟨⟨by simp [hpar], by simp [hph], by simp, by simp [hact]⟩, (hview.toHostView.cntRespond _ _).decides,
    by simp [hcop], by simp [hx], by simp [hperf], by simp [hrpc], by simp [hacks], ?_, fun k hk => ?_⟩
  · exact memoryWf_cntRespond (hbytes 0).wfl _ _
  · exact ((hbytes k).cntRespond hk _ _).byte

/-! ### The error path -/

/-- Settles O33: `cntError_spec`; `ResetIdle(0)` leaves `command` and payload alone. -/
theorem counterErrorLogsAndResets : Obligations.CounterErrorLogsAndResets := by
  unfold Obligations.CounterErrorLogsAndResets
  intro s c i hw hm hi
  have hexec : exec i s = .next (cntError c s) := by
    rcases hi with ⟨rfl, rfl⟩ | rfl
    · exact exec_cmdWrite s
    · exact exec_cmdOther c s
  obtain ⟨e, sg, st, p0, p1, heq, he, htrace, hvalues⟩ := cntError_spec c s
  have hwr : (emit e (errorReads s)).params.wf = true := by simpa using hw
  have hmr : memoryWf (emit e (errorReads s)).mem = true := ((ByteView.start 0 hm).errorReads (n := 0)).wfl
  refine ⟨_, sg, st, p0, p1, hexec, ?_, fun hv => ?_, fun hs => ?_⟩
  · simp [heq, htrace, he, fieldAddr, fieldOffset, chanBase]
  · rw [heq] at hv ⊢
    have hread : (errorReads s).violation = false := by simpa using violation_of_resetIdle hv
    obtain ⟨hsg, hst, hp0, hp1⟩ := hvalues hw hread
    have kept {f : Field} (hf : f ≠ .signature ∧ f ≠ .status) (hc : f ≠ .command) :
        fieldValue .ch0 f (resetIdle .ch0 (emit e (errorReads s))) = fieldValue .ch0 f s := by
      rw [fieldValue_resetIdle_kept hwr (fun _ => hf) hc hv, fieldValue_emit, fieldValue_errorReads hw hc hread]
    exact ⟨hsg, hst, hp0, hp1, (kept (by simp) (by simp)).trans hp0.symm, (kept (by simp) (by simp)).trans hp1.symm,
      recordStamped_resetIdle hwr hmr .ch0 hv⟩
  · have hturns : (emit e (errorReads s)).env.turns = s.env.turns.drop 4 :=
      (((HostView.refl s).errorReads (n := 0)).emit e).decides.turns
    rw [heq, fieldValue_resetIdle_silent hwr (hostSilent_of_drop hs hturns) (by simp), fieldValue_emit,
      fieldValue_errorReads_silent (hostSilent_mono hs (by omega))]

/-- Settles O34: the reads change nothing, and `ResetIdle(0)` writes the two fields. -/
theorem counterErrorFrame : Obligations.CounterErrorFrame := by
  unfold Obligations.CounterErrorFrame
  intro s t c i hm hi h
  obtain ⟨cmd, rfl⟩ : ∃ cmd, t = cntError cmd s := by
    rcases hi with rfl | rfl
    · cases h; exact ⟨_, rfl⟩
    · cases h; exact ⟨_, rfl⟩
  obtain ⟨e, -, -, -, -, heq, -⟩ := cntError_spec cmd s
  rw [heq]
  have reads (k : Nat) : ByteView k (emit e (errorReads s)) (hostTurns 4 s) :=
    ((ByteView.start k hm).errorReads (n := 0)).emit e
  exact ⟨⟨by simp, by simp, by simp, by simp⟩, ((reads 0).toHostView.resetIdle .ch0).decides, by simp, by simp, by simp,
    by simp, by simp, by simp, memoryWf_resetIdle (reads 0).wfl .ch0,
    fun a hsig hst => ((reads a).resetIdle .ch0 hsig hst).byte⟩

end Sys2Proof.Machine
end

section
/-! PROOFS about whole runs: the startup (70_reset_and_hazards.md R240 to R246) and one invocation
(43_dispatch_sequencer.md R203, R204). Each is a chain of steps that keep `Inv`, and each step adds its own events. -/

namespace Sys2Proof.Machine

theorem run_succ {k : Nat} {s t : State} (h : step s = .next t) : core.run (k + 1) s = core.run k t := by
  have hcore : core.step s = .next t := h
  simp [Host.Core.run, hcore]

@[simp] theorem requestsOf_append (l m : List Event) : requestsOf (l ++ m) = requestsOf l ++ requestsOf m :=
  List.filterMap_append

section
variable (l : List Event)
@[simp] theorem requestsOf_nil : requestsOf [] = [] := rfl
@[simp] theorem requestsOf_rpc (op : RpcOp) (a : RpcAnswer) : requestsOf (.rpc op a :: l) = op :: requestsOf l := rfl
@[simp] theorem requestsOf_memRead (a n v : Nat) : requestsOf (.memRead a n v :: l) = requestsOf l := rfl
@[simp] theorem requestsOf_memWrite (a n v : Nat) : requestsOf (.memWrite a n v :: l) = requestsOf l := rfl
@[simp] theorem requestsOf_gicAck (i : Word) : requestsOf (.gicAck i :: l) = requestsOf l := rfl
@[simp] theorem requestsOf_gicEoi (i : Word) : requestsOf (.gicEoi i :: l) = requestsOf l := rfl
@[simp] theorem requestsOf_log (e : LogEvent) : requestsOf (.log e :: l) = requestsOf l := rfl
end

/-! ### Startup: what the host leaves alone -/

/-- During startup every host action breaks the contract, so a turn that leaves the flag clear held none (R213). -/
theorem hostTurn_uninit {s : State} {k : SStep} (hp : s.phase = .uninit k) (hv : (hostTurn s).violation = false) :
    (hostTurn s).mem = s.mem ∧ (hostTurn s).trig = s.trig := by
  have batch {b : List HostAction} {u : State} (hu : u.phase = .uninit k) (hb : (hostBatch b u).violation = false) :
      hostBatch b u = u := by
    cases b with
    | nil => rfl
    | cons a as =>
      have hact := violation_of_hostBatch (b := as) (s := hostAct a u) hb
      rw [hostAct_violation, hu] at hact
      simp [violates] at hact
  unfold hostTurn at hv ⊢
  split
  · exact ⟨rfl, rfl⟩
  · next heq =>
    rw [heq] at hv
    rw [batch (by simpa using hp) hv]
    exact ⟨rfl, rfl⟩

theorem Move.trig_uninit {K : Scope} {s t : State} (h : Move K s t) (hK : ¬ K.trig) {k : SStep}
    (hp : s.phase = .uninit k) (hv : t.violation = false) : t.trig = s.trig := by
  cases h with
  | inner h => exact h.trig
  | turn => exact (hostTurn_uninit hp hv).2
  | trig hK' => exact absurd hK' hK
  | event | field | latches | active => rfl

theorem Move.fieldValue_uninit {K : Scope} {s t : State} (h : Move K s t) (hw : s.params.wf = true) {c : Chan}
    {f : Field} (hK : ∀ v, ¬ K.field c f v) {k : SStep} (hp : s.phase = .uninit k) (hv : t.violation = false) :
    Machine.fieldValue c f t = Machine.fieldValue c f s := by
  cases h with
  | inner h => rw [Machine.fieldValue, Machine.fieldValue, h.mem, h.params]
  | turn => rw [Machine.fieldValue, Machine.fieldValue, (hostTurn_uninit hp hv).1, hostTurn_params]
  | @field c' f' v hK' =>
    have hne : (c', f') ≠ (c, f) := by rintro ⟨⟩; exact hK v hK'
    exact readLE_writeLE_disjoint _ _ ((fields_disjoint hw hne).symm)
  | event | trig | latches | active => rfl

/-- What startup keeps while the host keeps its contract: TRIG, and every field but signature and status. -/
def StartupKept (s t : State) : Prop := t.violation = false → s.violation = false ∧ t.trig = s.trig
  ∧ ∀ c f, f ≠ .signature → f ≠ .status → fieldValue c f t = fieldValue c f s

theorem StartupKept.trans {s t u : State} (h : StartupKept s t) (k : StartupKept t u) : StartupKept s u := by
  intro hv
  obtain ⟨hvt, htrig, hfield⟩ := k hv
  obtain ⟨hvs, htrig', hfield'⟩ := h hvt
  exact ⟨hvs, htrig.trans htrig', fun c f hsig hst => (hfield c f hsig hst).trans (hfield' c f hsig hst)⟩

theorem Moves.startupKept {K : Scope} {s t : State} (h : Moves K s t) (hw : s.params.wf = true) {k : SStep}
    (hp : s.phase = .uninit k) (hK : ¬ K.trig) (hKf : ∀ c f v, f ≠ .signature → f ≠ .status → ¬ K.field c f v) :
    StartupKept s t := by
  induction h with
  | refl => exact fun hv => ⟨hv, rfl, fun _ _ _ _ => rfl⟩
  | tail hms hm ih =>
    have hp' := (Moves.phase hms).trans hp
    refine ih.trans fun hv => ⟨hm.violation hv, hm.trig_uninit hK hp' hv, fun c f hsig hst => ?_⟩
    exact hm.fieldValue_uninit (by rwa [Moves.params hms]) (fun v => hKf c f v hsig hst) hp' hv

theorem step_startupKept {s t : State} (h : step s = .next t) {k : SStep} (hp : s.phase = .uninit k) :
    StartupKept s t := by
  obtain ⟨u, hm, ht⟩ := step_moves h
  have kept : StartupKept s u := by
    refine hm.startupKept (wf_of_step h) hp (by simp [stepScope, hp]) fun c f v hsig hst => ?_
    simp [stepScope, stampWrite, servesCounterRead, hsig, hst, hp]
  rw [ht]
  exact kept

/-! ### Startup: the requests -/

/-- The requests of each startup step (R243, R244, R245). -/
def startupRequests (p : Params) : SStep → List RpcOp
  | .s1 => []
  | .s2 => []
  | .s3 => [.setPower p.pd1 true p.pdWait1, .setPower p.pd2 true p.pdWait2, .setPower p.pd3 true p.pdWait3]
  | .s4 => [.getBoardRev, .getClock p.clkId, .getMaxClock p.clkId]
  | .s5 => [.setPwm 0]
  | .s6 => []
  | .s7 => []

theorem startupStep_requests {k : SStep} {s t : State} (h : startupStep k s = .next t) :
    requestsOf t.trace = requestsOf s.trace ++ startupRequests s.params k := by
  cases k with
  | s1 => cases h; simp [startupRequests]
  | s2 => cases h; simp [startupRequests]
  | s3 =>
    rw [startupStep, stepS3_eq] at h
    cases h
    simp [threeCalls_trace, startupRequests]
  | s4 =>
    obtain ⟨a1, a2, a3, u, -, htrace, heq⟩ := stepS4_eq s
    rw [startupStep, heq] at h
    cases h
    simp [htrace, startupRequests]
  | s5 =>
    rw [startupStep, stepS5_eq] at h
    cases h
    simp [startupRequests]
  | s6 => cases h; simp [resetBoth, startupRequests]
  | s7 => cases h; simp [startupRequests]

/-- What one startup step gives for the run. -/
structure Started (k : SStep) (s t : State) : Prop where
  step : step s = .next t
  inv : Inv t
  phase : t.phase = nextStartup k
  params : t.params = s.params
  requests : requestsOf t.trace = requestsOf s.trace ++ startupRequests s.params k
  kept : StartupKept s t

theorem exists_started {s : State} (hi : Inv s) {k : SStep} (hp : s.phase = .uninit k) : ∃ t, Started k s t := by
  obtain ⟨t, ht⟩ := startupStep_answers_next k s
  have h : Machine.step s = .next t := (step_uninit hi.params hp).trans ht
  exact ⟨t, h, hi.step h, step_phase_uninit h hp, step_params h, startupStep_requests ht,
    step_startupKept h hp⟩

/-- Every power-on state meets the invariant. -/
theorem powerOn_inv {p : Params} {m : List Host.Cell} (hw : p.wf = true) (hm : memoryWf m = true) (v : Word)
    (q : IrqConfig) (c : CopState) (e : Env) : Inv (State.powerOn p m v q c e) where
  params := hw
  memory := hm
  latches := rfl
  configured := nofun
  active := rfl
  stamped := nofun
  trig := fun _ => trivial

/-- Settles O2: seven steps that keep the invariant, which in IDLE says the rest. -/
theorem startupEndsIdleWithBothChannelsPrimed : Obligations.StartupEndsIdleWithBothChannelsPrimed := by
  unfold Obligations.StartupEndsIdleWithBothChannelsPrimed
  intro p m v q c e hw hm
  obtain ⟨t1, h1⟩ := exists_started (k := .s1) (powerOn_inv hw hm v q c e) rfl
  obtain ⟨t2, h2⟩ := exists_started h1.inv h1.phase
  obtain ⟨t3, h3⟩ := exists_started h2.inv h2.phase
  obtain ⟨t4, h4⟩ := exists_started h3.inv h3.phase
  obtain ⟨t5, h5⟩ := exists_started h4.inv h4.phase
  obtain ⟨t6, h6⟩ := exists_started h5.inv h5.phase
  obtain ⟨t7, h7⟩ := exists_started h6.inv h6.phase
  have hidle : t7.phase = .idle := h7.phase
  have kept := h1.kept.trans (h2.kept.trans (h3.kept.trans (h4.kept.trans (h5.kept.trans (h6.kept.trans h7.kept)))))
  have p1 : t1.params = p := h1.params
  have p2 := h2.params.trans p1
  have p3 := h3.params.trans p2
  have p4 := h4.params.trans p3
  have p5 := h5.params.trans p4
  have p6 := h6.params.trans p5
  have p7 := h7.params.trans p6
  have hlatches := h7.inv.latches
  rw [latchesFit, hidle] at hlatches
  refine ⟨t7, ?_, hidle, hlatches, p7 ▸ h7.inv.configured (by rw [hidle]; rfl), ?_, fun hv => ?_⟩
  · rw [run_succ h1.step, run_succ h2.step, run_succ h3.step, run_succ h4.step, run_succ h5.step, run_succ h6.step,
      run_succ h7.step]
    rfl
  · rw [h7.requests, h6.requests, h5.requests, h4.requests, h3.requests, h2.requests, h1.requests, p6, p5, p4, p3, p2,
      p1]
    rfl
  · obtain ⟨-, htrig, hfield⟩ := kept hv
    refine ⟨h7.inv.stamped hv (by rw [hidle]; rfl), htrig, fun ch f hf => hfield ch f ?_ ?_⟩
    · rintro rfl; simp at hf
    · rintro rfl; simp at hf

end Sys2Proof.Machine
end

section
/-! PROOFS about one invocation (43_dispatch_sequencer.md R203, R204, 42_rpc_requests.md R179): which events each step
adds to the history, counted by kind, and the sum over the ten steps. -/

namespace Sys2Proof.Machine

/-! ### The kind of an access by its address -/

theorem accessIn_memRead (a n b w v : Nat) : accessIn a n (.memRead b w v) = decide (a ≤ b ∧ b < a + n) := by
  rw [accessIn, Bool.decide_and]

section
variable {p : Params} (hp : p.wf = true)
include hp

/-- The address of a field lies in its record, and so neither in TRIG nor in PERF (R60, R68). -/
theorem field_read_kind (c : Chan) (f : Field) (n v : Nat) :
    recordAccess p (.memRead (fieldAddr p c f) n v) = true ∧ trigAccess p (.memRead (fieldAddr p c f) n v) = false
      ∧ perfAccess p (.memRead (fieldAddr p c f) n v) = false := by
  obtain ⟨-, -, -, -, -, d0t, d0p, d1t, d1p, -⟩ : p.Admissible := of_decide_eq_true hp
  have hf : fieldOffset f < 16 := by cases f <;> decide
  simp only [recordAccess, trigAccess, perfAccess, accessIn_memRead, fieldAddr, Bool.or_eq_true, decide_eq_true_eq,
    decide_eq_false_iff_not]
  cases c <;> (simp only [chanBase]; omega)

theorem field_write_kind (c : Chan) (f : Field) (n v : Nat) :
    recordAccess p (.memWrite (fieldAddr p c f) n v) = true ∧ trigAccess p (.memWrite (fieldAddr p c f) n v) = false
      ∧ perfAccess p (.memWrite (fieldAddr p c f) n v) = false := field_read_kind hp c f n v

theorem trig_read_kind (n v : Nat) :
    recordAccess p (.memRead p.trigAddr n v) = false ∧ trigAccess p (.memRead p.trigAddr n v) = true
      ∧ perfAccess p (.memRead p.trigAddr n v) = false := by
  obtain ⟨-, -, -, -, -, d0t, -, d1t, -, dtp, -⟩ : p.Admissible := of_decide_eq_true hp
  simp only [recordAccess, trigAccess, perfAccess, accessIn_memRead, Bool.or_eq_false_iff, decide_eq_true_eq,
    decide_eq_false_iff_not]
  omega

theorem trig_write_kind (n v : Nat) :
    recordAccess p (.memWrite p.trigAddr n v) = false ∧ trigAccess p (.memWrite p.trigAddr n v) = true
      ∧ perfAccess p (.memWrite p.trigAddr n v) = false := trig_read_kind hp n v

theorem perf_read_kind (n v : Nat) :
    recordAccess p (.memRead p.perfAddr n v) = false ∧ trigAccess p (.memRead p.perfAddr n v) = false
      ∧ perfAccess p (.memRead p.perfAddr n v) = true := by
  obtain ⟨-, -, -, -, -, -, d0p, -, d1p, dtp, -⟩ : p.Admissible := of_decide_eq_true hp
  simp only [recordAccess, trigAccess, perfAccess, accessIn_memRead, Bool.or_eq_false_iff, decide_eq_true_eq,
    decide_eq_false_iff_not]
  omega

end

/-- An event that is no bus access is an access to nothing. -/
@[simp] theorem rpc_kind (p : Params) (op : RpcOp) (a : RpcAnswer) : recordAccess p (.rpc op a) = false
    ∧ trigAccess p (.rpc op a) = false ∧ perfAccess p (.rpc op a) = false := ⟨rfl, rfl, rfl⟩
@[simp] theorem gicAck_kind (p : Params) (i : Word) : recordAccess p (.gicAck i) = false
    ∧ trigAccess p (.gicAck i) = false ∧ perfAccess p (.gicAck i) = false := ⟨rfl, rfl, rfl⟩
@[simp] theorem gicEoi_kind (p : Params) (i : Word) : recordAccess p (.gicEoi i) = false
    ∧ trigAccess p (.gicEoi i) = false ∧ perfAccess p (.gicEoi i) = false := ⟨rfl, rfl, rfl⟩
@[simp] theorem log_kind (p : Params) (e : LogEvent) : recordAccess p (.log e) = false
    ∧ trigAccess p (.log e) = false ∧ perfAccess p (.log e) = false := ⟨rfl, rfl, rfl⟩

/-! ### The events of a step -/

/-- At most how many record accesses a step makes (R204). -/
def recordBound : HStep → Nat
  | .h5 => 7
  | .h6 => 7
  | .h8 => 4
  | _ => 0

/-- Which requests a step may make (R179). -/
def requestsFit (p : Params) : HStep → List RpcOp → Prop
  | .h5, l => l = [] ∨ l = [.getClock p.clkId]
  | .h7, l => l = [] ∨ (∃ d, l = [.setPwm d]) ∨ ∃ hz, l = [.setClock p.clkId hz]
  | _, l => l = []

/-- The share of one step in the bounds of R204. -/
structure EventBounds (p : Params) (k : HStep) (evs : List Event) : Prop where
  record : evs.countP (recordAccess p) ≤ recordBound k
  trig : evs.countP (trigAccess p) = if k = .h2 ∨ k = .h3 then 1 else 0
  perf : evs.countP (perfAccess p) ≤ if k = .h5 then 1 else 0
  ack : evs.count (.gicAck p.trigIrqId) = if k = .h1 then 1 else 0
  eoi : evs.count (.gicEoi p.trigIrqId) = if k = .h9 then 1 else 0
  requests : requestsFit p k (requestsOf evs)

/-- A step that adds no event. -/
theorem EventBounds.nil (p : Params) {k : HStep} (h : k ∈ [.h4, .h5, .h6, .h7, .h10]) : EventBounds p k [] := by
  simp only [List.mem_cons, List.not_mem_nil, or_false] at h
  rcases h with rfl | rfl | rfl | rfl | rfl <;>
    exact ⟨by simp, by simp, by simp, by simp, by simp, by simp [requestsFit, requestsOf]⟩

/-- `t` follows `s` with events within the bounds of step `k`. -/
def Adds (k : HStep) (s t : State) : Prop := ∃ evs, t.trace = s.trace ++ evs ∧ EventBounds s.params k evs

section
variable {s t : State} (hw : s.params.wf = true)
include hw

/-- One read of `command`, then at most six record accesses (R143 to R147). -/
theorem stepH5_adds (h : stepH5 s = .next t) : Adds .h5 s t := by
  obtain ⟨cnt, hc, -⟩ := withLatch_eq_next h
  cases cnt with
  | false => rw [stepH5_skip hc] at h; cases h; exact ⟨[], by simp, .nil _ (by simp)⟩
  | true =>
    rw [stepH5_eq hc] at h
    obtain ⟨u, hu, ht⟩ := andThen_eq_next h
    cases ht
    set cmd := fieldValue .ch0 .command (hostTurn s)
    have hread : (commandRead s).trace = s.trace ++ [.memRead (fieldAddr s.params .ch0 .command) 2 cmd] := by
      simp [commandRead, fieldBytes, cmd]
    have hpar : (commandRead s).params = s.params := by simp [commandRead]
    have error (c : Half) : Adds .h5 s (cntError c (commandRead s)) := by
      obtain ⟨e, sg, st, p0, p1, heq, he, htrace, -⟩ := cntError_spec c (commandRead s)
      refine ⟨_, by simp [heq, htrace, hread, hpar, he]; rfl, ?_⟩
      constructor <;> simp [recordBound, requestsFit, field_read_kind hw, field_write_kind hw]
    rcases decodeCommand_cases (BitVec.ofNat 16 cmd) with ⟨-, hd⟩ | hd | hd
    · rw [hd] at hu
      obtain ⟨c, a, -, -, hx, htrace, hpar', -⟩ := cntSample_spec (commandRead s)
      rw [exec_cmdRead (r := perfValue (commandRead s)) (by rw [hx]) (by rw [hx])] at hu
      cases hu
      refine ⟨_, by simp [cntRespond_trace, htrace, hread, hpar, hpar']; rfl, ?_⟩
      constructor <;> simp [recordBound, requestsFit, field_read_kind hw, field_write_kind hw, perf_read_kind hw]
    · rw [hd] at hu; cases hu; exact error _
    · rw [hd] at hu; cases hu; exact error _

/-- Five reads and two writes of Channel 1 (R149). -/
theorem stepH6_adds (h : stepH6 s = .next t) : Adds .h6 s t := by
  obtain ⟨fan, hf, -⟩ := withLatch_eq_next h
  cases fan with
  | false => rw [stepH6_skip hf] at h; cases h; exact ⟨[], by simp, .nil _ (by simp)⟩
  | true =>
    rw [stepH6_eq hf] at h
    cases h
    obtain ⟨e, sg, cm, st, p0, p1, heq, he, htrace, -⟩ := fanService_spec s
    refine ⟨_, by simp [heq, htrace, he]; rfl, ?_⟩
    constructor <;> simp [recordBound, requestsFit, field_read_kind hw, field_write_kind hw]

omit hw in
/-- At most one call (R198). -/
theorem stepH7_adds (hx : requestLatched s.params.clkGate s.x) (h : stepH7 s = .next t) : Adds .h7 s t := by
  obtain ⟨v, -, -, -, hpwm, hclk, hduty, hmhz⟩ := hx
  cases hp : flagPwm v with
  | true =>
    rw [stepH7_pwm (hp ▸ hpwm) hduty] at h
    cases h
    refine ⟨_, by simp; rfl, ?_⟩
    constructor <;> simp [recordBound, requestsFit]
  | false =>
    cases hc : flagClk s.params.clkGate v with
    | true =>
      rw [stepH7_clk (hp ▸ hpwm) (hc ▸ hclk) hmhz] at h
      cases h
      refine ⟨_, by simp; rfl, ?_⟩
      constructor <;> simp [recordBound, requestsFit]
    | false =>
      rw [stepH7_skip (hp ▸ hpwm) (hc ▸ hclk)] at h
      cases h
      exact ⟨[], by simp, .nil _ (by simp)⟩

end

/-- H1 adds the acknowledge and H9 the end of interrupt of the line's own id (R192, R200). -/
theorem step_h1_trace {s t : State} (h : step s = .next t) (hp : s.phase = .handling .h1) :
    t.trace = s.trace ++ [.gicAck s.params.trigIrqId] := by
  obtain ⟨hid, rfl⟩ := step_h1 h hp
  simp [hid]

theorem step_h9_trace {s t : State} (hi : Inv s) (h : step s = .next t) (hp : s.phase = .handling .h9) :
    t.trace = s.trace ++ [.gicEoi s.params.trigIrqId] := by
  obtain ⟨i, hid, rfl⟩ := step_h9 h hp
  have hfit := hi.latches
  rw [latchesFit, hp] at hfit
  obtain rfl : i = s.params.trigIrqId := Option.some.inj (hid.symm.trans hfit.1)
  simp

theorem step_h10_trace {s t : State} (h : step s = .next t) (hp : s.phase = .handling .h10) : t.trace = s.trace := by
  rw [step_h10_eq (wf_of_step h) hp] at h
  cases h
  simp

/-- Every step of an invocation stays within its share of the bounds. -/
theorem step_adds {s t : State} (hi : Inv s) (h : step s = .next t) {k : HStep} (hp : s.phase = .handling k) :
    Adds k s t := by
  have hw := hi.params
  have hfit := hi.latches
  rw [latchesFit, hp] at hfit
  cases k with
  | h1 =>
    refine ⟨_, step_h1_trace h hp, ?_⟩
    constructor <;> simp [recordBound, requestsFit]
  | h2 =>
    refine ⟨_, by rw [step_h2 h hp]; simp; rfl, ?_⟩
    constructor <;> simp [recordBound, requestsFit, trig_read_kind hw]
  | h3 =>
    obtain ⟨v, -, rfl⟩ := step_h3 h hp
    refine ⟨_, by simp; rfl, ?_⟩
    constructor <;> simp [recordBound, requestsFit, trig_write_kind hw]
  | h4 => obtain ⟨v, -, rfl⟩ := step_h4 h hp; exact ⟨[], by simp, .nil _ (by simp)⟩
  | h5 => exact stepH5_adds hw ((step_handling hw hp).symm.trans h)
  | h6 => exact stepH6_adds hw ((step_handling hw hp).symm.trans h)
  | h7 => exact stepH7_adds hfit.2 ((step_handling hw hp).symm.trans h)
  | h8 =>
    rw [step_handling hw hp] at h
    cases h
    refine ⟨_, by simp [resetBoth]; rfl, ?_⟩
    constructor <;> simp [recordBound, requestsFit, field_write_kind hw]
  | h9 =>
    refine ⟨_, step_h9_trace hi h hp, ?_⟩
    constructor <;> simp [recordBound, requestsFit]
  | h10 => exact ⟨[], by simp [step_h10_trace h hp], .nil _ (by simp)⟩

/-! ### The whole invocation -/

/-- What one step of an invocation gives for the run of a machine with parameters `p`. -/
structure Handled (p : Params) (k : HStep) (s t : State) : Prop where
  step : step s = .next t
  inv : Inv t
  phase : t.phase = nextStep k
  params : t.params = p
  adds : ∃ evs, t.trace = s.trace ++ evs ∧ EventBounds p k evs

theorem exists_handled {p : Params} {s : State} (hi : Inv s) {k : HStep} (hp : s.phase = .handling k)
    (hpar : s.params = p) (hid : k = .h1 → ackId s = p.trigIrqId) : ∃ t, Handled p k s t := by
  subst hpar
  rcases invariantStatesNeverFault s hi with ⟨t, h⟩ | ⟨h1, hforeign, -⟩
  · exact ⟨t, h, hi.step h, step_phase_handling h hp, step_params h, step_adds hi h hp⟩
  · have hk : k = .h1 := by simpa [hp] using h1
    exact absurd (hid hk) hforeign

/-- The next step of an invocation after the acknowledge. -/
theorem Handled.next {p : Params} {j k : HStep} {s t : State} (h : Handled p j s t)
    (hk : nextStep j = .handling k) (hne : k ≠ .h1) : ∃ u, Handled p k t u :=
  exists_handled h.inv (h.phase.trans hk) h.params fun hk1 => absurd hk1 hne

theorem ackId_eq_of_head {s : State} (h : ∀ i ∈ s.env.acks.head?, i = s.params.trigIrqId) :
    ackId s = s.params.trigIrqId := by
  rw [ackId]
  split
  · next heq => exact h _ (by rw [heq]; rfl)
  · rfl

/-- The bounds of R204 and R179 on the events from the trigger read at H2 to the resets at H8. -/
structure ServiceBounds (p : Params) (evs : List Event) : Prop where
  record : evs.countP (recordAccess p) ≤ 18
  trig : evs.countP (trigAccess p) = 2
  perf : evs.countP (perfAccess p) ≤ 1
  ack : evs.count (.gicAck p.trigIrqId) = 0
  eoi : evs.count (.gicEoi p.trigIrqId) = 0
  requests : ∃ l1 l2, requestsOf evs = l1 ++ l2 ∧ (l1 = [] ∨ l1 = [.getClock p.clkId])
    ∧ (l2 = [] ∨ (∃ d, l2 = [.setPwm d]) ∨ ∃ hz, l2 = [.setClock p.clkId hz])

/-- The shares of the steps H2 to H8 add up to the bounds. -/
theorem serviceBounds_of_steps {p : Params} {e2 e3 e4 e5 e6 e7 e8 : List Event} (b2 : EventBounds p .h2 e2)
    (b3 : EventBounds p .h3 e3) (b4 : EventBounds p .h4 e4) (b5 : EventBounds p .h5 e5) (b6 : EventBounds p .h6 e6)
    (b7 : EventBounds p .h7 e7) (b8 : EventBounds p .h8 e8) :
    ServiceBounds p (e2 ++ e3 ++ e4 ++ e5 ++ e6 ++ e7 ++ e8) where
  record := by
    simp only [List.countP_append]
    have h5 : e5.countP (recordAccess p) ≤ 7 := b5.record
    have h6 : e6.countP (recordAccess p) ≤ 7 := b6.record
    have h8 : e8.countP (recordAccess p) ≤ 4 := b8.record
    have zero {k : HStep} {evs : List Event} (b : EventBounds p k evs) (hk : recordBound k = 0) :
        evs.countP (recordAccess p) = 0 := Nat.le_zero.1 (hk ▸ b.record)
    rw [zero b2 rfl, zero b3 rfl, zero b4 rfl, zero b7 rfl]
    omega
  trig := by simp [b2.trig, b3.trig, b4.trig, b5.trig, b6.trig, b7.trig, b8.trig]
  perf := by
    simp only [List.countP_append]
    have h5 : e5.countP (perfAccess p) ≤ 1 := b5.perf
    have zero {k : HStep} {evs : List Event} (b : EventBounds p k evs) (hk : k ≠ .h5) :
        evs.countP (perfAccess p) = 0 := Nat.le_zero.1 (by simpa [hk] using b.perf)
    rw [zero b2 nofun, zero b3 nofun, zero b4 nofun, zero b6 nofun, zero b7 nofun, zero b8 nofun]
    omega
  ack := by simp [b2.ack, b3.ack, b4.ack, b5.ack, b6.ack, b7.ack, b8.ack]
  eoi := by simp [b2.eoi, b3.eoi, b4.eoi, b5.eoi, b6.eoi, b7.eoi, b8.eoi]
  requests := by
    have r2 : requestsOf e2 = [] := b2.requests
    have r3 : requestsOf e3 = [] := b3.requests
    have r4 : requestsOf e4 = [] := b4.requests
    have r6 : requestsOf e6 = [] := b6.requests
    have r8 : requestsOf e8 = [] := b8.requests
    exact ⟨requestsOf e5, requestsOf e7, by simp [r2, r3, r4, r6, r8], b5.requests, b7.requests⟩

/-- The calls are the requests. -/
theorem countP_isRpc (evs : List Event) : evs.countP isRpc = (requestsOf evs).length :=
  List.length_filterMap_eq_countP.symm

/-- At most one `GET_CLOCK` and one request of H7. -/
theorem ServiceBounds.rpc {p : Params} {evs : List Event} (h : ServiceBounds p evs) : evs.countP isRpc ≤ 2 := by
  obtain ⟨l1, l2, hreq, h1, h2⟩ := h.requests
  have hl1 : l1.length ≤ 1 := by rcases h1 with rfl | rfl <;> simp
  have hl2 : l2.length ≤ 1 := by rcases h2 with rfl | ⟨d, rfl⟩ | ⟨hz, rfl⟩ <;> simp
  rw [countP_isRpc, hreq, List.length_append]
  omega

/-- Settles O53: delivery, then ten steps that keep the invariant; the acknowledge and the end of interrupt frame the
services, whose bounds are `serviceBounds_of_steps`. -/
theorem everyInvocationTerminatesWithinItsBounds : Obligations.EveryInvocationTerminatesWithinItsBounds := by
  unfold Obligations.EveryInvocationTerminatesWithinItsBounds
  intro s hi hp hd hack
  have h0 := step_idle_delivers hi.params hp hd
  have i0 := hi.step h0
  have hid : ackId ((hostTurn s).setPhase (.handling .h1)) = s.params.trigIrqId :=
    (ackId_hostTurn s).trans (ackId_eq_of_head hack)
  obtain ⟨t1, h1⟩ := exists_handled i0 (k := .h1) rfl (step_params h0) fun _ => hid
  obtain ⟨t2, h2⟩ := h1.next (k := .h2) rfl nofun
  obtain ⟨t3, h3⟩ := h2.next (k := .h3) rfl nofun
  obtain ⟨t4, h4⟩ := h3.next (k := .h4) rfl nofun
  obtain ⟨t5, h5⟩ := h4.next (k := .h5) rfl nofun
  obtain ⟨t6, h6⟩ := h5.next (k := .h6) rfl nofun
  obtain ⟨t7, h7⟩ := h6.next (k := .h7) rfl nofun
  obtain ⟨t8, h8⟩ := h7.next (k := .h8) rfl nofun
  obtain ⟨t9, h9⟩ := h8.next (k := .h9) rfl nofun
  obtain ⟨t10, h10⟩ := h9.next (k := .h10) rfl nofun
  have hidle : t10.phase = .idle := h10.phase
  have hlatches := h10.inv.latches
  rw [latchesFit, hidle] at hlatches
  obtain ⟨e2, tr2, b2⟩ := h2.adds
  obtain ⟨e3, tr3, b3⟩ := h3.adds
  obtain ⟨e4, tr4, b4⟩ := h4.adds
  obtain ⟨e5, tr5, b5⟩ := h5.adds
  obtain ⟨e6, tr6, b6⟩ := h6.adds
  obtain ⟨e7, tr7, b7⟩ := h7.adds
  obtain ⟨e8, tr8, b8⟩ := h8.adds
  have bounds := serviceBounds_of_steps b2 b3 b4 b5 b6 b7 b8
  set svc := e2 ++ e3 ++ e4 ++ e5 ++ e6 ++ e7 ++ e8 with hsvc
  have tr1 : t1.trace = s.trace ++ [.gicAck s.params.trigIrqId] := by
    rw [step_h1_trace h1.step rfl]
    simp
  have tr9 : t9.trace = t8.trace ++ [.gicEoi s.params.trigIrqId] := by
    rw [step_h9_trace h8.inv h9.step h8.phase, h8.params]
  have tr10 : t10.trace = t9.trace := step_h10_trace h10.step h9.phase
  refine ⟨t10, [.gicAck s.params.trigIrqId] ++ svc ++ [.gicEoi s.params.trigIrqId], ?_, hidle, hlatches, ?_, ?_, ?_, ?_,
    ?_, ?_, ?_, ?_, by simp, List.getLast?_concat .., ?_⟩
  · rw [run_succ h0, run_succ h1.step, run_succ h2.step, run_succ h3.step, run_succ h4.step, run_succ h5.step,
      run_succ h6.step, run_succ h7.step, run_succ h8.step, run_succ h9.step, run_succ h10.step]
    rfl
  · rw [h10.inv.active, hidle]
    rfl
  · simp [tr10, tr9, tr8, tr7, tr6, tr5, tr4, tr3, tr2, tr1, hsvc]
  · simpa using bounds.record
  · simpa using bounds.trig
  · simpa using bounds.perf
  · simpa [isRpc, eventRpc] using bounds.rpc
  · simp [bounds.ack]
  · simp [bounds.eoi]
  · simpa using bounds.requests

end Sys2Proof.Machine
end
